-- ==== Sys2Proof/Word.lean ====
section
/-! DEFINITION. The word types of the block: everything the host sees is a 32-bit word (`00_scope.md` R5, R7, R8), the source, PRAM and SAMP
hold bytes, the quantization entries and the fast Huffman table hold 16-bit values. -/

namespace Sys2Proof

/-- A 32-bit word: a command word, a window register, an `i32` in two's complement, or a binary32 bit pattern. -/
abbrev Word := BitVec 32

/-- A `u8`. -/
abbrev Byte := BitVec 8

/-- A `u16`. -/
abbrev Half := BitVec 16

end Sys2Proof
end

