-- ==== Sys2Proof/Syntax.lean ====
section
/-! DEFINITION. The 26 commands of `30_encoding.md` R83, one constructor per row of the opcode table. An operand is the unsigned integer its
field holds (R82); `comp` has exactly the four values of its two bits, every other field may be out of its command's legal range and is then
refused by the command itself (R84 step 4). -/

namespace Sys2Proof

/-- A command of the block with its operand fields. -/
inductive Instr where
  /-- NOP (R100). -/
  | nop
  /-- SS.INIT (R101). -/
  | ssInit
  /-- BS.RDB (R115). -/
  | bsRdb
  /-- BS.UNRD (R116). -/
  | bsUnrd
  /-- BS.RDX n (R117). -/
  | bsRdx (n : Nat)
  /-- BS.SKIP n (R118). -/
  | bsSkip (n : Nat)
  /-- BA.ENS n (R135). -/
  | baEns (n : Nat)
  /-- BA.RDBIT (R136). -/
  | baRdbit
  /-- BA.RDBITS n (R137). -/
  | baRdbits (n : Nat)
  /-- BA.RCVX t (R138). -/
  | baRcvx (t : Nat)
  /-- BA.RST (R139). -/
  | baRst
  /-- HT.BUILD tc, th (R155). -/
  | htBuild (tc th : Nat)
  /-- HT.DEC tc, th (R158). -/
  | htDec (tc th : Nat)
  /-- CL.CLR (R175). -/
  | clClr
  /-- CL.BLK comp, td, ta (R176). -/
  | clBlk (comp : Fin 4) (td ta : Nat)
  /-- CL.DCF comp, slot, al (R177). -/
  | clDcf (comp : Fin 4) (slot al : Nat)
  /-- CL.DCR al (R178). -/
  | clDcr (al : Nat)
  /-- CL.ACF slot, ss, se, al (R179). -/
  | clAcf (slot ss se al : Nat)
  /-- CL.ACR slot, ss, se, al (R180). -/
  | clAcr (slot ss se al : Nat)
  /-- CL.RSTM (R181). -/
  | clRstm
  /-- CL.SCAN (R182). -/
  | clScan
  /-- QT.LOAD pq, tq (R200). -/
  | qtLoad (pq tq : Nat)
  /-- XF.CFG comp, variant (R201). -/
  | xfCfg (comp : Fin 4) (variant : Nat)
  /-- XF.DQ comp, tq (R205). -/
  | xfDq (comp : Fin 4) (tq : Nat)
  /-- XF.IDCT comp (R225). -/
  | xfIdct (comp : Fin 4)
  /-- XF.RUN comp, tq (R226). -/
  | xfRun (comp : Fin 4) (tq : Nat)
deriving DecidableEq, Repr

end Sys2Proof
end

