-- ==== Sys2Proof/WellFormed.lean ====
section
/-! DEFINITION. An instruction is well formed when every operand fits the field that carries it (`30_encoding.md` R81). Legal ranges are
narrower and are checked by the commands themselves (R82, R84 step 4): an operand out of range is well formed and faults. -/

namespace Sys2Proof

/-- `v` fits an unsigned field of `k` bits. -/
def fitsField (k v : Nat) : Bool := decide (v < 2 ^ k)

/-- Every operand fits its field (R81). -/
def Instr.wf : Instr → Bool
  | .nop => true
  | .ssInit => true
  | .bsRdb => true
  | .bsUnrd => true
  | .bsRdx n => fitsField 16 n
  | .bsSkip n => fitsField 16 n
  | .baEns n => fitsField 5 n
  | .baRdbit => true
  | .baRdbits n => fitsField 5 n
  | .baRcvx t => fitsField 5 t
  | .baRst => true
  | .htBuild tc th => fitsField 4 tc && fitsField 4 th
  | .htDec tc th => fitsField 4 tc && fitsField 4 th
  | .clClr => true
  | .clBlk _ td ta => fitsField 4 td && fitsField 4 ta
  | .clDcf _ slot al => fitsField 4 slot && fitsField 4 al
  | .clDcr al => fitsField 4 al
  | .clAcf slot ss se al => fitsField 4 slot && fitsField 6 ss && fitsField 6 se && fitsField 4 al
  | .clAcr slot ss se al => fitsField 4 slot && fitsField 6 ss && fitsField 6 se && fitsField 4 al
  | .clRstm => true
  | .clScan => true
  | .qtLoad pq tq => fitsField 4 pq && fitsField 4 tq
  | .xfCfg _ variant => fitsField 3 variant
  | .xfDq _ tq => fitsField 4 tq
  | .xfIdct _ => true
  | .xfRun _ tq => fitsField 4 tq

end Sys2Proof
end

