-- ==== Sys2Proof/Decode.lean ====
section
/-! DEFINITION. The command decoder of `30_encoding.md` (R80 to R85), total on every 32-bit word, and the encoder written from the same
tables. A word that decodes to nothing is rejected by name; both names raise IllegalCommand (R84 steps 2 and 3). -/

namespace Sys2Proof

/-- Why a word is no command. -/
inductive DecodeError where
  /-- Bits 31:24 are not an opcode of R83 (R84 step 2). -/
  | unassignedOpcode
  /-- A must-be-zero bit of the command's format is 1 (R84 step 3). -/
  | mustBeZeroBit
deriving DecidableEq, Repr

/-- `w[hi:lo]` as an unsigned number (R7). -/
def bitField (w : Word) (hi lo : Nat) : Nat := (w.toNat >>> lo) % 2 ^ (hi + 1 - lo)

/-- Accept `i` when the must-be-zero bits, given as a test, are all 0. -/
def whenZero (zero : Bool) (i : Instr) : Except DecodeError Instr :=
  if zero then .ok i else .error .mustBeZeroBit

/-- Format Z: no operand. -/
def decodeZ (w : Word) (i : Instr) : Except DecodeError Instr := whenZero (bitField w 23 0 == 0) i

/-- Format N: a byte count in bits 15:0. -/
def decodeN (w : Word) (mk : Nat → Instr) : Except DecodeError Instr :=
  whenZero (bitField w 23 16 == 0) (mk (bitField w 15 0))

/-- Format B: a bit count in bits 4:0. -/
def decodeB (w : Word) (mk : Nat → Instr) : Except DecodeError Instr :=
  whenZero (bitField w 23 5 == 0) (mk (bitField w 4 0))

/-- Format T: the two nibbles of a table byte. -/
def decodeT (w : Word) (mk : Nat → Nat → Instr) : Except DecodeError Instr :=
  whenZero (bitField w 23 8 == 0) (mk (bitField w 7 4) (bitField w 3 0))

/-- The component field, bits 9:8 of formats K, P and X. -/
def compField (w : Word) : Fin 4 := Fin.ofNat 4 (bitField w 9 8)

/-- Format K: a baseline block. -/
def decodeK (w : Word) (mk : Fin 4 → Nat → Nat → Instr) : Except DecodeError Instr :=
  whenZero (bitField w 23 10 == 0) (mk (compField w) (bitField w 7 4) (bitField w 3 0))

/-- Format P with se = ss = 0 required (CL.DCF). -/
def decodePDc (w : Word) (mk : Fin 4 → Nat → Nat → Instr) : Except DecodeError Instr :=
  whenZero (bitField w 23 22 == 0 && bitField w 21 16 == 0 && bitField w 15 10 == 0)
    (mk (compField w) (bitField w 7 4) (bitField w 3 0))

/-- Format P with se = ss = comp = slot = 0 required (CL.DCR). -/
def decodePRefine (w : Word) (mk : Nat → Instr) : Except DecodeError Instr :=
  whenZero (bitField w 23 22 == 0 && bitField w 21 16 == 0 && bitField w 15 10 == 0 && bitField w 9 8 == 0
      && bitField w 7 4 == 0)
    (mk (bitField w 3 0))

/-- Format P with comp = 0 required (CL.ACF, CL.ACR); the operands in the order slot, ss, se, al. -/
def decodePAc (w : Word) (mk : Nat → Nat → Nat → Nat → Instr) : Except DecodeError Instr :=
  whenZero (bitField w 23 22 == 0 && bitField w 9 8 == 0)
    (mk (bitField w 7 4) (bitField w 15 10) (bitField w 21 16) (bitField w 3 0))

/-- Format X with a 4-bit argument (XF.DQ, XF.RUN). -/
def decodeX (w : Word) (mk : Fin 4 → Nat → Instr) : Except DecodeError Instr :=
  whenZero (bitField w 23 10 == 0 && bitField w 7 4 == 0) (mk (compField w) (bitField w 3 0))

/-- Format X of XF.CFG: the variant in bits 2:0, bit 3 must be zero. -/
def decodeXVariant (w : Word) (mk : Fin 4 → Nat → Instr) : Except DecodeError Instr :=
  whenZero (bitField w 23 10 == 0 && bitField w 7 4 == 0 && bitField w 3 3 == 0) (mk (compField w) (bitField w 2 0))

/-- Format X of XF.IDCT: the argument must be zero. -/
def decodeXNoArg (w : Word) (mk : Fin 4 → Instr) : Except DecodeError Instr :=
  whenZero (bitField w 23 10 == 0 && bitField w 7 4 == 0 && bitField w 3 0 == 0) (mk (compField w))

/-- The command a word stands for, or why it stands for none (R84 steps 2 and 3). -/
def decode (w : Word) : Except DecodeError Instr :=
  match bitField w 31 24 with
  | 0x00 => decodeZ w .nop
  | 0x01 => decodeZ w .ssInit
  | 0x10 => decodeZ w .bsRdb
  | 0x12 => decodeZ w .bsUnrd
  | 0x13 => decodeN w .bsRdx
  | 0x14 => decodeN w .bsSkip
  | 0x20 => decodeB w .baEns
  | 0x21 => decodeZ w .baRdbit
  | 0x22 => decodeB w .baRdbits
  | 0x23 => decodeB w .baRcvx
  | 0x24 => decodeZ w .baRst
  | 0x30 => decodeT w .htBuild
  | 0x31 => decodeT w .htDec
  | 0x40 => decodeZ w .clClr
  | 0x41 => decodeK w .clBlk
  | 0x42 => decodePDc w .clDcf
  | 0x43 => decodePRefine w .clDcr
  | 0x44 => decodePAc w .clAcf
  | 0x45 => decodePAc w .clAcr
  | 0x46 => decodeZ w .clRstm
  | 0x47 => decodeZ w .clScan
  | 0x50 => decodeT w .qtLoad
  | 0x51 => decodeXVariant w .xfCfg
  | 0x52 => decodeX w .xfDq
  | 0x53 => decodeXNoArg w .xfIdct
  | 0x54 => decodeX w .xfRun
  | _ => .error .unassignedOpcode

/-- A command word from its opcode and its operand field, bits 23:0. -/
def commandWord (op operands : Nat) : Word := BitVec.ofNat 32 (op * 2 ^ 24 + operands)

/-- The word of a well-formed command (R81, R83). -/
def encode : Instr → Word
  | .nop => commandWord 0x00 0
  | .ssInit => commandWord 0x01 0
  | .bsRdb => commandWord 0x10 0
  | .bsUnrd => commandWord 0x12 0
  | .bsRdx n => commandWord 0x13 n
  | .bsSkip n => commandWord 0x14 n
  | .baEns n => commandWord 0x20 n
  | .baRdbit => commandWord 0x21 0
  | .baRdbits n => commandWord 0x22 n
  | .baRcvx t => commandWord 0x23 t
  | .baRst => commandWord 0x24 0
  | .htBuild tc th => commandWord 0x30 (tc * 2 ^ 4 + th)
  | .htDec tc th => commandWord 0x31 (tc * 2 ^ 4 + th)
  | .clClr => commandWord 0x40 0
  | .clBlk comp td ta => commandWord 0x41 (comp.val * 2 ^ 8 + td * 2 ^ 4 + ta)
  | .clDcf comp slot al => commandWord 0x42 (comp.val * 2 ^ 8 + slot * 2 ^ 4 + al)
  | .clDcr al => commandWord 0x43 al
  | .clAcf slot ss se al => commandWord 0x44 (se * 2 ^ 16 + ss * 2 ^ 10 + slot * 2 ^ 4 + al)
  | .clAcr slot ss se al => commandWord 0x45 (se * 2 ^ 16 + ss * 2 ^ 10 + slot * 2 ^ 4 + al)
  | .clRstm => commandWord 0x46 0
  | .clScan => commandWord 0x47 0
  | .qtLoad pq tq => commandWord 0x50 (pq * 2 ^ 4 + tq)
  | .xfCfg comp variant => commandWord 0x51 (comp.val * 2 ^ 8 + variant)
  | .xfDq comp tq => commandWord 0x52 (comp.val * 2 ^ 8 + tq)
  | .xfIdct comp => commandWord 0x53 (comp.val * 2 ^ 8)
  | .xfRun comp tq => commandWord 0x54 (comp.val * 2 ^ 8 + tq)

/-- The mnemonic of a command (R83). -/
def Instr.mnemonic : Instr → String
  | .nop => "NOP"
  | .ssInit => "SS.INIT"
  | .bsRdb => "BS.RDB"
  | .bsUnrd => "BS.UNRD"
  | .bsRdx _ => "BS.RDX"
  | .bsSkip _ => "BS.SKIP"
  | .baEns _ => "BA.ENS"
  | .baRdbit => "BA.RDBIT"
  | .baRdbits _ => "BA.RDBITS"
  | .baRcvx _ => "BA.RCVX"
  | .baRst => "BA.RST"
  | .htBuild _ _ => "HT.BUILD"
  | .htDec _ _ => "HT.DEC"
  | .clClr => "CL.CLR"
  | .clBlk _ _ _ => "CL.BLK"
  | .clDcf _ _ _ => "CL.DCF"
  | .clDcr _ => "CL.DCR"
  | .clAcf _ _ _ _ => "CL.ACF"
  | .clAcr _ _ _ _ => "CL.ACR"
  | .clRstm => "CL.RSTM"
  | .clScan => "CL.SCAN"
  | .qtLoad _ _ => "QT.LOAD"
  | .xfCfg _ _ => "XF.CFG"
  | .xfDq _ _ => "XF.DQ"
  | .xfIdct _ => "XF.IDCT"
  | .xfRun _ _ => "XF.RUN"

/-- A row of the opcode table: `w` is the row's command when `w & mask = pattern` (`INDEX.md`, on `opcode_table.json`). -/
structure OpcodeRow where
  mnemonic : String
  pattern : Word
  mask : Word
deriving DecidableEq, Repr

/-- The opcode table as the spec prints it, masks and patterns. The decoder does not read it; it is there to be compared with the decoder. -/
def opcodeTable : List OpcodeRow :=
  [⟨"NOP", 0x00000000, 0xFFFFFFFF⟩, ⟨"SS.INIT", 0x01000000, 0xFFFFFFFF⟩,
   ⟨"BS.RDB", 0x10000000, 0xFFFFFFFF⟩, ⟨"BS.UNRD", 0x12000000, 0xFFFFFFFF⟩,
   ⟨"BS.RDX", 0x13000000, 0xFFFF0000⟩, ⟨"BS.SKIP", 0x14000000, 0xFFFF0000⟩] ++
  [⟨"BA.ENS", 0x20000000, 0xFFFFFFE0⟩, ⟨"BA.RDBIT", 0x21000000, 0xFFFFFFFF⟩,
   ⟨"BA.RDBITS", 0x22000000, 0xFFFFFFE0⟩, ⟨"BA.RCVX", 0x23000000, 0xFFFFFFE0⟩,
   ⟨"BA.RST", 0x24000000, 0xFFFFFFFF⟩, ⟨"HT.BUILD", 0x30000000, 0xFFFFFF00⟩,
   ⟨"HT.DEC", 0x31000000, 0xFFFFFF00⟩] ++
  [⟨"CL.CLR", 0x40000000, 0xFFFFFFFF⟩, ⟨"CL.BLK", 0x41000000, 0xFFFFFC00⟩,
   ⟨"CL.DCF", 0x42000000, 0xFFFFFC00⟩, ⟨"CL.DCR", 0x43000000, 0xFFFFFFF0⟩,
   ⟨"CL.ACF", 0x44000000, 0xFFC00300⟩, ⟨"CL.ACR", 0x45000000, 0xFFC00300⟩,
   ⟨"CL.RSTM", 0x46000000, 0xFFFFFFFF⟩, ⟨"CL.SCAN", 0x47000000, 0xFFFFFFFF⟩] ++
  [⟨"QT.LOAD", 0x50000000, 0xFFFFFF00⟩, ⟨"XF.CFG", 0x51000000, 0xFFFFFCF8⟩,
   ⟨"XF.DQ", 0x52000000, 0xFFFFFCF0⟩, ⟨"XF.IDCT", 0x53000000, 0xFFFFFCFF⟩,
   ⟨"XF.RUN", 0x54000000, 0xFFFFFCF0⟩]

/-- The command a table word stands for. A command is always one 32-bit word (R80, R86), so a shorter word is the same word with zeros above. -/
def decodeTableWord (nbits w : Nat) : Option Instr :=
  match decode (BitVec.ofNat 32 (w % 2 ^ nbits)) with
  | .ok i => some i
  | .error _ => none

end Sys2Proof
end

