-- ==== Sys2Proof/Config.lean ====
section
/-! DEFINITION. What is fixed for one block (the parameters of `00_scope.md` R5) and the free values: what the spec leaves without a value
(`93_implementation_defined.md` U1, U4) and results that no rule states. A free value is an opaque constant with no body, so nothing can be
proved about which value it is (log 3, 4, 5, 14, 16). -/

namespace Sys2Proof.Config

/-- PRAM holds 512 bytes (R5, R38; decision D42). -/
def pramSize : Nat := 512

/-- The premise of R25: a source has fewer than 2^32 bytes. -/
def srcLimit : Nat := 2 ^ 32

/-- COEF[n] as reset or SS.INIT number `k` leaves it (U1). -/
opaque freeCoef : (k n : Nat) → Word

/-- DQB[n] as reset or SS.INIT number `k` leaves it (U1). -/
opaque freeDqb : (k n : Nat) → Word

/-- SAMP[i] as reset or SS.INIT number `k` leaves it (U1). -/
opaque freeSamp : (k i : Nat) → Byte

/-- PRAM[i] as reset or SS.INIT number `k` leaves it (U1). -/
opaque freePram : (k i : Nat) → Byte

/-- QT[tq][z] of an undefined slot after reset or SS.INIT number `k` (U1). -/
opaque freeQt : (k tq z : Nat) → Half

/-- counts[L] of undefined table `t` after reset or SS.INIT number `k` (U1). -/
opaque freeHtCount : (k t L : Nat) → Byte

/-- vals[i] of undefined table `t` after reset or SS.INIT number `k` (U1). -/
opaque freeHtVal : (k t i : Nat) → Byte

/-- minCode[L] of undefined table `t` after reset or SS.INIT number `k` (U1). -/
opaque freeHtMin : (k t L : Nat) → Int

/-- maxCode[L] of undefined table `t` after reset or SS.INIT number `k` (U1). -/
opaque freeHtMax : (k t L : Nat) → Int

/-- valsIndex[L] of undefined table `t` after reset or SS.INIT number `k` (U1). -/
opaque freeHtIndex : (k t L : Nat) → Int

/-- lut[i] of undefined table `t` after reset or SS.INIT number `k` (U1). -/
opaque freeHtLut : (k t i : Nat) → Half

/-- What host read number `k` returns from the register at `off` while STATUS.FAULT = 1, for a register whose value is then unspecified (U4). -/
opaque freeRead : (k off : Nat) → Word

/-- A binary32 sum for which `00_scope.md` R11 states no result: an operand is not finite, or the exact sum is beyond the binary32 range (log 14). -/
opaque f32OpenAdd : (a b : Word) → Word

/-- A binary32 product for which R11 states no result (log 14). -/
opaque f32OpenMul : (a b : Word) → Word

/-- The integer `trunc` gives for a pattern that is not finite (log 14). -/
opaque f32OpenTrunc : (a : Word) → Int

/-- The symbol a decode yields when its index lies outside `vals[0..255]`, which no table HT.BUILD makes can cause (log 16). -/
opaque openSymbol : (index : Int) → Byte

/-- The byte of a PRAM address that has no cell, which no reachable memory lacks (log 11). -/
opaque openPram : (address : Nat) → Byte

end Sys2Proof.Config
end

