-- ==== Sys2Proof/Machine/State.lean ====
section
/-! DEFINITION. The state of the block: every item of `10_state.md` R20, the source of the session and of the next one (`20_memory.md` R61),
the pending host operations that drive the machine (log 1), and two fields of the model's own (`rdata`, `free`). Plain data throughout. -/

namespace Sys2Proof.Machine

/-- PRAM: one cell per address 0..511, addresses strictly rising (R38, log 11). -/
abbrev Memory := List Host.Cell

/-- The canonical form of PRAM: the listed addresses are exactly 0..511 in rising order. An unlisted address does not exist. -/
abbrev Memory.wf (m : Memory) : Prop := m.map (fun c => c.1) = List.range Config.pramSize

/-- STATUS (R23). The reserved bits are hard-wired to 0 and are not stored. -/
structure Status where
  /-- bit 0: a command is executing; between commands always 0 -/
  busy : Bool
  /-- bit 1: sticky, set by `raise`, cleared by reset and SS.INIT -/
  fault : Bool
  /-- bits 15:8: the code of the recorded fault -/
  fcode : Byte
deriving DecidableEq, Repr

/-- U1 and U2: the byte stream cursor and the bit accumulator (R25, R26, R28). -/
structure Stream where
  /-- SRC_POS, 32 bits: the offset of the next raw byte -/
  pos : Nat
  /-- NUNRD, 2 bits: raw bytes of the last stuffed read that can be unread -/
  nunrd : Fin 3
  /-- BA_ACC, 32 bits: the unread bits are its low `cnt` bits -/
  acc : Word
  /-- BA_CNT, 5 bits -/
  cnt : Nat
deriving DecidableEq, Repr

/-- One Huffman table (R29). The arrays indexed by code length hold length `L` at index `L - 1`. -/
structure HuffTable where
  /-- total number of codes; 0 means never defined -/
  nCodes : Nat
  counts : Vector Byte 16
  /-- the symbols by increasing code -/
  vals : Vector Byte 256
  /-- smallest code of each length, -1 for a length without codes -/
  minCode : Vector Int 16
  /-- largest code of each length, -1 for a length without codes -/
  maxCode : Vector Int 16
  /-- index in `vals` of the symbol of `minCode`, -1 for a length without codes -/
  valsIndex : Vector Int 16
  /-- the fast table: (symbol << 8) | (length + 1), or 0 -/
  lut : Vector Half 256
deriving DecidableEq, Repr

/-- One quantization table in zig-zag order (R30). -/
abbrev QuantTable := Vector Half 64

/-- The inverse transforms XCFG selects among (R35). -/
inductive Variant where
  | acc
  | fast
  | flt
  | red4
  | red2
  | red1
deriving DecidableEq, Repr

/-- How a dequantized block was prepared (R35, R36). -/
inductive Kind where
  /-- 0: coefficient times entry -/
  | plain
  /-- 1: scaled integer, for FAST -/
  | scaled
  /-- 2: scaled binary32, for FLT -/
  | float
deriving DecidableEq, Repr

/-- DQTAG (R36). -/
structure DqTag where
  valid : Bool
  kind : Kind
deriving DecidableEq, Repr

/-- One operation of the host or platform on the block, between commands (R6, R40, R61, R67, R290). Offsets and sizes are in bytes. -/
inductive HostOp where
  /-- present `src` as the source of the next session -/
  | bind (src : List Byte)
  /-- hardware reset -/
  | reset
  /-- a load from the register window -/
  | read (off size : Nat)
  /-- a store to the register window; at offset 0x000 it issues a command -/
  | write (off size : Nat) (data : Word)
deriving DecidableEq, Repr

/-- The complete state of the block and its surroundings. -/
structure State where
  /-- CMD: the last command word taken (R21) -/
  cmd : Word
  status : Status
  /-- RESULT (R21) -/
  result : Word
  /-- CCNT: commands completed without fault (R22) -/
  ccnt : Word
  /-- FINFO: the word of the recorded fault (R24) -/
  finfo : Word
  stream : Stream
  /-- HT[tc][th], tc 0 = DC, 1 = AC (R29) -/
  ht : Vector (Vector HuffTable 4) 2
  /-- QT[tq] (R30) -/
  qt : Vector QuantTable 4
  /-- QTDEF[tq] (R30) -/
  qtdef : Vector Bool 4
  /-- COEF in natural order (R31) -/
  coef : Vector Word 64
  /-- DCPRED[c] (R32) -/
  dcpred : Vector Word 4
  /-- EOBRUN (R33) -/
  eobrun : Half
  /-- RSTEXP (R34) -/
  rstexp : Fin 8
  /-- XCFG[c] (R35) -/
  xcfg : Vector Variant 4
  /-- DQB in natural order (R36) -/
  dqb : Vector Word 64
  dqtag : DqTag
  /-- SAMP (R37) -/
  samp : Vector Byte 64
  /-- PRAM (R38) -/
  pram : Memory
  /-- SRC of this session; SRC_LEN is its length (R61) -/
  src : List Byte
  /-- the source that the next reset or SS.INIT binds (R61, R101, R291) -/
  nextSrc : List Byte
  /-- the model's own: host operations not yet performed, oldest first (log 1) -/
  inputs : List HostOp
  /-- the model's own: what the last host read returned (log 17) -/
  rdata : Word
  /-- the model's own: the number of the next free value (log 3) -/
  free : Nat
deriving DecidableEq, Repr

/-- The machine's own faults. There are none: a fault of the block (`60_exceptions.md` R262) is recorded in STATUS and the machine goes on, so
it is a next state. -/
inductive Fault where
deriving DecidableEq, Repr

/-- Why a step is refused. -/
inductive Refusal where
  /-- `exec`, for a command that has no meaning in the model yet. Safe. -/
  | notModelled (mnemonic : String)
  /-- a host access that is not 32 bits wide, not aligned, or not at a listed offset: "a model refuses it" (R65, U2). Safe. -/
  | windowAccess
  /-- a host write to CMD while STATUS.BUSY = 1 (U3). Safe. -/
  | cmdWhileBusy
  /-- a host that binds a source of 2^32 bytes or more, against the premise of R25. Safe. -/
  | sourceTooLong
deriving DecidableEq, Repr

/-- The body of an undefined table (R41, U1): no code, the rest free. `t` numbers the table, `k` the reset. -/
def HuffTable.undefinedTable (k t : Nat) : HuffTable where
  nCodes := 0
  counts := Vector.ofFn fun i => Config.freeHtCount k t i.val
  vals := Vector.ofFn fun i => Config.freeHtVal k t i.val
  minCode := Vector.ofFn fun i => Config.freeHtMin k t i.val
  maxCode := Vector.ofFn fun i => Config.freeHtMax k t i.val
  valsIndex := Vector.ofFn fun i => Config.freeHtIndex k t i.val
  lut := Vector.ofFn fun i => Config.freeHtLut k t i.val

/-- The state after reset number `k`, with `src` bound as the source of the session (R41, R290, R291). -/
def State.afterReset (k : Nat) (src nextSrc : List Byte) (inputs : List HostOp) (rdata : Word) : State where
  cmd := 0
  status := ⟨false, false, 0⟩
  result := 0
  ccnt := 0
  finfo := 0
  stream := ⟨0, 0, 0, 0⟩
  ht := Vector.ofFn fun tc => Vector.ofFn fun th => HuffTable.undefinedTable k (4 * tc.val + th.val)
  qt := Vector.ofFn fun tq => Vector.ofFn fun z => Config.freeQt k tq.val z.val
  qtdef := #v[false, false, false, false]
  coef := Vector.ofFn fun n => Config.freeCoef k n.val
  dcpred := #v[0, 0, 0, 0]
  eobrun := 0
  rstexp := 0
  xcfg := #v[.acc, .acc, .acc, .acc]
  dqb := Vector.ofFn fun n => Config.freeDqb k n.val
  dqtag := ⟨false, .plain⟩
  samp := Vector.ofFn fun i => Config.freeSamp k i.val
  pram := (List.range Config.pramSize).map fun a => (a, Config.freePram k a)
  src := src
  nextSrc := nextSrc
  inputs := inputs
  rdata := rdata
  free := k + 1

/-- The block after power-on, idle, with no source bound and nothing asked of it (R41, R290; log 1, 2). -/
def State.reset : State := State.afterReset 0 [] [] [] 0

end Sys2Proof.Machine
end

