-- ==== Sys2Proof/Machine/Flags.lean ====
section
/-! DEFINITION. STATUS, the block's only flags (`10_state.md` R23), and the fault codes that go into it (`60_exceptions.md` R260). -/

namespace Sys2Proof.Machine

/-- The 14 faults (R260). -/
inductive FaultCode where
  | unexpectedEndOfStream
  | missingStuffingByte
  | invalidTable
  | badHuffmanCode
  | uninitializedTable
  | badRestartMarker
  | missingQuantTable
  | invalidQuantTable
  | badCoefficientSize
  | coefficientOverrun
  | badRefinementSymbol
  | illegalCommand
  | illegalOperand
  | sequenceError
deriving DecidableEq, Repr

/-- The class of a fault (R260). -/
inductive FaultClass where
  | endOfStream
  | formatError
  | hostError
deriving DecidableEq, Repr

/-- FCODE of a fault (R260). -/
def FaultCode.code : FaultCode → Byte
  | .unexpectedEndOfStream => 0x01
  | .missingStuffingByte => 0x10
  | .invalidTable => 0x11
  | .badHuffmanCode => 0x12
  | .uninitializedTable => 0x13
  | .badRestartMarker => 0x14
  | .missingQuantTable => 0x15
  | .invalidQuantTable => 0x16
  | .badCoefficientSize => 0x17
  | .coefficientOverrun => 0x18
  | .badRefinementSymbol => 0x19
  | .illegalCommand => 0x40
  | .illegalOperand => 0x41
  | .sequenceError => 0x42

/-- The class column of R260. -/
def FaultCode.cls : FaultCode → FaultClass
  | .unexpectedEndOfStream => .endOfStream
  | .missingStuffingByte => .formatError
  | .invalidTable => .formatError
  | .badHuffmanCode => .formatError
  | .uninitializedTable => .formatError
  | .badRestartMarker => .formatError
  | .missingQuantTable => .formatError
  | .invalidQuantTable => .formatError
  | .badCoefficientSize => .formatError
  | .coefficientOverrun => .formatError
  | .badRefinementSymbol => .formatError
  | .illegalCommand => .hostError
  | .illegalOperand => .hostError
  | .sequenceError => .hostError

/-- STATUS as the host reads it: BUSY bit 0, FAULT bit 1, FCODE bits 15:8, the rest 0 (R23). -/
def Status.word (st : Status) : Word :=
  BitVec.ofNat 32 (st.fcode.toNat * 2 ^ 8 + (if st.fault then 2 else 0) + (if st.busy then 1 else 0))

/-- STATUS after `raise f`: FAULT set, FCODE the code (R262). -/
def Status.raised (st : Status) (f : FaultCode) : Status := { st with fault := true, fcode := f.code }

end Sys2Proof.Machine
end

