-- ==== Sys2Proof/Machine/Operands.lean ====
section
/-! DEFINITION. The operand forms of the commands: an operand is an unsigned field value that the command checks against its legal range
(`30_encoding.md` R82, R84 step 4; decision D41), then uses as a slot, a variant or a position of the zig-zag order (`00_scope.md` R10). -/

namespace Sys2Proof.Machine

/-- A slot operand: 0..3 names a table, anything else names none. -/
def slotOf (v : Nat) : Option (Fin 4) := if h : v < 4 then some ⟨v, h⟩ else none

/-- A class operand: 0 = DC, 1 = AC, anything else names none (R29). -/
def classOf (v : Nat) : Option (Fin 2) := if h : v < 2 then some ⟨v, h⟩ else none

/-- The variant numbering of XCFG (R35); 6 and 7 name none. -/
def variantOf : Nat → Option Variant
  | 0 => some .acc
  | 1 => some .fast
  | 2 => some .flt
  | 3 => some .red4
  | 4 => some .red2
  | 5 => some .red1
  | _ => none

/-- The number of a variant, as XCFG reads (R35). -/
def Variant.code : Variant → Nat
  | .acc => 0
  | .fast => 1
  | .flt => 2
  | .red4 => 3
  | .red2 => 4
  | .red1 => 5

/-- The dequantization kind of a variant (R35, R203). -/
def Variant.kind : Variant → Kind
  | .acc => .plain
  | .fast => .scaled
  | .flt => .float
  | .red4 => .plain
  | .red2 => .plain
  | .red1 => .plain

/-- The side of a variant's output block (R35). -/
def Variant.side : Variant → Nat
  | .acc => 8
  | .fast => 8
  | .flt => 8
  | .red4 => 4
  | .red2 => 2
  | .red1 => 1

/-- The number of a kind, as DQTAG.KIND reads (R36). -/
def Kind.code : Kind → Nat
  | .plain => 0
  | .scaled => 1
  | .float => 2

/-- DQTAG as the host reads it: VALID bit 2, KIND bits 1:0 (R36). -/
def DqTag.word (t : DqTag) : Word := BitVec.ofNat 32 ((if t.valid then 4 else 0) + t.kind.code)

/-- An al operand is legal (R177 to R180). -/
def alLegal (al : Nat) : Bool := al ≤ 13

/-- A band ss..se is legal: 1 ≤ ss ≤ se ≤ 63 (R179, R180; D41). The last bound always holds for a decoded command. -/
def bandLegal (ss se : Nat) : Bool := ss != 0 && ss ≤ se && se ≤ 63

/-- A table of 64 entries from its rows. -/
def table64 (rows : List α) (h : rows.length = 64) : Vector α 64 := ⟨⟨rows⟩, h⟩

/-- The zig-zag table of R10: the natural-order index of each zig-zag position. -/
def unzigTable : Vector (Fin 64) 64 :=
  table64
    ([ 0,  1,  8, 16,  9,  2,  3, 10] ++ [17, 24, 32, 25, 18, 11,  4,  5] ++
     [12, 19, 26, 33, 40, 48, 41, 34] ++ [27, 20, 13,  6,  7, 14, 21, 28] ++
     [35, 42, 49, 56, 57, 50, 43, 36] ++ [29, 22, 15, 23, 30, 37, 44, 51] ++
     [58, 59, 52, 45, 38, 31, 39, 46] ++ [53, 60, 61, 54, 47, 55, 62, 63]) rfl

/-- UNZIG[z] (R10); positions are taken modulo 64, and no command uses one above 63. -/
def unzig (z : Nat) : Fin 64 := unzigTable[(Fin.ofNat 64 z)]

/-- The zig-zag position of a natural-order index: the inverse of UNZIG, found in its table. -/
def zigPos (n : Fin 64) : Fin 64 := Fin.ofNat 64 (unzigTable.toList.idxOf n)

end Sys2Proof.Machine
end

