-- ==== Sys2Proof/Machine/Ops.lean ====
section
/-! DEFINITION. The shared operations: PRAM, taking a fault and completing a command, restarting a session, the cursor primitives of
`41_bytestream.md` (R110 to R113) and the accumulator primitives of `42_bitaccum.md` (R130 to R134). Pseudocode that may `raise` is a
function of `EStateM`: an error keeps the state the pseudocode had written, as R262 says. -/

namespace Sys2Proof.Machine

/-! ### PRAM -/

/-- PRAM[a] (R38). -/
def Memory.byte (m : Memory) (a : Nat) : Byte := (List.lookup a m).getD (Config.openPram a)

/-- Every byte `a` with `f a = some b` becomes `b`; the others keep their values. Addresses neither appear nor vanish. -/
def Memory.update (m : Memory) (f : Nat → Option Byte) : Memory := m.map fun c => (c.1, (f c.1).getD c.2)

/-- The bytes of `bs` go to `base`, `base + 1`, ... -/
def Memory.store (m : Memory) (base : Nat) (bs : List Byte) : Memory :=
  m.update fun a => if base ≤ a then bs[a - base]? else none

/-! ### Faults, completion, session start -/

/-- `raise f` (R262): FAULT, FCODE and FINFO are written, RESULT and CCNT are not, everything else stays as the command left it. -/
def State.raise (s : State) (f : FaultCode) : State := { s with status := s.status.raised f, finfo := s.cmd }

/-- The end of a command without fault: RESULT, then CCNT + 1 modulo 2^32 (R84 step 6, R22). -/
def State.complete (s : State) (r : Word) : State := { s with result := r, ccnt := s.ccnt + 1 }

/-- The start of a session, by hardware reset or SS.INIT: every item at its reset value, the source bound anew, free values fresh
(R41, R101, R290, R291; U1). The host's pending operations are not the block's and stay. -/
def State.restart (s : State) : State := State.afterReset s.free s.nextSrc s.nextSrc s.inputs s.rdata

/-- Pseudocode of a command over the whole state. -/
abbrev Cmd := EStateM FaultCode State

/-- Pseudocode over the cursor and the accumulator. -/
abbrev Bits := EStateM FaultCode Stream

/-- Stream pseudocode inside a command: it reads the session's source and touches nothing but `stream`. -/
def onStream (p : List Byte → Bits α) : Cmd α := fun s =>
  match p s.src s.stream with
  | .ok a t => .ok a { s with stream := t }
  | .error f t => .error f { s with stream := t }

/-- Run the body of a command: ignored while FAULT = 1 (R266), else it ends by `raise` or by writing RESULT and CCNT (R84 steps 5 and 6). -/
def State.runCommand (s : State) (body : Cmd Word) : State :=
  if s.status.fault then s
  else
    match body s with
    | .ok r t => t.complete r
    | .error f t => t.raise f

/-! ### U1: the byte stream cursor -/

/-- `ReadByte` (R110): one raw byte. -/
def readByte (src : List Byte) : Bits Byte := fun t =>
  match src[t.pos]? with
  | none => .error .unexpectedEndOfStream t
  | some b => .ok b { t with pos := t.pos + 1, nunrd := 0 }

/-- `ReadStuffedByte` (R111): a plain byte, or 0xFF for the pair 0xFF 0x00; a failing call consumes nothing. -/
def readStuffedByte (src : List Byte) : Bits Byte := fun t =>
  match src[t.pos]? with
  | none => .error .unexpectedEndOfStream { t with nunrd := 0 }
  | some b =>
    if b ≠ 0xFF then .ok b { t with pos := t.pos + 1, nunrd := 1 }
    else
      match src[t.pos + 1]? with
      | none => .error .unexpectedEndOfStream { t with nunrd := 0 }
      | some c =>
        if c ≠ 0x00 then .error .missingStuffingByte { t with nunrd := 0 }
        else .ok 0xFF { t with pos := t.pos + 2, nunrd := 2 }

/-- `Unread` (R112): the bytes of the most recent stuffed read go back. -/
def unread (t : Stream) : Stream := { t with pos := t.pos - t.nunrd.val, nunrd := 0 }

/-- `ReturnOvershoot` (R113): give back the last stuffed read if all its bits are still in the accumulator, and drop them there. -/
def returnOvershoot : Bits (Fin 3) := fun t =>
  if t.nunrd ≠ 0 ∧ 8 ≤ t.cnt then .ok t.nunrd { unread t with acc := t.acc >>> 8, cnt := t.cnt - 8 }
  else .ok 0 { t with nunrd := 0 }

/-! ### U2: the bit accumulator -/

/-- Put one byte below the bits held: `acc <- (acc << 8) | b`, `cnt <- cnt + 8` (R28, R130). -/
def Stream.push (t : Stream) (b : Byte) : Stream := { t with acc := (t.acc <<< 8) ||| b.setWidth 32, cnt := t.cnt + 8 }

/-- `v & (2^k - 1)`: the low `k` bits (R131). -/
def lowBits (v : Word) (k : Nat) : Word := v &&& BitVec.ofNat 32 (2 ^ k - 1)

/-- Keep only the low `k` bits: what serving the others leaves (R131). -/
def Stream.keep (t : Stream) (k : Nat) : Stream := { t with acc := lowBits t.acc k, cnt := k }

/-- The loop of R130, with a bound on its rounds. -/
def ensureLoop (src : List Byte) (n : Nat) : (rounds : Nat) → Bits Unit
  | 0 => pure ()
  | rounds + 1 => fun t =>
    if t.cnt < n then
      match readStuffedByte src t with
      | .ok b t' => ensureLoop src n rounds (t'.push b)
      | .error f t' => .error f t'
    else .ok () t

/-- `EnsureBits(n)` (R130). Each round adds 8 bits, so `n` rounds always suffice. -/
def ensureBits (src : List Byte) (n : Nat) : Bits Unit := ensureLoop src n n

/-- `ReadBits(n)` (R131): the next `n` bits, the first one most significant. -/
def readBits (src : List Byte) (n : Nat) : Bits Nat := fun t =>
  if n = 0 then .ok 0 t
  else
    match ensureBits src n t with
    | .error f t' => .error f t'
    | .ok () t' => .ok (lowBits (t'.acc >>> (t'.cnt - n)) n).toNat (t'.keep (t'.cnt - n))

/-- `ReadBit()` (R132). -/
def readBit (src : List Byte) : Bits Nat := readBits src 1

/-- EXTEND of a `t`-bit field `x`, `t ≥ 1` (R133). -/
def extend (t x : Nat) : Int := if x < 2 ^ (t - 1) then (x : Int) - 2 ^ t + 1 else x

/-- `ReceiveExtend(t)` (R133). -/
def receiveExtend (src : List Byte) (t : Nat) : Bits Int :=
  if t = 0 then pure 0 else do
    let x ← readBits src t
    pure (extend t x)

/-- `BitReset()` (R134). -/
def Stream.bitReset (t : Stream) : Stream := { t with acc := 0, cnt := 0 }

/-! ### i32 arithmetic (`00_scope.md` R8) -/

/-- `w32(x)` for a mathematical integer. -/
def w32 (x : Int) : Word := BitVec.ofInt 32 x

/-- `DESCALE(x, n) = w32(x + 2^(n-1)) >> n`, the shift arithmetic (R8). -/
def descale (x : Word) (n : Nat) : Word := (x + BitVec.ofNat 32 (2 ^ (n - 1))).sshiftRight n

end Sys2Proof.Machine
end

