-- ==== Sys2Proof/Machine/BitAccum.lean ====
section
/-! DEFINITION. The accumulator commands of `42_bitaccum.md`: BA.ENS, BA.RDBIT, BA.RDBITS, BA.RCVX, BA.RST. -/

namespace Sys2Proof.Machine

/-- The body of BA.ENS (R135). -/
def baEns (n : Nat) : Cmd Word :=
  if n < 1 ∨ n > 16 then throw .illegalOperand else do
    onStream fun src => ensureBits src n
    pure 0

/-- The body of BA.RDBIT (R136). -/
def baRdbit : Cmd Word := do
  let b ← onStream readBit
  pure (BitVec.ofNat 32 b)

/-- The body of BA.RDBITS (R137). -/
def baRdbits (n : Nat) : Cmd Word :=
  if n < 1 ∨ n > 16 then throw .illegalOperand else do
    let v ← onStream fun src => readBits src n
    pure (BitVec.ofNat 32 v)

/-- The body of BA.RCVX (R138): the i32, negative values in two's complement. -/
def baRcvx (t : Nat) : Cmd Word :=
  if t > 16 then throw .illegalOperand else do
    let v ← onStream fun src => receiveExtend src t
    pure (w32 v)

/-- The body of BA.RST (R139). -/
def baRst : Cmd Word := fun s => .ok 0 { s with stream := s.stream.bitReset }

/-- BA.ENS n (R135). -/
def execBaEns (n : Nat) (s : State) : Host.Outcome State Fault Refusal := .next (s.runCommand (baEns n))

/-- BA.RDBIT (R136). -/
def execBaRdbit (s : State) : Host.Outcome State Fault Refusal := .next (s.runCommand baRdbit)

/-- BA.RDBITS n (R137). -/
def execBaRdbits (n : Nat) (s : State) : Host.Outcome State Fault Refusal := .next (s.runCommand (baRdbits n))

/-- BA.RCVX t (R138). -/
def execBaRcvx (t : Nat) (s : State) : Host.Outcome State Fault Refusal := .next (s.runCommand (baRcvx t))

/-- BA.RST (R139). -/
def execBaRst (s : State) : Host.Outcome State Fault Refusal := .next (s.runCommand baRst)

end Sys2Proof.Machine
end

