-- ==== Sys2Proof/Machine/ByteStream.lean ====
section
/-! DEFINITION. The cursor commands of `41_bytestream.md`: BS.RDB, BS.UNRD, BS.RDX, BS.SKIP. -/

namespace Sys2Proof.Machine

/-- The body of BS.RDB (R115). -/
def bsRdb : Cmd Word := do
  let b ← onStream readByte
  pure (b.setWidth 32)

/-- The body of BS.UNRD (R116). -/
def bsUnrd : Cmd Word := do
  let m ← onStream fun _ => returnOvershoot
  pure (BitVec.ofNat 32 m.val)

/-- Move the cursor `n` raw bytes on (R117, R118). -/
def State.advance (s : State) (n : Nat) : State := { s with stream := { s.stream with pos := s.stream.pos + n, nunrd := 0 } }

/-- The body of BS.RDX (R117): all `n` bytes, or none and a fault. -/
def bsRdx (n : Nat) : Cmd Word := fun s =>
  if n > Config.pramSize then .error .illegalOperand s
  else if s.stream.pos + n > s.src.length then .error .unexpectedEndOfStream s
  else .ok 0 ({ s with pram := s.pram.store 0 ((s.src.drop s.stream.pos).take n) }.advance n)

/-- The body of BS.SKIP (R118). -/
def bsSkip (n : Nat) : Cmd Word := fun s =>
  if s.stream.pos + n > s.src.length then .error .unexpectedEndOfStream s
  else .ok 0 (s.advance n)

/-- BS.RDB (R115). -/
def execBsRdb (s : State) : Host.Outcome State Fault Refusal := .next (s.runCommand bsRdb)

/-- BS.UNRD (R116). -/
def execBsUnrd (s : State) : Host.Outcome State Fault Refusal := .next (s.runCommand bsUnrd)

/-- BS.RDX n (R117). -/
def execBsRdx (n : Nat) (s : State) : Host.Outcome State Fault Refusal := .next (s.runCommand (bsRdx n))

/-- BS.SKIP n (R118). -/
def execBsSkip (n : Nat) (s : State) : Host.Outcome State Fault Refusal := .next (s.runCommand (bsSkip n))

end Sys2Proof.Machine
end

