-- ==== Sys2Proof/Machine/Huffman.lean ====
section
/-! DEFINITION. U3, `43_huffman.md`: the table build (R150 to R155), the decode (R157) and the commands HT.BUILD and HT.DEC. -/

namespace Sys2Proof.Machine

/-! ### Table build -/

/-- The 16 length counts of a build, `counts[L] = PRAM[L - 1]` (R150). -/
def buildCounts (m : Memory) : Vector Byte 16 := Vector.ofFn fun i => m.byte i.val

/-- `counts[L]`, 0 for a length outside 1..16. -/
def countOf (counts : Vector Byte 16) (L : Nat) : Nat :=
  if L = 0 then 0 else (counts[L - 1]?.map BitVec.toNat).getD 0

/-- `counts[1] + ... + counts[L]`. -/
def countUpTo (counts : Vector Byte 16) : Nat → Nat
  | 0 => 0
  | L + 1 => countUpTo counts L + countOf counts (L + 1)

/-- The total number of codes (R150). -/
def totalCodes (counts : Vector Byte 16) : Nat := countUpTo counts 16

/-- The value of `code` when the round for length `L` of R152 begins: the first code of that length. -/
def codeAt (counts : Vector Byte 16) : (L : Nat) → Nat
  | 0 => 0
  | L + 1 => 2 * (codeAt counts L + countOf counts L)

/-- Check 3 of R151: at length `L` more codes than L-bit values are left. -/
def oversubscribedAt (counts : Vector Byte 16) (L : Nat) : Bool :=
  countOf counts L != 0 && 2 ^ L < codeAt counts L + countOf counts L

/-- Check 3 of R151 at any length. -/
def oversubscribed (counts : Vector Byte 16) : Bool := (List.range' 1 16).any (oversubscribedAt counts)

/-- An entry of minCode, maxCode or valsIndex: -1 for a length without codes (R152, D11). -/
def orAbsent (counts : Vector Byte 16) (L v : Nat) : Int := if countOf counts L = 0 then -1 else (v : Int)

/-- `v` is one of the codes of length `L`. -/
def isCode (counts : Vector Byte 16) (L v : Nat) : Bool :=
  codeAt counts L ≤ v && v < codeAt counts L + countOf counts L

/-- The fast-table entry of the 8-bit value `i` (R29, R153): (symbol << 8) | (L + 1) when `i` begins with a code of length L ≤ 8, else 0. -/
def lutEntry (counts : Vector Byte 16) (vals : Vector Byte 256) (i : Nat) : Half :=
  match (List.range' 1 8).find? fun L => isCode counts L (i >>> (8 - L)) with
  | none => 0
  | some L =>
    let symbol := (vals[countUpTo counts (L - 1) + ((i >>> (8 - L)) - codeAt counts L)]?).getD 0
    symbol ++ BitVec.ofNat 8 (L + 1)

/-- All fields of a table from its counts and symbols (R152, R153); symbols past the total are 0. -/
def buildTable (counts : Vector Byte 16) (symbol : Nat → Byte) : HuffTable :=
  let vals : Vector Byte 256 := Vector.ofFn fun i => if i.val < totalCodes counts then symbol i.val else 0
  { nCodes := totalCodes counts
    counts := counts
    vals := vals
    minCode := Vector.ofFn fun i => orAbsent counts (i.val + 1) (codeAt counts (i.val + 1))
    maxCode := Vector.ofFn fun i =>
      orAbsent counts (i.val + 1) (codeAt counts (i.val + 1) + countOf counts (i.val + 1) - 1)
    valsIndex := Vector.ofFn fun i => orAbsent counts (i.val + 1) (countUpTo counts i.val)
    lut := Vector.ofFn fun i => lutEntry counts vals i.val }

/-- Checks 2 and 3 of R151. -/
def countsLegal (counts : Vector Byte 16) : Bool :=
  totalCodes counts != 0 && totalCodes counts ≤ 256 && !oversubscribed counts

/-- The table the PRAM contents describe (R150): counts at 0..15, symbols from 16. -/
def tableOf (m : Memory) : HuffTable := buildTable (buildCounts m) fun i => m.byte (16 + i)

/-- HT[tc][th] <- T; the other seven tables keep their contents. -/
def State.setTable (s : State) (tc : Fin 2) (th : Fin 4) (T : HuffTable) : State :=
  { s with ht := s.ht.set tc (s.ht[tc].set th T) }

/-- The body of HT.BUILD (R155, checks of R151). -/
def htBuild (tc th : Nat) : Cmd Word := fun s =>
  match classOf tc, slotOf th with
  | some c, some h =>
    if countsLegal (buildCounts s.pram) then
      .ok (BitVec.ofNat 32 (totalCodes (buildCounts s.pram))) (s.setTable c h (tableOf s.pram))
    else .error .invalidTable s
  | _, _ => .error .invalidTable s

/-! ### Decode -/

/-- `vals[i]`; an index no built table produces yields an open value (log 16). -/
def HuffTable.symbolAt (T : HuffTable) (i : Int) : Byte :=
  if 0 ≤ i then (T.vals[i.toNat]?).getD (Config.openSymbol i) else Config.openSymbol i

/-- The slow path of R157 from length `L`, with the bits of the shorter lengths already in `code`. -/
def slowDecode (src : List Byte) (T : HuffTable) : (lengths : List (Fin 16)) → (code : Nat) → Bits Byte
  | [], _ => throw .badHuffmanCode
  | L :: rest, code => do
    let b ← readBit src
    let code := 2 * code + b
    if (code : Int) ≤ T.maxCode[L] then
      pure (T.symbolAt (T.valsIndex[L] + code - T.minCode[L]))
    else slowDecode src T rest code

/-- The guarded fill of the peek (R157): whether 8 bits are there. A failing stuffed read is caught, with the state it left (R263). -/
def fillPeek (src : List Byte) : Bits Bool := fun t =>
  if t.cnt < 8 then
    match ensureBits src 8 t with
    | .ok () t' => .ok true t'
    | .error _ t' => .ok false t'
  else .ok true t

/-- The next 8 bits held (R157). -/
def Stream.peek (t : Stream) : Byte := (t.acc >>> (t.cnt - 8)).setWidth 8

/-- `HuffDecode` on table `T` (R157). -/
def huffDecode (src : List Byte) (T : HuffTable) : Bits Byte := fun t =>
  if T.nCodes = 0 then .error .uninitializedTable t
  else
    match fillPeek src t with
    | .error f t' => .error f t'
    | .ok peek t' =>
      let e := T.lut[t'.peek.toFin]
      if peek ∧ e ≠ 0 then .ok (e.extractLsb' 8 8) (t'.keep (t'.cnt - ((e.extractLsb' 0 8).toNat - 1)))
      else slowDecode src T (List.finRange 16) 0 t'

/-- The body of HT.DEC (R158). -/
def htDec (tc th : Nat) : Cmd Word :=
  match classOf tc, slotOf th with
  | some c, some h => do
    let s ← get
    let v ← onStream fun src => huffDecode src s.ht[c][h]
    pure (v.setWidth 32)
  | _, _ => throw .illegalOperand

/-- HT.BUILD tc, th (R155). -/
def execHtBuild (tc th : Nat) (s : State) : Host.Outcome State Fault Refusal := .next (s.runCommand (htBuild tc th))

/-- HT.DEC tc, th (R158). -/
def execHtDec (tc th : Nat) (s : State) : Host.Outcome State Fault Refusal := .next (s.runCommand (htDec tc th))

end Sys2Proof.Machine
end

