-- ==== Sys2Proof/Machine/CoefLoad.lean ====
section
/-! DEFINITION. U4, `44_coefload.md`: the coefficient load commands CL.CLR, CL.BLK, CL.DCF, CL.DCR, CL.ACF, CL.ACR, CL.RSTM, CL.SCAN. -/

namespace Sys2Proof.Machine

/-! ### The part of the state a block walk writes -/

/-- What the walk over a block's positions can change: the stream, the coefficients and the end-of-band run. -/
structure Load where
  stream : Stream
  coef : Vector Word 64
  eobrun : Half
deriving DecidableEq, Repr

/-- Pseudocode of a block walk. -/
abbrev Walk := EStateM FaultCode Load

/-- Stream pseudocode inside a block walk. -/
def walkStream (p : Bits α) : Walk α := fun l =>
  match p l.stream with
  | .ok a t => .ok a { l with stream := t }
  | .error f t => .error f { l with stream := t }

/-- COEF[UNZIG[k]] <- v (R170). -/
def Load.put (l : Load) (k : Nat) (v : Word) : Load := { l with coef := l.coef.set (unzig k) v }

/-- COEF[UNZIG[k]] (R170). -/
def Load.at (l : Load) (k : Nat) : Word := l.coef[unzig k]

/-- The walk's part of the state. -/
def State.load (s : State) : Load := ⟨s.stream, s.coef, s.eobrun⟩

/-- The state with the walk's part replaced. -/
def State.withLoad (s : State) (l : Load) : State := { s with stream := l.stream, coef := l.coef, eobrun := l.eobrun }

/-- A block walk inside a command: it reads the session's source and writes nothing but `stream`, COEF and EOBRUN. -/
def onLoad (p : List Byte → Walk α) : Cmd α := fun s =>
  match p s.src s.load with
  | .ok a l => .ok a (s.withLoad l)
  | .error f l => .error f (s.withLoad l)

/-! ### Common pieces -/

/-- COEF[n] <- 0 for all n (R175). -/
def clearedCoef : Vector Word 64 := Vector.replicate 64 0

/-- `DecodeDCDiff` on a DC table (R171). -/
def decodeDcDiff (src : List Byte) (T : HuffTable) : Bits Int := do
  let s ← huffDecode src T
  if s.toNat > 16 then throw .badCoefficientSize else receiveExtend src s.toNat

/-- An AC symbol split into run and size (R172). -/
def splitSymbol (rs : Byte) : Nat × Nat := (rs.toNat / 16, rs.toNat % 16)

/-- `(1 << al)` as an i32: `delta` of R180. -/
def bitAt (al : Nat) : Word := BitVec.twoPow 32 al

/-- DCPRED[comp] <- DCPRED[comp] + d, wrapping (R176, R177). -/
def State.addPred (s : State) (comp : Fin 4) (d : Int) : State :=
  { s with dcpred := s.dcpred.set comp (s.dcpred[comp] + w32 d) }

/-- COEF[0] <- v. -/
def State.setDc (s : State) (v : Word) : State := { s with coef := s.coef.set 0 v }

/-! ### Block walks -/

/-- The AC loop of CL.BLK from position `k` (R176). `rounds` bounds the loop: each round moves `k` on. -/
def blkLoop (src : List Byte) (T : HuffTable) : (rounds k : Nat) → Walk Unit
  | 0, _ => pure ()
  | rounds + 1, k =>
    if k > 63 then pure () else do
      let rs ← walkStream (huffDecode src T)
      let (r, s) := splitSymbol rs
      if s ≠ 0 then
        if k + r > 63 then throw .coefficientOverrun else do
          let v ← walkStream (receiveExtend src s)
          modify fun l => l.put (k + r) (w32 v)
          blkLoop src T rounds (k + r + 1)
      else if r = 15 then
        if k + 15 > 63 then throw .coefficientOverrun else blkLoop src T rounds (k + 16)
      else pure ()

/-- EOBRUN <- 2^r, then the `r` extra bits are OR-ed in (R179, R180). -/
def readEobRun (src : List Byte) (r : Nat) : Walk Unit := do
  modify fun l => { l with eobrun := BitVec.twoPow 16 r }
  let x ← if r ≠ 0 then walkStream (readBits src r) else pure 0
  modify fun l => { l with eobrun := l.eobrun ||| BitVec.ofNat 16 x }

/-- EOBRUN <- EOBRUN - 1. -/
def Load.countEob (l : Load) : Load := { l with eobrun := l.eobrun - 1 }

/-- The loop of CL.ACF from position `k` (R179). -/
def acfLoop (src : List Byte) (T : HuffTable) (se al : Nat) : (rounds k : Nat) → Walk Unit
  | 0, _ => pure ()
  | rounds + 1, k =>
    if k > se then pure () else do
      let rs ← walkStream (huffDecode src T)
      let (r, s) := splitSymbol rs
      if s ≠ 0 then
        if k + r > se then throw .coefficientOverrun else do
          let v ← walkStream (receiveExtend src s)
          modify fun l => l.put (k + r) (w32 v <<< al)
          acfLoop src T se al rounds (k + r + 1)
      else if r ≠ 15 then do
        readEobRun src r
        modify Load.countEob
      else
        if k + 15 > se then throw .coefficientOverrun else acfLoop src T se al rounds (k + 16)

/-- One block of CL.ACF (R179): count down an end-of-band run, or walk the band. -/
def acfWalk (src : List Byte) (T : HuffTable) (ss se al : Nat) : Walk Unit := do
  let l ← get
  if l.eobrun ≠ 0 then modify Load.countEob else acfLoop src T se al 64 ss

/-- A nonzero coefficient moved away from zero by `delta` (R174): its sign is bit 31. -/
def awayFromZero (v delta : Word) : Word := if v.msb then v - delta else v + delta

/-- `RefineNonZeroes(k, se, nz, delta)` (R174); `nz = none` is its -1, "no limit". `rounds` bounds the loop. -/
def refineNonZeroes (src : List Byte) (se : Nat) (delta : Word) : (rounds k : Nat) → (nz : Option Nat) → Walk Nat
  | 0, k, _ => pure k
  | rounds + 1, k, nz =>
    if k > se then pure k else do
      let l ← get
      if l.at k = 0 then
        match nz with
        | some 0 => pure k
        | some (m + 1) => refineNonZeroes src se delta rounds (k + 1) (some m)
        | none => refineNonZeroes src se delta rounds (k + 1) none
      else do
        let b ← walkStream (readBit src)
        modify fun l => if b = 1 then l.put k (awayFromZero (l.at k) delta) else l
        refineNonZeroes src se delta rounds (k + 1) nz

/-- The loop of CL.ACR from position `k` (R180); its result is the `k` it ends with. -/
def acrLoop (src : List Byte) (T : HuffTable) (se : Nat) (delta : Word) : (rounds k : Nat) → Walk Nat
  | 0, k => pure k
  | rounds + 1, k =>
    if k > se then pure k else do
      let rs ← walkStream (huffDecode src T)
      let (r, s) := splitSymbol rs
      if s = 0 ∧ r ≠ 15 then do
        readEobRun src r
        pure k
      else if s > 1 then throw .badRefinementSymbol
      else do
        let z ← if s = 0 then pure 0 else do
          let b ← walkStream (readBit src)
          pure (if b = 1 then delta else -delta)
        let k ← refineNonZeroes src se delta 64 k (some r)
        if k > se then throw .coefficientOverrun else do
          modify fun l => if z ≠ 0 then l.put k z else l
          acrLoop src T se delta rounds (k + 1)

/-- One block of CL.ACR (R180): walk the band unless inside an end-of-band run, then refine the rest if a run is on. -/
def acrWalk (src : List Byte) (T : HuffTable) (ss se al : Nat) : Walk Unit := do
  let l ← get
  let k ← if l.eobrun = 0 then acrLoop src T se (bitAt al) 64 ss else pure ss
  let l ← get
  if l.eobrun ≠ 0 then do
    modify Load.countEob
    let _ ← refineNonZeroes src se (bitAt al) 64 k none
    pure ()
  else pure ()

/-! ### Command bodies -/

/-- The body of CL.CLR (R175). -/
def clClr : Cmd Word := fun s => .ok 0 { s with coef := clearedCoef }

/-- The body of CL.BLK (R176). -/
def clBlk (comp : Fin 4) (td ta : Nat) : Cmd Word :=
  match slotOf td, slotOf ta with
  | some d, some a => do
    let s ← get
    modify fun s => { s with coef := clearedCoef }
    let diff ← onStream fun src => decodeDcDiff src s.ht[0][d]
    modify fun s => s.addPred comp diff
    modify fun s => s.setDc s.dcpred[comp]
    onLoad fun src => blkLoop src s.ht[1][a] 64 1
    pure 0
  | _, _ => throw .illegalOperand

/-- The body of CL.DCF (R177). -/
def clDcf (comp : Fin 4) (slot al : Nat) : Cmd Word :=
  match alLegal al, slotOf slot with
  | true, some d => do
    let s ← get
    let diff ← onStream fun src => decodeDcDiff src s.ht[0][d]
    modify fun s => s.addPred comp diff
    modify fun s => s.setDc (s.dcpred[comp] <<< al)
    pure 0
  | _, _ => throw .illegalOperand

/-- The body of CL.DCR (R178). -/
def clDcr (al : Nat) : Cmd Word :=
  if alLegal al then do
    let b ← onStream readBit
    modify fun s => if b = 1 then s.setDc (s.coef[0] ||| bitAt al) else s
    pure 0
  else throw .illegalOperand

/-- The body of CL.ACF (R179). -/
def clAcf (slot ss se al : Nat) : Cmd Word :=
  match alLegal al && bandLegal ss se, slotOf slot with
  | true, some a => do
    let s ← get
    onLoad fun src => acfWalk src s.ht[1][a] ss se al
    pure 0
  | _, _ => throw .illegalOperand

/-- The body of CL.ACR (R180). -/
def clAcr (slot ss se al : Nat) : Cmd Word :=
  match alLegal al && bandLegal ss se, slotOf slot with
  | true, some a => do
    let s ← get
    onLoad fun src => acrWalk src s.ht[1][a] ss se al
    pure 0
  | _, _ => throw .illegalOperand

/-- The byte value of marker RSTn, 0xD0 + n (R181). -/
def rstMarker (n : Fin 8) : Byte := 0xD0 + BitVec.ofNat 8 n.val

/-- The resets of a restart marker (R181): accumulator, predictors, end-of-band run; the expected index moves on. -/
def State.restartReset (s : State) : State :=
  { s with rstexp := s.rstexp + 1, stream := s.stream.bitReset, dcpred := #v[0, 0, 0, 0], eobrun := 0 }

/-- The body of CL.RSTM (R181). -/
def clRstm : Cmd Word := do
  let _ ← onStream fun _ => returnOvershoot
  let b0 ← onStream readByte
  let b1 ← onStream readByte
  let s ← get
  if b0 ≠ 0xFF ∨ b1 ≠ rstMarker s.rstexp then throw .badRestartMarker else do
    modify State.restartReset
    pure 0

/-- The body of CL.SCAN (R182). -/
def clScan : Cmd Word := fun s =>
  .ok 0 { s with
    stream := { s.stream.bitReset with nunrd := 0 }
    dcpred := #v[0, 0, 0, 0]
    eobrun := 0
    rstexp := 0 }

/-! ### The commands -/

/-- CL.CLR (R175). -/
def execClClr (s : State) : Host.Outcome State Fault Refusal := .next (s.runCommand clClr)

/-- CL.BLK comp, td, ta (R176). -/
def execClBlk (comp : Fin 4) (td ta : Nat) (s : State) : Host.Outcome State Fault Refusal :=
  .next (s.runCommand (clBlk comp td ta))

/-- CL.DCF comp, slot, al (R177). -/
def execClDcf (comp : Fin 4) (slot al : Nat) (s : State) : Host.Outcome State Fault Refusal :=
  .next (s.runCommand (clDcf comp slot al))

/-- CL.DCR al (R178). -/
def execClDcr (al : Nat) (s : State) : Host.Outcome State Fault Refusal := .next (s.runCommand (clDcr al))

/-- CL.ACF slot, ss, se, al (R179). -/
def execClAcf (slot ss se al : Nat) (s : State) : Host.Outcome State Fault Refusal :=
  .next (s.runCommand (clAcf slot ss se al))

/-- CL.ACR slot, ss, se, al (R180). -/
def execClAcr (slot ss se al : Nat) (s : State) : Host.Outcome State Fault Refusal :=
  .next (s.runCommand (clAcr slot ss se al))

/-- CL.RSTM (R181). -/
def execClRstm (s : State) : Host.Outcome State Fault Refusal := .next (s.runCommand clRstm)

/-- CL.SCAN (R182). -/
def execClScan (s : State) : Host.Outcome State Fault Refusal := .next (s.runCommand clScan)

end Sys2Proof.Machine
end

