-- ==== Sys2Proof/Machine/Float32.lean ====
section
/-! DEFINITION. IEEE 754 binary32 on bit patterns, as far as `00_scope.md` R11 uses it: `(+)`, `(-)`, `(*)`, `i2f`, `trunc`, each the exact
result rounded once to nearest even, subnormals kept. A finite pattern is the exact number `± mant * 2^scale * 2^-149`; exact results are
held as naturals in units of 2^-298, which every sum and product of two finite patterns is a multiple of (log 14). -/

namespace Sys2Proof.Machine.F32

/-- The exponent field of a pattern. -/
def expField (a : Word) : Nat := a.toNat / 2 ^ 23 % 2 ^ 8

/-- The fraction field of a pattern. -/
def fracField (a : Word) : Nat := a.toNat % 2 ^ 23

/-- The pattern is neither an infinity nor a NaN. -/
def finite (a : Word) : Bool := expField a != 255

/-- The significand of a finite pattern, in units of its last place. -/
def mant (a : Word) : Nat := if expField a = 0 then fracField a else fracField a + 2 ^ 23

/-- The power of two of the last place, above 2^-149. -/
def scale (a : Word) : Nat := expField a - 1

/-- The exact value of a finite pattern in units of 2^-149, with its sign. -/
def units (a : Word) : Int :=
  let m : Int := (mant a <<< scale a : Nat)
  if a.msb then -m else m

/-- Round the magnitude `n * 2^-298` to nearest, ties to even, as a pattern without sign; `none` beyond the binary32 range.
The last place kept is the greater of 2^-149 and the one that leaves 24 significant bits. -/
def roundMagnitude (n : Nat) : Option Nat :=
  let drop := max 149 (Nat.log2 n - 23)
  let q := n >>> drop
  let rest := n - q <<< drop
  let half := 1 <<< (drop - 1)
  let up := half < rest || (rest == half && q % 2 == 1)
  let pattern := (drop - 149) * 2 ^ 23 + (if up then q + 1 else q)
  if pattern < 0x7F800000 then some pattern else none

/-- `RN32` of `± n * 2^-298` as a pattern. -/
def round (negative : Bool) (n : Nat) : Option Word :=
  (roundMagnitude n).map fun p => BitVec.ofNat 32 (p + if negative then 2 ^ 31 else 0)

/-- `-a`: the sign bit flipped. -/
def neg (a : Word) : Word := a ^^^ 0x80000000

/-- `a (+) b` (R11). An exact zero sum is +0 unless both operands are negative (log 14). -/
def add (a b : Word) : Word :=
  if finite a && finite b then
    let sum := units a + units b
    let negative := if sum = 0 then a.msb && b.msb else decide (sum < 0)
    (round negative (sum.natAbs <<< 149)).getD (Config.f32OpenAdd a b)
  else Config.f32OpenAdd a b

/-- `a (-) b` (R11). -/
def sub (a b : Word) : Word := add a (neg b)

/-- `a (*) b` (R11). The sign is the exclusive or of the signs, also of a zero product (log 14). -/
def mul (a b : Word) : Word :=
  if finite a && finite b then
    (round (a.msb != b.msb) ((mant a * mant b) <<< (scale a + scale b))).getD (Config.f32OpenMul a b)
  else Config.f32OpenMul a b

/-- The pattern of an integer below 2^127, rounded: always in range for the integers of an i32 or a u16. -/
def ofInt (x : Int) : Word := (round (decide (x < 0)) (x.natAbs <<< 298)).getD 0

/-- `i2f(x)` of an i32 (R11). -/
def i2f (x : Word) : Word := ofInt x.toInt

/-- `trunc(a)`: the integer nearest to `a` toward zero (R11). -/
def trunc (a : Word) : Int :=
  if finite a then
    let m : Int := ((mant a <<< scale a) >>> 149 : Nat)
    if a.msb then -m else m
  else Config.f32OpenTrunc a

end Sys2Proof.Machine.F32
end

