-- ==== Sys2Proof/Machine/Dequant.lean ====
section
/-! DEFINITION. U5, `45_dequant.md`: QT.LOAD, XF.CFG and XF.DQ with the scale tables of R204. -/

namespace Sys2Proof.Machine

/-- AAN14 in natural order (R204). -/
def aan14 : Vector Nat 64 :=
  table64
    ([16384, 22725, 21407, 19266, 16384, 12873,  8867,  4520] ++
     [22725, 31521, 29692, 26722, 22725, 17855, 12299,  6270] ++
     [21407, 29692, 27969, 25172, 21407, 16819, 11585,  5906] ++
     [19266, 26722, 25172, 22654, 19266, 15137, 10426,  5315] ++
     [16384, 22725, 21407, 19266, 16384, 12873,  8867,  4520] ++
     [12873, 17855, 16819, 15137, 12873, 10114,  6967,  3552] ++
     [ 8867, 12299, 11585, 10426,  8867,  6967,  4799,  2446] ++
     [ 4520,  6270,  5906,  5315,  4520,  3552,  2446,  1247]) rfl

/-- AANF32 in natural order, binary32 patterns (R204). -/
def aanF32 : Vector Word 64 :=
  table64
    ([0x3F800000, 0x3FB18A86, 0x3FA73D75, 0x3F968317, 0x3F800000, 0x3F49234E, 0x3F0A8BD4, 0x3E8D42AF] ++
     [0x3FB18A86, 0x3FF641AF, 0x3FE7F7F8, 0x3FD0C429, 0x3FB18A86, 0x3F8B7E3F, 0x3F402B4A, 0x3EC3EF15] ++
     [0x3FA73D75, 0x3FE7F7F8, 0x3FDA827A, 0x3FC4A74C, 0x3FA73D75, 0x3F836651, 0x3F3504F3, 0x3EB890D3] ++
     [0x3F968317, 0x3FD0C429, 0x3FC4A74C, 0x3FB0FBC5, 0x3F968317, 0x3F6C835E, 0x3F22E9C1, 0x3EA61AD1] ++
     [0x3F800000, 0x3FB18A86, 0x3FA73D75, 0x3F968317, 0x3F800000, 0x3F49234E, 0x3F0A8BD4, 0x3E8D42AF] ++
     [0x3F49234E, 0x3F8B7E3F, 0x3F836651, 0x3F6C835E, 0x3F49234E, 0x3F1E0875, 0x3ED9B5C9, 0x3E5DF9AD] ++
     [0x3F0A8BD4, 0x3F402B4A, 0x3F3504F3, 0x3F22E9C1, 0x3F0A8BD4, 0x3ED9B5C9, 0x3E95F61A, 0x3E18E635] ++
     [0x3E8D42AF, 0x3EC3EF15, 0x3EB890D3, 0x3EA61AD1, 0x3E8D42AF, 0x3E5DF9AD, 0x3E18E635, 0x3D9BE50C]) rfl

/-! ### Table load -/

/-- QT[tq][z] from PRAM: 8-bit entries, or 16-bit entries high byte first (R200, R63 c). -/
def loadedEntry (m : Memory) (wide : Bool) (z : Nat) : Half :=
  if wide then m.byte (2 * z) ++ m.byte (2 * z + 1) else (m.byte z).setWidth 16

/-- The table PRAM holds (R200). -/
def loadedTable (m : Memory) (wide : Bool) : QuantTable := Vector.ofFn fun z => loadedEntry m wide z.val

/-- The body of QT.LOAD (R200). -/
def qtLoad (pq tq : Nat) : Cmd Word := fun s =>
  match decide (pq ≤ 1), slotOf tq with
  | true, some t =>
    .ok 0 { s with qt := s.qt.set t (loadedTable s.pram (pq == 1)), qtdef := s.qtdef.set t true }
  | _, _ => .error .invalidQuantTable s

/-! ### Variant selection -/

/-- The body of XF.CFG (R201). -/
def xfCfg (comp : Fin 4) (variant : Nat) : Cmd Word := fun s =>
  match variantOf variant with
  | some v => .ok 0 { s with xcfg := s.xcfg.set comp v }
  | none => .error .illegalOperand s

/-! ### Dequantization -/

/-- `QN(tq)[n]`, the entry for natural index `n`: `QN(tq)[UNZIG[z]] = QT[tq][z]` (R202). -/
def naturalEntry (q : QuantTable) (n : Fin 64) : Half := q[zigPos n]

/-- `MF(q, n) = (q * AAN14[n] + 2048) >> 12`, exact (R203). -/
def scaledMultiplier (q : Half) (n : Fin 64) : Nat := (q.toNat * aan14[n] + 2048) / 2 ^ 12

/-- `MFF(q, n) = i2f(q) (*) AANF32[n]` (R203). -/
def floatMultiplier (q : Half) (n : Fin 64) : Word := F32.mul (F32.ofInt q.toNat) aanF32[n]

/-- The dequantized value of coefficient `c` with entry `q` at natural index `n` (R203). -/
def dequantized (kind : Kind) (c : Word) (q : Half) (n : Fin 64) : Word :=
  match kind with
  | .plain => c * q.setWidth 32
  | .scaled => c * BitVec.ofNat 32 (scaledMultiplier q n)
  | .float => F32.mul (F32.i2f c) (floatMultiplier q n)

/-- The dequantized block (R205). -/
def dequantBlock (kind : Kind) (coef : Vector Word 64) (q : QuantTable) : Vector Word 64 :=
  Vector.ofFn fun n => dequantized kind coef[n] (naturalEntry q n) n

/-- The steps of XF.DQ (R205). -/
def xfDq (comp : Fin 4) (tq : Nat) : Cmd Word := fun s =>
  match slotOf tq with
  | none => .error .illegalOperand s
  | some t =>
    if s.qtdef[t] then
      let kind := s.xcfg[comp].kind
      .ok 0 { s with dqb := dequantBlock kind s.coef s.qt[t], dqtag := ⟨true, kind⟩ }
    else .error .missingQuantTable s

/-! ### The commands -/

/-- QT.LOAD pq, tq (R200). -/
def execQtLoad (pq tq : Nat) (s : State) : Host.Outcome State Fault Refusal := .next (s.runCommand (qtLoad pq tq))

/-- XF.CFG comp, variant (R201). -/
def execXfCfg (comp : Fin 4) (variant : Nat) (s : State) : Host.Outcome State Fault Refusal :=
  .next (s.runCommand (xfCfg comp variant))

/-- XF.DQ comp, tq (R205). -/
def execXfDq (comp : Fin 4) (tq : Nat) (s : State) : Host.Outcome State Fault Refusal :=
  .next (s.runCommand (xfDq comp tq))

end Sys2Proof.Machine
end

