-- ==== Sys2Proof/Machine/Idct.lean ====
section
/-! DEFINITION. U6, `46_idct.md`: the inverse transforms and the commands XF.IDCT and XF.RUN. Integer `+`, `-`, `*`, `<<` wrap to i32. -/

namespace Sys2Proof.Machine

/-- Eight words: one column or row of a block. -/
abbrev Line := Vector Word 8

/-- `RL(x) = clamp(x + 128, 0, 255)` (R222); `x + 128` does not wrap. -/
def rangeLimit (x : Word) : Byte := BitVec.ofInt 8 (max 0 (min 255 (x.toInt + 128)))

/-! ### The 1-D kernels -/

/-- `ACC_1D` (R228). -/
def acc1D (i : Line) : Vector Word 8 :=
  let e1 := (i[2] + i[6]) * 4433
  let tmp2 := e1 - i[6] * 15137
  let tmp3 := e1 + i[2] * 6270
  let tmp0 := (i[0] + i[4]) <<< 13
  let tmp1 := (i[0] - i[4]) <<< 13
  let tmp10 := tmp0 + tmp3
  let tmp13 := tmp0 - tmp3
  let tmp11 := tmp1 + tmp2
  let tmp12 := tmp1 - tmp2
  let z5 := ((i[7] + i[3]) + (i[5] + i[1])) * 9633
  let z1 := (i[7] + i[1]) * (-7373)
  let z2 := (i[5] + i[3]) * (-20995)
  let z3 := (i[7] + i[3]) * (-16069) + z5
  let z4 := (i[5] + i[1]) * (-3196) + z5
  let t0 := i[7] * 2446 + z1 + z3
  let t1 := i[5] * 16819 + z2 + z4
  let t2 := i[3] * 25172 + z2 + z3
  let t3 := i[1] * 12299 + z1 + z4
  #v[tmp10 + t3, tmp11 + t2, tmp12 + t1, tmp13 + t0, tmp13 - t0, tmp12 - t1, tmp11 - t2, tmp10 - t3]

/-- `FMUL(a, k) = (a * k) >> 8`, no rounding (R229). -/
def fmul (a k : Word) : Word := (a * k).sshiftRight 8

/-- `FAST_1D` (R230). -/
def fast1D (i : Line) : Vector Word 8 :=
  let tmp10 := i[0] + i[4]
  let tmp11 := i[0] - i[4]
  let tmp13 := i[2] + i[6]
  let tmp12 := fmul (i[2] - i[6]) 362 - tmp13
  let tmp0 := tmp10 + tmp13
  let tmp3 := tmp10 - tmp13
  let tmp1 := tmp11 + tmp12
  let tmp2 := tmp11 - tmp12
  let z13 := i[5] + i[3]
  let z10 := i[5] - i[3]
  let z11 := i[1] + i[7]
  let z12 := i[1] - i[7]
  let tmp7 := z11 + z13
  let odd11 := fmul (z11 - z13) 362
  let z5 := fmul (z10 + z12) 473
  let odd10 := fmul z12 277 - z5
  let odd12 := fmul z10 (-669) + z5
  let tmp6 := odd12 - tmp7
  let tmp5 := odd11 - tmp6
  let tmp4 := odd10 + tmp5
  #v[tmp0 + tmp7, tmp1 + tmp6, tmp2 + tmp5, tmp3 - tmp4, tmp3 + tmp4, tmp2 - tmp5, tmp1 - tmp6, tmp0 - tmp7]

/-- `FLT_1D` (R231): the lines of `fast1D` in binary32, every operation rounded. -/
def flt1D (i : Line) : Vector Word 8 :=
  let tmp10 := F32.add i[0] i[4]
  let tmp11 := F32.sub i[0] i[4]
  let tmp13 := F32.add i[2] i[6]
  let tmp12 := F32.sub (F32.mul (F32.sub i[2] i[6]) 0x3FB504F3) tmp13
  let tmp0 := F32.add tmp10 tmp13
  let tmp3 := F32.sub tmp10 tmp13
  let tmp1 := F32.add tmp11 tmp12
  let tmp2 := F32.sub tmp11 tmp12
  let z13 := F32.add i[5] i[3]
  let z10 := F32.sub i[5] i[3]
  let z11 := F32.add i[1] i[7]
  let z12 := F32.sub i[1] i[7]
  let tmp7 := F32.add z11 z13
  let odd11 := F32.mul (F32.sub z11 z13) 0x3FB504F3
  let z5 := F32.mul (F32.add z10 z12) 0x3FEC835E
  let odd10 := F32.sub (F32.mul 0x3F8A8BD4 z12) z5
  let odd12 := F32.add (F32.mul 0xC0273D75 z10) z5
  let tmp6 := F32.sub odd12 tmp7
  let tmp5 := F32.sub odd11 tmp6
  let tmp4 := F32.add odd10 tmp5
  #v[F32.add tmp0 tmp7, F32.add tmp1 tmp6, F32.add tmp2 tmp5, F32.sub tmp3 tmp4,
    F32.add tmp3 tmp4, F32.sub tmp2 tmp5, F32.sub tmp1 tmp6, F32.sub tmp0 tmp7]

/-- `RED4_1D` (R234); the input at index 4 is not used. -/
def red4OneD (i : Line) : Vector Word 4 :=
  let tmp0 := i[0] <<< 14
  let tmp2 := i[2] * 15137 - i[6] * 6270
  let tmp10 := tmp0 + tmp2
  let tmp12 := tmp0 - tmp2
  let t0 := -i[7] * 1730 + i[5] * 11893 - i[3] * 17799 + i[1] * 8697
  let t2 := -i[7] * 4176 - i[5] * 4926 + i[3] * 7373 + i[1] * 20995
  #v[tmp10 + t2, tmp12 + t0, tmp12 - t0, tmp10 - t2]

/-- `RED2_1D` (R235); the inputs at indices 2, 4, 6 are not used. -/
def red2OneD (i : Line) : Vector Word 2 :=
  let tmp10 := i[0] <<< 15
  let t0 := -i[7] * 5906 + i[5] * 6967 - i[3] * 10426 + i[1] * 29692
  #v[tmp10 + t0, tmp10 - t0]

/-! ### The two passes -/

/-- Column `c` of a natural-order block (R220). -/
def column (b : Vector Word 64) (c : Fin 8) : Line := Vector.ofFn fun r => b[8 * r.val + c.val]

/-- The parameters of an integer variant with an N × N output (the table of R224). -/
structure IntVariant (N : Nat) where
  /-- U: the indices of a line that are used -/
  used : List (Fin 8)
  /-- Z: the indices tested for the early exit -/
  tested : List (Fin 8)
  /-- K: the 1-D kernel -/
  kernel : Line → Vector Word N
  /-- P1: what pass 1 makes of a kernel output -/
  p1 : Word → Word
  /-- DC1: the short form of pass 1 -/
  dc1 : Word → Word
  /-- P2: what pass 2 makes of a kernel output -/
  p2 : Word → Word
  /-- DC2: the short form of pass 2 -/
  dc2 : Word → Word

/-- Every tested entry of a line is zero: the early exit is taken (R223, R224). -/
def earlyExit (tested : List (Fin 8)) (v : Line) : Bool := tested.all fun i => v[i] == 0

/-- Pass 1 on one column (R224). -/
def IntVariant.pass1 (v : IntVariant N) (col : Line) : Vector Word N :=
  if earlyExit v.tested col then Vector.ofFn fun _ => v.dc1 col[0] else (v.kernel col).map v.p1

/-- Pass 2 on one row (R224). -/
def IntVariant.pass2 (v : IntVariant N) (row : Line) : Vector Byte N :=
  if earlyExit v.tested row then Vector.ofFn fun _ => rangeLimit (v.dc2 row[0])
  else (v.kernel row).map fun o => rangeLimit (v.p2 o)

/-- WS[r][c] for c in U; the other columns are never read (R224). -/
def IntVariant.workspace (v : IntVariant N) (dqb : Vector Word 64) : Vector (Vector Word N) 8 :=
  Vector.ofFn fun c => if c ∈ v.used then v.pass1 (column dqb c) else Vector.ofFn fun _ => 0

/-- Row `r` of a workspace held by columns. -/
def workspaceRow (ws : Vector (Vector Word N) 8) (r : Fin N) : Line := Vector.ofFn fun c => ws[c][r]

/-- `IDCT_INT` (R224): the N × N samples, by rows. -/
def IntVariant.samples (v : IntVariant N) (dqb : Vector Word 64) : Vector (Vector Byte N) N :=
  let ws := v.workspace dqb
  Vector.ofFn fun r => v.pass2 (workspaceRow ws r)

/-- ACC (R224). -/
def accVariant : IntVariant 8 where
  used := [0, 1, 2, 3, 4, 5, 6, 7]
  tested := [1, 2, 3, 4, 5, 6, 7]
  kernel := acc1D
  p1 x := descale x 11
  dc1 x := x <<< 2
  p2 x := descale x 18
  dc2 x := descale x 5

/-- FAST (R224). -/
def fastVariant : IntVariant 8 where
  used := [0, 1, 2, 3, 4, 5, 6, 7]
  tested := [1, 2, 3, 4, 5, 6, 7]
  kernel := fast1D
  p1 x := x
  dc1 x := x
  p2 x := x.sshiftRight 5
  dc2 x := x.sshiftRight 5

/-- RED4 (R224). -/
def red4Variant : IntVariant 4 where
  used := [0, 1, 2, 3, 5, 6, 7]
  tested := [1, 2, 3, 5, 6, 7]
  kernel := red4OneD
  p1 x := descale x 12
  dc1 x := x <<< 2
  p2 x := descale x 19
  dc2 x := descale x 5

/-- RED2 (R224). -/
def red2Variant : IntVariant 2 where
  used := [0, 1, 3, 5, 7]
  tested := [1, 3, 5, 7]
  kernel := red2OneD
  p1 x := descale x 13
  dc1 x := x <<< 2
  p2 x := descale x 20
  dc2 x := descale x 5

/-- The final conversion of FLT (R232). -/
def fltSample (o : Word) : Byte := rangeLimit (descale (w32 (F32.trunc o)) 3)

/-- `IDCT_FLT` (R232), without the early exit, which R223 says cannot be observed (log 15). -/
def fltSamples (dqb : Vector Word 64) : Vector (Vector Byte 8) 8 :=
  let ws : Vector (Vector Word 8) 8 := Vector.ofFn fun c => flt1D (column dqb c)
  Vector.ofFn fun r => (flt1D (workspaceRow ws r)).map fltSample

/-- RED1 (R236). -/
def red1Samples (dqb : Vector Word 64) : Vector (Vector Byte 1) 1 := #v[#v[rangeLimit (descale dqb[0] 3)]]

/-- SAMP[r*N + c] <- the sample at row r, column c; the entries from N*N keep their values (R37, R220). -/
def placeSamples (samp : Vector Byte 64) (block : Vector (Vector Byte N) N) : Vector Byte 64 :=
  Vector.ofFn fun i => ((block[i.val / N]?).bind fun row => row[i.val % N]?).getD samp[i]

/-- SAMP after running variant `v` on a dequantized block (R225). -/
def transformed (v : Variant) (dqb : Vector Word 64) (samp : Vector Byte 64) : Vector Byte 64 :=
  match v with
  | .acc => placeSamples samp (accVariant.samples dqb)
  | .fast => placeSamples samp (fastVariant.samples dqb)
  | .flt => placeSamples samp (fltSamples dqb)
  | .red4 => placeSamples samp (red4Variant.samples dqb)
  | .red2 => placeSamples samp (red2Variant.samples dqb)
  | .red1 => placeSamples samp (red1Samples dqb)

/-! ### The commands -/

/-- The steps of XF.IDCT (R225). -/
def xfIdct (comp : Fin 4) : Cmd Word := fun s =>
  let v := s.xcfg[comp]
  if s.dqtag.valid = true ∧ s.dqtag.kind = v.kind then .ok 0 { s with samp := transformed v s.dqb s.samp }
  else .error .sequenceError s

/-- The body of XF.RUN (R226): the steps of XF.DQ, then those of XF.IDCT. -/
def xfRun (comp : Fin 4) (tq : Nat) : Cmd Word := do
  let _ ← xfDq comp tq
  xfIdct comp

/-- XF.IDCT comp (R225). -/
def execXfIdct (comp : Fin 4) (s : State) : Host.Outcome State Fault Refusal := .next (s.runCommand (xfIdct comp))

/-- XF.RUN comp, tq (R226). -/
def execXfRun (comp : Fin 4) (tq : Nat) (s : State) : Host.Outcome State Fault Refusal :=
  .next (s.runCommand (xfRun comp tq))

end Sys2Proof.Machine
end

