-- ==== Sys2Proof/Machine/Session.lean ====
section
/-! DEFINITION. The session commands of `40_session.md`: NOP and SS.INIT. -/

namespace Sys2Proof.Machine

/-- NOP (R100): RESULT 0, CCNT + 1. -/
def execNop (s : State) : Host.Outcome State Fault Refusal := .next (s.runCommand (pure 0))

/-- SS.INIT (R101): the session restarts. It is executed whether FAULT is 0 or 1 (R266), and it does not count itself: CCNT is 0. -/
def execSsInit (s : State) : Host.Outcome State Fault Refusal := .next s.restart

end Sys2Proof.Machine
end

