-- ==== Sys2Proof/Machine/Dispatch.lean ====
section
/-! DEFINITION. The dispatch of a decoded command to its meaning (`30_encoding.md` R83). -/

namespace Sys2Proof.Machine

def exec (i : Instr) (s : State) : Host.Outcome State Fault Refusal :=
  match i with
  | .nop => Sys2Proof.Machine.execNop s
  | .ssInit => Sys2Proof.Machine.execSsInit s
  | .bsRdb => Sys2Proof.Machine.execBsRdb s
  | .bsUnrd => Sys2Proof.Machine.execBsUnrd s
  | .bsRdx n => Sys2Proof.Machine.execBsRdx n s
  | .bsSkip n => Sys2Proof.Machine.execBsSkip n s
  | .baEns n => Sys2Proof.Machine.execBaEns n s
  | .baRdbit => Sys2Proof.Machine.execBaRdbit s
  | .baRdbits n => Sys2Proof.Machine.execBaRdbits n s
  | .baRcvx t => Sys2Proof.Machine.execBaRcvx t s
  | .baRst => Sys2Proof.Machine.execBaRst s
  | .htBuild tc th => Sys2Proof.Machine.execHtBuild tc th s
  | .htDec tc th => Sys2Proof.Machine.execHtDec tc th s
  | .clClr => Sys2Proof.Machine.execClClr s
  | .clBlk comp td ta => Sys2Proof.Machine.execClBlk comp td ta s
  | .clDcf comp slot al => Sys2Proof.Machine.execClDcf comp slot al s
  | .clDcr al => Sys2Proof.Machine.execClDcr al s
  | .clAcf slot ss se al => Sys2Proof.Machine.execClAcf slot ss se al s
  | .clAcr slot ss se al => Sys2Proof.Machine.execClAcr slot ss se al s
  | .clRstm => Sys2Proof.Machine.execClRstm s
  | .clScan => Sys2Proof.Machine.execClScan s
  | .qtLoad pq tq => Sys2Proof.Machine.execQtLoad pq tq s
  | .xfCfg comp variant => Sys2Proof.Machine.execXfCfg comp variant s
  | .xfDq comp tq => Sys2Proof.Machine.execXfDq comp tq s
  | .xfIdct comp => Sys2Proof.Machine.execXfIdct comp s
  | .xfRun comp tq => Sys2Proof.Machine.execXfRun comp tq s

end Sys2Proof.Machine
end

