-- ==== Sys2Proof/Machine/Window.lean ====
section
/-! DEFINITION. The host's side: the register window of `10_state.md` R40 with the access rules of `20_memory.md` R65, R67, R69, the issue of
a command by a write to CMD (`30_encoding.md` R84), the binding of a source and hardware reset. -/

namespace Sys2Proof.Machine

/-- The registers of the window (R40). A `samp` or `pram` register holds four consecutive bytes. -/
inductive Reg where
  | cmd
  | status
  | result
  | ccnt
  | finfo
  | srcPos
  | nunrd
  | baAcc
  | baCnt
  | eobrun
  | rstexp
  | dqtag
  | dcpred (c : Fin 4)
  | xcfg (c : Fin 4)
  | coef (n : Fin 64)
  | dqb (n : Fin 64)
  | samp (k : Fin 16)
  | pram (k : Fin 128)
deriving DecidableEq, Repr

/-- The `i`-th of `n` consecutive registers that start at `base`, if `off` is one of their offsets. -/
def indexedReg (base n : Nat) (off : Nat) : Option (Fin n) :=
  if h : base ≤ off ∧ (off - base) / 4 < n then some ⟨(off - base) / 4, h.2⟩ else none

/-- The one-word registers below 0x030 (R40). -/
def namedReg : Nat → Option Reg
  | 0x000 => some .cmd
  | 0x004 => some .status
  | 0x008 => some .result
  | 0x00C => some .ccnt
  | 0x010 => some .finfo
  | 0x014 => some .srcPos
  | 0x018 => some .nunrd
  | 0x01C => some .baAcc
  | 0x020 => some .baCnt
  | 0x024 => some .eobrun
  | 0x028 => some .rstexp
  | 0x02C => some .dqtag
  | _ => none

/-- The register at an aligned offset; the offsets R40 does not list are unmapped. -/
def regAt (off : Nat) : Option Reg :=
  namedReg off <|> (indexedReg 0x030 4 off).map .dcpred <|> (indexedReg 0x040 4 off).map .xcfg
    <|> (indexedReg 0x100 64 off).map .coef <|> (indexedReg 0x200 64 off).map .dqb
    <|> (indexedReg 0x300 16 off).map .samp <|> (indexedReg 0x400 128 off).map .pram

/-- The register an access of `size` bytes at `off` reaches: 32 bits wide, aligned, listed (R65). -/
def accessed (off size : Nat) : Option Reg := if size = 4 ∧ off % 4 = 0 then regAt off else none

/-- Four bytes as a word, the lowest index in bits 7:0 (R40, R63 d). -/
def packBytes (b0 b1 b2 b3 : Byte) : Word := b3 ++ b2 ++ b1 ++ b0

/-- Byte `i` of a word, bits 8i+7..8i (R63 f). -/
def wordByte (w : Word) (i : Nat) : Byte := w.extractLsb' (8 * i) 8

/-- The value of a register while FAULT = 0, narrower fields zero-extended (R40). -/
def State.regValue (s : State) : Reg → Word
  | .cmd => 0
  | .status => s.status.word
  | .result => s.result
  | .ccnt => s.ccnt
  | .finfo => s.finfo
  | .srcPos => BitVec.ofNat 32 s.stream.pos
  | .nunrd => BitVec.ofNat 32 s.stream.nunrd.val
  | .baAcc => s.stream.acc
  | .baCnt => BitVec.ofNat 32 s.stream.cnt
  | .eobrun => s.eobrun.setWidth 32
  | .rstexp => BitVec.ofNat 32 s.rstexp.val
  | .dqtag => s.dqtag.word
  | .dcpred c => s.dcpred[c]
  | .xcfg c => BitVec.ofNat 32 s.xcfg[c].code
  | .coef n => s.coef[n]
  | .dqb n => s.dqb[n]
  | .samp k => packBytes (s.samp[4 * k.val]) (s.samp[4 * k.val + 1]) (s.samp[4 * k.val + 2]) (s.samp[4 * k.val + 3])
  | .pram k => packBytes (s.pram.byte (4 * k.val)) (s.pram.byte (4 * k.val + 1)) (s.pram.byte (4 * k.val + 2))
      (s.pram.byte (4 * k.val + 3))

/-- The registers whose value is defined while FAULT = 1 (R69). -/
def Reg.definedInFault : Reg → Bool
  | .status => true
  | .ccnt => true
  | .finfo => true
  | _ => false

/-- A host load (R40, R65, R67, R69). While FAULT = 1 every register but STATUS, FINFO and CCNT gives a fresh free value (U4). -/
def hostRead (off size : Nat) (s : State) : Host.Outcome State Fault Refusal :=
  match accessed off size with
  | none => .refused .windowAccess
  | some r =>
    if s.status.fault && !r.definedInFault then
      .next { s with rdata := Config.freeRead s.free off, free := s.free + 1 }
    else .next { s with rdata := s.regValue r }

/-- The word of SS.INIT, the one command that runs while FAULT = 1 (R84 step 1, R266). -/
def ssInitWord : Word := 0x01000000

/-- A write of `w` to CMD (R84): ignored entirely while FAULT = 1 unless it is SS.INIT; else decoded and executed, or IllegalCommand. -/
def issue (w : Word) (s : State) : Host.Outcome State Fault Refusal :=
  if s.status.busy then .refused .cmdWhileBusy
  else if s.status.fault && w != ssInitWord then .next s
  else
    match decode w with
    | .ok i => exec i { s with cmd := w }
    | .error _ => .next ({ s with cmd := w }.raise .illegalCommand)

/-- A host store (R40, R65, R67, R69): CMD issues a command, COEF and PRAM store unless FAULT = 1, read-only registers ignore it. -/
def hostWrite (off size : Nat) (data : Word) (s : State) : Host.Outcome State Fault Refusal :=
  match accessed off size with
  | none => .refused .windowAccess
  | some .cmd => issue data s
  | some (.coef n) => if s.status.fault then .next s else .next { s with coef := s.coef.set n data }
  | some (.pram k) =>
    if s.status.fault then .next s
    else .next { s with pram := s.pram.store (4 * k.val) [wordByte data 0, wordByte data 1, wordByte data 2, wordByte data 3] }
  | some _ => .next s

/-- One operation of the host or platform (R6, R61, R67, R290). -/
def hostOp (op : HostOp) (s : State) : Host.Outcome State Fault Refusal :=
  match op with
  | .bind src => if src.length < Config.srcLimit then .next { s with nextSrc := src } else .refused .sourceTooLong
  | .reset => .next s.restart
  | .read off size => hostRead off size s
  | .write off size data => hostWrite off size data s

/-- The store to CMD that issues `w`. -/
def cmdWrite (w : Word) : HostOp := .write 0x000 4 w

end Sys2Proof.Machine
end

