-- ==== Sys2Proof/Machine/Step.lean ====
section
/-! DEFINITION. One step of the machine: the oldest pending host operation is performed whole (`00_scope.md` R6, `20_memory.md` R67, R72).
With none pending the block is idle and nothing happens (`70_reset_and_hazards.md` R290; log 1). -/

namespace Sys2Proof.Machine

/-- One step. -/
def step (s : State) : Host.Outcome State Fault Refusal :=
  match s.inputs with
  | [] => .next s
  | op :: rest => hostOp op { s with inputs := rest }

/-- `s` with a write of the command word `w` to CMD as the host's next operation (log 1). -/
def State.withFetchWord (s : State) (nbits w : Nat) : State :=
  { s with inputs := cmdWrite (BitVec.ofNat 32 (w % 2 ^ nbits)) :: s.inputs }

end Sys2Proof.Machine
end

