-- ==== Sys2Proof/Safety.lean ====
section
/-! DEFINITION. The terms in which claims are made: the invariant of `10_state.md` R43, the values reset leaves (R41), the faults each command's
rule lists, and what a host can tell about a faulted block (`20_memory.md` R69, U4). -/

namespace Sys2Proof.Machine

/-- The invariants of R43 on the cursor and the accumulator, for a source of `len` bytes (R25, R26, R28). -/
structure Stream.Inv (len : Nat) (t : Stream) : Prop where
  pos_le : t.pos ≤ len
  nunrd_le : t.nunrd.val ≤ t.pos
  cnt_le : t.cnt ≤ 23
  acc_lt : t.acc.toNat < 2 ^ t.cnt

/-- A table HT.BUILD made: from legal counts (R151) by the numbering of R152. -/
def HuffTable.built (T : HuffTable) : Prop :=
  ∃ (counts : Vector Byte 16) (symbol : Nat → Byte), countsLegal counts = true ∧ T = buildTable counts symbol

/-- The statement of R43 about one table: either undefined, or its fields fit together. -/
def HuffTable.consistent (T : HuffTable) : Prop :=
  T.nCodes = 0 ∨
    (T.nCodes = totalCodes T.counts ∧
      ∀ L : Fin 16, T.counts[L] ≠ 0 →
        T.minCode[L] + T.counts[L].toNat - 1 = T.maxCode[L] ∧ T.maxCode[L] < 2 ^ (L.val + 1))

/-- The invariant of the block (R43): it holds at reset and every step keeps it. -/
structure State.Inv (s : State) : Prop where
  /-- at command level BUSY always reads 0 (R23) -/
  idle : s.status.busy = false
  /-- FCODE and FINFO are 0 while FAULT = 0 (R23, R24) -/
  clean : s.status.fault = false → s.status.fcode = 0 ∧ s.finfo = 0
  /-- FCODE is the code of some fault while FAULT = 1 (R260) -/
  coded : s.status.fault = true → ∃ f : FaultCode, s.status.fcode = f.code
  stream : s.stream.Inv s.src.length
  src_lt : s.src.length < Config.srcLimit
  nextSrc_lt : s.nextSrc.length < Config.srcLimit
  eobrun_le : s.eobrun.toNat ≤ 32767
  tables : ∀ (tc : Fin 2) (th : Fin 4), s.ht[tc][th].nCodes = 0 ∨ s.ht[tc][th].built
  pram : s.pram.wf

/-- The values R41 gives for reset and SS.INIT. -/
structure State.AtResetValues (t : State) : Prop where
  status : t.status.word = 0
  result : t.result = 0
  ccnt : t.ccnt = 0
  finfo : t.finfo = 0
  pos : t.stream.pos = 0
  nunrd : t.stream.nunrd = 0
  acc : t.stream.acc = 0
  cnt : t.stream.cnt = 0
  nCodes : ∀ (tc : Fin 2) (th : Fin 4), t.ht[tc][th].nCodes = 0
  qtdef : ∀ tq : Fin 4, t.qtdef[tq] = false
  dcpred : ∀ c : Fin 4, t.dcpred[c] = 0
  eobrun : t.eobrun = 0
  rstexp : t.rstexp = 0
  xcfg : ∀ c : Fin 4, t.xcfg[c] = .acc
  dqtag : t.dqtag.word = 0

/-- The faults the rule of each command lists (IllegalCommand, which decoding raises, apart). -/
def listedFaults : Instr → List FaultCode
  | .nop => []
  | .ssInit => []
  | .bsRdb => [.unexpectedEndOfStream]
  | .bsUnrd => []
  | .bsRdx _ => [.illegalOperand, .unexpectedEndOfStream]
  | .bsSkip _ => [.unexpectedEndOfStream]
  | .baEns _ => [.illegalOperand, .unexpectedEndOfStream, .missingStuffingByte]
  | .baRdbit => [.unexpectedEndOfStream, .missingStuffingByte]
  | .baRdbits _ => [.illegalOperand, .unexpectedEndOfStream, .missingStuffingByte]
  | .baRcvx _ => [.illegalOperand, .unexpectedEndOfStream, .missingStuffingByte]
  | .baRst => []
  | .htBuild _ _ => [.invalidTable]
  | .htDec _ _ => [.illegalOperand, .uninitializedTable, .badHuffmanCode, .missingStuffingByte, .unexpectedEndOfStream]
  | .clClr => []
  | .clBlk _ _ _ => [.illegalOperand, .uninitializedTable, .badHuffmanCode, .badCoefficientSize, .coefficientOverrun,
      .missingStuffingByte, .unexpectedEndOfStream]
  | .clDcf _ _ _ => [.illegalOperand, .uninitializedTable, .badHuffmanCode, .badCoefficientSize, .missingStuffingByte,
      .unexpectedEndOfStream]
  | .clDcr _ => [.illegalOperand, .missingStuffingByte, .unexpectedEndOfStream]
  | .clAcf _ _ _ _ => [.illegalOperand, .uninitializedTable, .badHuffmanCode, .coefficientOverrun, .missingStuffingByte,
      .unexpectedEndOfStream]
  | .clAcr _ _ _ _ => [.illegalOperand, .uninitializedTable, .badHuffmanCode, .badRefinementSymbol, .coefficientOverrun,
      .missingStuffingByte, .unexpectedEndOfStream]
  | .clRstm => [.unexpectedEndOfStream, .badRestartMarker]
  | .clScan => []
  | .qtLoad _ _ => [.invalidQuantTable]
  | .xfCfg _ _ => [.illegalOperand]
  | .xfDq _ _ => [.illegalOperand, .missingQuantTable]
  | .xfIdct _ => [.sequenceError]
  | .xfRun _ _ => [.illegalOperand, .missingQuantTable]

/-- The field `w[hi:lo]` as an unsigned number (R7, R82), by division. -/
def fieldOf (w : Word) (hi lo : Nat) : Nat := w.toNat / 2 ^ lo % 2 ^ (hi - lo + 1)

/-- The words with opcode `op` (R81, R83): with every field of `zero` 0 the word is the command `mk` makes of its fields, else a must-be-zero
bit is set. -/
def wordMeans (op : Nat) (zero : List (Nat × Nat)) (mk : (Nat → Nat → Nat) → Instr) : Prop :=
  ∀ w : Word, fieldOf w 31 24 = op →
    decode w = if ∀ p ∈ zero, fieldOf w p.1 p.2 = 0 then .ok (mk (fieldOf w)) else .error .mustBeZeroBit

/-- The command ends by `raise f` (R262): STATUS and FINFO record it, RESULT and CCNT are not written. What else it wrote before is not told
(U4). -/
def raises (i : Instr) (s : State) (f : FaultCode) : Prop :=
  ∃ t, exec i s = .next t ∧ t.status = ⟨s.status.busy, true, f.code⟩ ∧ t.finfo = s.cmd ∧ t.result = s.result ∧ t.ccnt = s.ccnt

/-- The command ends by `raise f` before it has written anything: only STATUS and FINFO change (R262, R264). -/
def refuses (i : Instr) (s : State) (f : FaultCode) : Prop :=
  exec i s = .next { s with status := ⟨s.status.busy, true, f.code⟩, finfo := s.cmd }

/-- The items of R20 that commands write, CMD, STATUS, RESULT, CCNT and FINFO apart. -/
inductive Item where
  | pos
  | nunrd
  | bits
  | ht
  | qt
  | coef
  | dcpred
  | eobrun
  | rstexp
  | xcfg
  | dqb
  | samp
  | pram
deriving DecidableEq, Repr

/-- The items a command may write, from the "written by" sentences of R25 to R38. SS.INIT, which writes all, is not asked about. -/
def writes : Instr → List Item
  | .nop => []
  | .ssInit => []
  | .bsRdb => [.pos, .nunrd]
  | .bsUnrd => [.pos, .nunrd, .bits]
  | .bsRdx _ => [.pos, .nunrd, .pram]
  | .bsSkip _ => [.pos, .nunrd]
  | .baEns _ => [.pos, .nunrd, .bits]
  | .baRdbit => [.pos, .nunrd, .bits]
  | .baRdbits _ => [.pos, .nunrd, .bits]
  | .baRcvx _ => [.pos, .nunrd, .bits]
  | .baRst => [.bits]
  | .htBuild _ _ => [.ht]
  | .htDec _ _ => [.pos, .nunrd, .bits]
  | .clClr => [.coef]
  | .clBlk _ _ _ => [.pos, .nunrd, .bits, .coef, .dcpred]
  | .clDcf _ _ _ => [.pos, .nunrd, .bits, .coef, .dcpred]
  | .clDcr _ => [.pos, .nunrd, .bits, .coef]
  | .clAcf _ _ _ _ => [.pos, .nunrd, .bits, .coef, .eobrun]
  | .clAcr _ _ _ _ => [.pos, .nunrd, .bits, .coef, .eobrun]
  | .clRstm => [.pos, .nunrd, .bits, .dcpred, .eobrun, .rstexp]
  | .clScan => [.nunrd, .bits, .dcpred, .eobrun, .rstexp]
  | .qtLoad _ _ => [.qt]
  | .xfCfg _ _ => [.xcfg]
  | .xfDq _ _ => [.dqb]
  | .xfIdct _ => [.samp]
  | .xfRun _ _ => [.dqb, .samp]

/-- `t` differs from `s` at most in STATUS, RESULT, CCNT, FINFO and the items of `ws`. -/
structure SameBut (ws : List Item) (s t : State) : Prop where
  cmd : t.cmd = s.cmd
  pos : .pos ∉ ws → t.stream.pos = s.stream.pos
  nunrd : .nunrd ∉ ws → t.stream.nunrd = s.stream.nunrd
  bits : .bits ∉ ws → t.stream.acc = s.stream.acc ∧ t.stream.cnt = s.stream.cnt
  ht : .ht ∉ ws → t.ht = s.ht
  qt : .qt ∉ ws → t.qt = s.qt ∧ t.qtdef = s.qtdef
  coef : .coef ∉ ws → t.coef = s.coef
  dcpred : .dcpred ∉ ws → t.dcpred = s.dcpred
  eobrun : .eobrun ∉ ws → t.eobrun = s.eobrun
  rstexp : .rstexp ∉ ws → t.rstexp = s.rstexp
  xcfg : .xcfg ∉ ws → t.xcfg = s.xcfg
  dqb : .dqb ∉ ws → t.dqb = s.dqb ∧ t.dqtag = s.dqtag
  samp : .samp ∉ ws → t.samp = s.samp
  pram : .pram ∉ ws → ∀ a, t.pram.byte a = s.pram.byte a
  src : t.src = s.src
  nextSrc : t.nextSrc = s.nextSrc
  inputs : t.inputs = s.inputs
  rdata : t.rdata = s.rdata
  free : t.free = s.free

/-- Two faulted states that no host can tell apart by what R69 defines: the rest of the two states may differ in any way (U4). -/
structure FaultedAlike (s t : State) : Prop where
  faulted : s.status.fault = true
  status : s.status = t.status
  finfo : s.finfo = t.finfo
  ccnt : s.ccnt = t.ccnt
  nextSrc : s.nextSrc = t.nextSrc
  inputs : s.inputs = t.inputs
  rdata : s.rdata = t.rdata
  free : s.free = t.free

/-- An offset R40 lists: 0x000..0x04C, 0x100..0x33C, 0x400..0x5FC in steps of 4 (R65, R70). -/
def listedOffset (off : Nat) : Prop :=
  off % 4 = 0 ∧ (off ≤ 0x04C ∨ (0x100 ≤ off ∧ off ≤ 0x33C) ∨ (0x400 ≤ off ∧ off ≤ 0x5FC))

end Sys2Proof.Machine
end

