-- ==== Sys2Proof/Reference.lean ====
section
/-! DEFINITION. A reference decoder over plain bit strings, for claims: no cursor, no accumulator, no byte stuffing and no fast table. The
de-stuffed view is that of `42_bitaccum.md` R141; the block algorithms are those of `44_coefload.md` with each stream access a prefix of a list. -/

namespace Sys2Proof.Reference

open Sys2Proof.Machine

/-! ### The bit string a stream stands for (R141) -/

/-- The low `k` bits of `v`, first-arrived (most significant) first. -/
def natBits (k v : Nat) : List Bool := (List.range k).map fun i => v.testBit (k - 1 - i)

/-- The number a bit string spells, most significant bit first (R131). -/
def bitsValue (bs : List Bool) : Nat := bs.foldl (fun v b => 2 * v + b.toNat) 0

/-- The bytes stuffed reads deliver until one fails: each pair 0xFF 0x00 is one 0xFF (R111, R141). -/
def destuff : List Byte → List Byte
  | [] => []
  | [b] => if b = 0xFF then [] else [b]
  | b :: c :: rest =>
    if b = 0xFF then (if c = 0 then 0xFF :: destuff rest else [])
    else b :: destuff (c :: rest)

/-- The fault of the stuffed read that stops `destuff` (R111, R62). -/
def endFault : List Byte → FaultCode
  | [] => .unexpectedEndOfStream
  | [_] => .unexpectedEndOfStream
  | b :: c :: rest =>
    if b = 0xFF then (if c = 0 then endFault rest else .missingStuffingByte)
    else endFault (c :: rest)

/-- Everything a stream can still serve: the bits held, then the de-stuffed rest of the source. -/
def pending (src : List Byte) (t : Stream) : List Bool :=
  natBits t.cnt t.acc.toNat ++ (destuff (src.drop t.pos)).flatMap fun b => natBits 8 b.toNat

/-- The fault of a stream that needs more bits than are pending. -/
def shortage (src : List Byte) (t : Stream) : FaultCode := endFault (src.drop t.pos)

/-! ### Decoding a bit string -/

/-- A decoder: it takes bits off the front, or fails with a fault. -/
abbrev Dec := StateT (List Bool) (Except FaultCode)

/-- The next `n` bits as a number; `short` is the fault when they are not there. -/
def takeBits (short : FaultCode) (n : Nat) : Dec Nat := fun bs =>
  if bs.length < n then .error short else .ok (bitsValue (bs.take n), bs.drop n)

/-- RECEIVE and EXTEND on the bit string (R133). -/
def receive (short : FaultCode) (t : Nat) : Dec Int :=
  if t = 0 then pure 0 else do
    let x ← takeBits short t
    pure (if x < 2 ^ (t - 1) then (x : Int) - 2 ^ t + 1 else x)

/-- The symbol of the code of length `L + 1` the bits begin with, if they begin with one. -/
def codeAtFront (T : HuffTable) (bs : List Bool) (L : Fin 16) : Option (Byte × Nat) :=
  let v : Int := bitsValue (bs.take (L.val + 1))
  if L.val + 1 ≤ bs.length ∧ T.minCode[L] ≤ v ∧ v ≤ T.maxCode[L] then
    (T.vals[(T.valsIndex[L] + v - T.minCode[L]).toNat]?).map fun b => (b, L.val + 1)
  else none

/-- The symbol whose code the bits begin with (R157 without its fast path). -/
def symbol (short : FaultCode) (T : HuffTable) : Dec Byte := fun bs =>
  if T.nCodes = 0 then .error .uninitializedTable
  else
    match (List.finRange 16).findSome? (codeAtFront T bs) with
    | some (b, n) => .ok (b, bs.drop n)
    | none => if bs.length < 16 then .error short else .error .badHuffmanCode

/-- A DC difference (R171). -/
def dcDiff (short : FaultCode) (T : HuffTable) : Dec Int := do
  let s ← symbol short T
  if s.toNat > 16 then throw .badCoefficientSize else receive short s.toNat

/-- The AC positions from `k` of a baseline block (R176). -/
def blockAc (short : FaultCode) (T : HuffTable) : (rounds k : Nat) → Vector Word 64 → Dec (Vector Word 64)
  | 0, _, c => pure c
  | rounds + 1, k, c =>
    if k > 63 then pure c else do
      let rs ← symbol short T
      let r := rs.toNat / 16
      let s := rs.toNat % 16
      if s ≠ 0 then
        if k + r > 63 then throw .coefficientOverrun else do
          let v ← receive short s
          blockAc short T rounds (k + r + 1) (c.set (unzig (k + r)) (w32 v))
      else if r = 15 then
        if k + 15 > 63 then throw .coefficientOverrun else blockAc short T rounds (k + 16) c
      else pure c

/-- A baseline block from the predictor `pred`: the new predictor and the coefficients (R176). -/
def block (short : FaultCode) (dc ac : HuffTable) (pred : Word) : Dec (Word × Vector Word 64) := do
  let d ← dcDiff short dc
  let c ← blockAc short ac 64 1 ((Vector.replicate 64 0).set 0 (pred + w32 d))
  pure (pred + w32 d, c)

/-- The length of an end-of-band run: 2^r plus r extra bits (R179, R180). -/
def eobRun (short : FaultCode) (r : Nat) : Dec Nat := do
  let x ← takeBits short r
  pure (2 ^ r + x)

/-- The positions from `k` of a first-pass band: the coefficients, and how many later blocks of an end-of-band run follow (R179). -/
def bandFirst (short : FaultCode) (T : HuffTable) (se al : Nat) :
    (rounds k : Nat) → Vector Word 64 → Dec (Vector Word 64 × Nat)
  | 0, _, c => pure (c, 0)
  | rounds + 1, k, c =>
    if k > se then pure (c, 0) else do
      let rs ← symbol short T
      let r := rs.toNat / 16
      let s := rs.toNat % 16
      if s ≠ 0 then
        if k + r > se then throw .coefficientOverrun else do
          let v ← receive short s
          bandFirst short T se al rounds (k + r + 1) (c.set (unzig (k + r)) (w32 (v * 2 ^ al)))
      else if r ≠ 15 then do
        let n ← eobRun short r
        pure (c, n - 1)
      else
        if k + 15 > se then throw .coefficientOverrun else bandFirst short T se al rounds (k + 16) c

/-- The refinement of the nonzero coefficients from `k`, one bit each, until `nz` zero positions are passed and a further one is met, or the
band ends; `none` passes all zeros (R174). -/
def refine (short : FaultCode) (se al : Nat) :
    (rounds k : Nat) → (nz : Option Nat) → Vector Word 64 → Dec (Nat × Vector Word 64)
  | 0, k, _, blk => pure (k, blk)
  | rounds + 1, k, nz, blk =>
    if k > se then pure (k, blk)
    else if blk[unzig k] = 0 then
      match nz with
      | some 0 => pure (k, blk)
      | some (m + 1) => refine short se al rounds (k + 1) (some m) blk
      | none => refine short se al rounds (k + 1) none blk
    else do
      let b ← takeBits short 1
      let v := blk[unzig k].toInt
      let moved := if v ≥ 0 then v + 2 ^ al else v - 2 ^ al
      refine short se al rounds (k + 1) nz (if b = 1 then blk.set (unzig k) (w32 moved) else blk)

/-- The positions from `k` of a refinement band: where it ends, the coefficients, and the end-of-band run met (0 if none) (R180). -/
def bandRefine (short : FaultCode) (T : HuffTable) (se al : Nat) :
    (rounds k : Nat) → Vector Word 64 → Dec (Nat × Vector Word 64 × Nat)
  | 0, k, c => pure (k, c, 0)
  | rounds + 1, k, c =>
    if k > se then pure (k, c, 0) else do
      let rs ← symbol short T
      let r := rs.toNat / 16
      let s := rs.toNat % 16
      if s = 0 ∧ r ≠ 15 then do
        let n ← eobRun short r
        pure (k, c, n)
      else if s > 1 then throw .badRefinementSymbol
      else do
        let sign ← if s = 1 then takeBits short 1 else pure 0
        let (k', c') ← refine short se al 64 k (some r) c
        if k' > se then throw .coefficientOverrun
        else
          let new := if sign = 1 then (2 : Int) ^ al else -2 ^ al
          bandRefine short T se al rounds (k' + 1) (if s = 1 then c'.set (unzig k') (w32 new) else c')

/-- One block of a refinement scan that starts with `run` blocks of an end-of-band run left: the coefficients and the run after it (R180). -/
def blockRefine (short : FaultCode) (T : HuffTable) (ss se al run : Nat) (c : Vector Word 64) :
    Dec (Vector Word 64 × Nat) := do
  let (k, c, run) ← if run = 0 then bandRefine short T se al 64 ss c else pure (ss, c, run)
  if run = 0 then pure (c, 0)
  else do
    let (_, c) ← refine short se al 64 k none c
    pure (c, run - 1)

/-! ### Table build as the loops of R152 and R153 -/

/-- The loop of R152 over the remaining counts: minCode, maxCode and valsIndex of each length. -/
def numbering : (counts : List Nat) → (code idx : Nat) → List (Int × Int × Int)
  | [], _, _ => []
  | n :: rest, code, idx =>
    (if n = 0 then ((-1 : Int), (-1 : Int), (-1 : Int)) else ((code : Int), (code : Int) + n - 1, (idx : Int)))
      :: numbering rest (2 * (code + n)) (idx + n)

/-- Check 3 of R151 during that loop, from length `L`. -/
def overfull : (counts : List Nat) → (L code : Nat) → Bool
  | [], _, _ => false
  | n :: rest, L, code => (n != 0 && 2 ^ L < code + n) || overfull rest (L + 1) (2 * (code + n))

/-- The three nested loops of R153, as successive updates of an all-zero table. `count`, `first` and `index` are counts, minCode and valsIndex. -/
def lutFill (count first index : Nat → Nat) (symbol : Nat → Byte) : Nat → Half :=
  (List.range' 1 8).foldl (fun lut L =>
    (List.range (count L)).foldl (fun lut j =>
      (List.range (2 ^ (8 - L))).foldl (fun lut k =>
        fun i => if i = (first L + j) * 2 ^ (8 - L) + k then symbol (index L + j) ++ BitVec.ofNat 8 (L + 1) else lut i)
        lut) lut) (fun _ => 0)

/-! ### The two passes of R224, sample by sample -/

/-- WS[r][c] (R224): `b` is DQB, `Z` the tested indices. -/
def workspaceAt (Z : List Nat) (K : Vector Word 8 → Nat → Word) (P1 DC1 : Word → Word) (b : Nat → Word) (r c : Nat) : Word :=
  if ∀ i ∈ Z, b (8 * i + c) = 0 then DC1 (b c) else P1 (K (Vector.ofFn fun i => b (8 * i.val + c)) r)

/-- The sample at row `r`, column `c` (R224). -/
def sampleAt (Z : List Nat) (K : Vector Word 8 → Nat → Word) (P1 DC1 P2 DC2 : Word → Word) (b : Nat → Word) (r c : Nat) : Byte :=
  let ws := workspaceAt Z K P1 DC1 b r
  if ∀ i ∈ Z, ws i = 0 then rangeLimit (DC2 (ws 0)) else rangeLimit (P2 (K (Vector.ofFn fun i => ws i.val) c))

/-! ### Binary32 values (R11) -/

/-- The value of a binary32 pattern without sign, below that of infinity, in units of 2^-298. -/
def magnitude (p : Nat) : Nat :=
  (if p / 2 ^ 23 = 0 then p % 2 ^ 23 else p % 2 ^ 23 + 2 ^ 23) * 2 ^ (p / 2 ^ 23 - 1) * 2 ^ 149

/-- How far apart two naturals are. -/
def distance (a b : Nat) : Nat := (a - b) + (b - a)

end Sys2Proof.Reference
end

