-- ==== Sys2Proof/Certificates/Slice0/Obligations.lean ====
section
/-! DEFINITION. What is claimed of the model, for the provers. Each docstring names the rule it formalises, or says that it rests on a choice of
the model and names the log entry. -/

section
open Sys2Proof Sys2Proof.Machine Sys2Proof.Reference

/-! ### Encoding -/

/-- Decoding an encoded well-formed command gives it back, for every command and every operand value a field can carry (R80 to R83). -/
def Obligations.DecodeEncodeRoundTrip : Prop := ∀ i : Instr, i.wf = true → decode (encode i) = .ok i

/-- Every word that decodes is the encoding of its command, and the operands fit their fields (R81, R82): no two words mean one command. -/
def Obligations.EncodeDecodeRoundTrip : Prop := ∀ (w : Word) (i : Instr), decode w = .ok i → i.wf = true ∧ encode i = w

/-- R81 with the opcodes of R83: for each of the 26 commands, which fields must be zero and where its operands stand. -/
def Obligations.CommandWordsFollowTheirFormats : Prop :=
  wordMeans 0x00 [(23, 0)] (fun _ => .nop) ∧ wordMeans 0x01 [(23, 0)] (fun _ => .ssInit) ∧
  wordMeans 0x10 [(23, 0)] (fun _ => .bsRdb) ∧ wordMeans 0x12 [(23, 0)] (fun _ => .bsUnrd) ∧
  wordMeans 0x13 [(23, 16)] (fun f => .bsRdx (f 15 0)) ∧ wordMeans 0x14 [(23, 16)] (fun f => .bsSkip (f 15 0)) ∧
  wordMeans 0x20 [(23, 5)] (fun f => .baEns (f 4 0)) ∧ wordMeans 0x21 [(23, 0)] (fun _ => .baRdbit) ∧
  wordMeans 0x22 [(23, 5)] (fun f => .baRdbits (f 4 0)) ∧ wordMeans 0x23 [(23, 5)] (fun f => .baRcvx (f 4 0)) ∧
  wordMeans 0x24 [(23, 0)] (fun _ => .baRst) ∧
  wordMeans 0x30 [(23, 8)] (fun f => .htBuild (f 7 4) (f 3 0)) ∧ wordMeans 0x31 [(23, 8)] (fun f => .htDec (f 7 4) (f 3 0)) ∧
  wordMeans 0x40 [(23, 0)] (fun _ => .clClr) ∧
  wordMeans 0x41 [(23, 10)] (fun f => .clBlk (Fin.ofNat 4 (f 9 8)) (f 7 4) (f 3 0)) ∧
  wordMeans 0x42 [(23, 22), (21, 16), (15, 10)] (fun f => .clDcf (Fin.ofNat 4 (f 9 8)) (f 7 4) (f 3 0)) ∧
  wordMeans 0x43 [(23, 22), (21, 16), (15, 10), (9, 8), (7, 4)] (fun f => .clDcr (f 3 0)) ∧
  wordMeans 0x44 [(23, 22), (9, 8)] (fun f => .clAcf (f 7 4) (f 15 10) (f 21 16) (f 3 0)) ∧
  wordMeans 0x45 [(23, 22), (9, 8)] (fun f => .clAcr (f 7 4) (f 15 10) (f 21 16) (f 3 0)) ∧
  wordMeans 0x46 [(23, 0)] (fun _ => .clRstm) ∧ wordMeans 0x47 [(23, 0)] (fun _ => .clScan) ∧
  wordMeans 0x50 [(23, 8)] (fun f => .qtLoad (f 7 4) (f 3 0)) ∧
  wordMeans 0x51 [(23, 10), (7, 4), (3, 3)] (fun f => .xfCfg (Fin.ofNat 4 (f 9 8)) (f 2 0)) ∧
  wordMeans 0x52 [(23, 10), (7, 4)] (fun f => .xfDq (Fin.ofNat 4 (f 9 8)) (f 3 0)) ∧
  wordMeans 0x53 [(23, 10), (7, 4), (3, 0)] (fun f => .xfIdct (Fin.ofNat 4 (f 9 8))) ∧
  wordMeans 0x54 [(23, 10), (7, 4)] (fun f => .xfRun (Fin.ofNat 4 (f 9 8)) (f 3 0))

/-- The masks and patterns of the opcode table agree with the decoder: a word matches a row exactly when it decodes to the row's command. -/
def Obligations.OpcodeTableAgreesWithDecode : Prop :=
  ∀ (w : Word) (row : OpcodeRow), row ∈ opcodeTable →
    (w &&& row.mask = row.pattern ↔ ∃ i, decode w = .ok i ∧ i.mnemonic = row.mnemonic)

/-- R85: a word that matches no row of the table, or whose opcode is one of the 230 unassigned ones, raises IllegalCommand (0x40) and does
nothing else. -/
def Obligations.IllegalWordsRaiseIllegalCommand : Prop :=
  ∀ (s : State) (w : Word), s.status.busy = false → s.status.fault = false →
    ((∀ row ∈ opcodeTable, w &&& row.mask ≠ row.pattern) ∨
      fieldOf w 31 24 ∈ List.range' 0x02 14 ++ [0x11] ++ List.range' 0x15 11 ++ List.range' 0x25 11 ++ List.range' 0x32 14
        ++ List.range' 0x48 8 ++ List.range' 0x55 171) →
    issue w s = .next { s with cmd := w, status := ⟨false, true, 0x40⟩, finfo := w }

/-- The example words of R87. -/
def Obligations.ExampleWordsDecode : Prop :=
  decode 0x00000000 = .ok .nop ∧ decode 0x01000000 = .ok .ssInit ∧ decode 0x1300001C = .ok (.bsRdx 28) ∧
  decode 0x22000005 = .ok (.baRdbits 5) ∧ decode 0x30000010 = .ok (.htBuild 1 0) ∧ decode 0x31000000 = .ok (.htDec 0 0) ∧
  decode 0x41000211 = .ok (.clBlk 2 1 1) ∧ decode 0x44050412 = .ok (.clAcf 1 1 5 2) ∧ decode 0x50000000 = .ok (.qtLoad 0 0) ∧
  decode 0x51000103 = .ok (.xfCfg 1 3) ∧ decode 0x54000000 = .ok (.xfRun 0 0)

/-! ### Issue, faults, reset -/

/-- One step (R84, R266, R290; the queue of host operations is the model's, log 1): a pending write to CMD runs the decoded command on the state
that holds its word; a word that decodes to nothing raises IllegalCommand; while FAULT = 1 only the word 0x01000000 does anything; with no host
operation pending nothing happens. -/
def Obligations.StepRunsTheCommandWritten : Prop :=
  ∀ s : State,
    (s.inputs = [] → step s = .next s) ∧
    ∀ (w : Word) (rest : List HostOp), s.inputs = cmdWrite w :: rest → s.status.busy = false →
      (s.status.fault = false → ∀ i, decode w = .ok i → step s = exec i { s with inputs := rest, cmd := w }) ∧
      (s.status.fault = false → ∀ e, decode w = .error e →
        step s = .next { s with inputs := rest, cmd := w, status := ⟨false, true, 0x40⟩, finfo := w }) ∧
      (s.status.fault = true → w ≠ 0x01000000 → step s = .next { s with inputs := rest }) ∧
      (s.status.fault = true → w = 0x01000000 → step s = exec .ssInit { s with inputs := rest, cmd := w })

/-- R100: NOP writes RESULT = 0, adds 1 to CCNT and changes nothing else; while FAULT = 1 it is ignored. -/
def Obligations.NopOnlyCounts : Prop :=
  wordMeans 0x00 [(23, 0)] (fun _ => .nop) ∧
  ∀ s : State, (s.status.fault = false → exec .nop s = .next { s with result := 0, ccnt := s.ccnt + 1 }) ∧
    (s.status.fault = true → exec .nop s = .next s)

/-- R101: SS.INIT, faulted or not, leaves every item at its reset value with the new source bound, and no data of the old session survives: two
states that agree outside the block go to one state. The next source and the host's pending operations are kept (log 1, 18). -/
def Obligations.SsInitStartsANewSession : Prop :=
  wordMeans 0x01 [(23, 0)] (fun _ => .ssInit) ∧
  (∀ s : State, ∃ t, exec .ssInit s = .next t ∧ t.AtResetValues ∧ t.src = s.nextSrc ∧ t.nextSrc = s.nextSrc ∧ t.inputs = s.inputs ∧
    t.rdata = s.rdata) ∧
  (∀ s t : State, s.nextSrc = t.nextSrc → s.inputs = t.inputs → s.rdata = t.rdata → s.free = t.free →
    exec .ssInit s = exec .ssInit t) ∧
  ∀ (s : State) (w : Word), s.status.busy = false → s.status.fault = true →
    issue w s = if w = 0x01000000 then exec .ssInit { s with cmd := w } else .next s

/-- R41, R290: the reset state has the reset values, and hardware reset does what SS.INIT does. -/
def Obligations.ResetGivesTheResetValues : Prop :=
  State.reset.AtResetValues ∧ ∀ s : State, ∃ t, hostOp .reset s = .next t ∧ t.AtResetValues ∧ t.src = s.nextSrc ∧ exec .ssInit s = .next t

/-- R266: while FAULT = 1 a command word other than 0x01000000, a command other than SS.INIT and a host write to COEF or PRAM change nothing, and
0x01000000 executes SS.INIT. -/
def Obligations.NothingRunsWhileFaulted : Prop :=
  ∀ s : State, s.status.fault = true →
    (∀ i : Instr, i ≠ .ssInit → exec i s = .next s) ∧
    (s.status.busy = false → ∀ w : Word, w ≠ 0x01000000 → issue w s = .next s) ∧
    (s.status.busy = false → issue 0x01000000 s = exec .ssInit { s with cmd := 0x01000000 }) ∧
    (∀ (n : Fin 64) (d : Word), hostWrite (0x100 + 4 * n.val) 4 d s = .next s) ∧
    (∀ (k : Fin 128) (d : Word), hostWrite (0x400 + 4 * k.val) 4 d s = .next s)

/-- R22, R261, R262 over all commands: with FAULT = 0 every command but SS.INIT ends in exactly one of two ways. It completes, STATUS and FINFO
unchanged and CCNT one more; or it faults with a fault its rule lists, recorded as R262 says, RESULT and CCNT unchanged. -/
def Obligations.EveryCommandCompletesOrFaults : Prop :=
  ∀ (i : Instr) (s : State), i ≠ .ssInit → s.status.fault = false →
    ∃ t, exec i s = .next t ∧
      ((t.status = s.status ∧ t.finfo = s.finfo ∧ t.ccnt = s.ccnt + 1) ∨
        ∃ f ∈ listedFaults i, t.status = ⟨s.status.busy, true, f.code⟩ ∧ t.finfo = s.cmd ∧ t.result = s.result ∧ t.ccnt = s.ccnt)

/-- R267: whatever the host does short of hardware reset and SS.INIT, a recorded fault stays as it is, over any number of steps. -/
def Obligations.FaultIsSticky : Prop :=
  ∀ (k : Nat) (s t : State), s.status.fault = true →
    (∀ op ∈ s.inputs, op ≠ .reset ∧ ∀ off size, op ≠ .write off size 0x01000000) →
    Host.Core.run Sys2Proof.core k s = .next t →
    t.status = s.status ∧ t.finfo = s.finfo ∧ t.ccnt = s.ccnt

/-- R69, U4: two faulted states that agree on STATUS, FINFO, CCNT and on what lies outside the block stay so under every host operation, or become
one state when a new session starts: nothing else of a faulted block can ever be learnt. -/
def Obligations.FaultedBlockShowsOnlyItsRecord : Prop :=
  ∀ s t : State, FaultedAlike s t →
    (∃ r, step s = .refused r ∧ step t = .refused r) ∨
    ∃ s' t', step s = .next s' ∧ step t = .next t' ∧ (s' = t' ∨ FaultedAlike s' t')

/-- R25 to R38, the "written by" sentences: a completed command leaves every item it is not said to write, and everything outside the block (that
CMD and the model's own fields stay is the model's choice: log 1, 3, 7, 17). -/
def Obligations.CommandsWriteOnlyTheirItems : Prop :=
  ∀ (i : Instr) (s t : State), i ≠ .ssInit → s.status.fault = false → exec i s = .next t → t.status.fault = false →
    SameBut (writes i) s t

/-- R68: these commands issued twice in a row leave the same state as once, apart from CCNT. -/
def Obligations.IdempotentCommands : Prop :=
  ∀ (i : Instr) (s t : State), i.mnemonic ∈ ["NOP", "BA.RST", "CL.CLR", "CL.SCAN", "XF.CFG", "HT.BUILD", "QT.LOAD", "XF.DQ", "XF.IDCT", "XF.RUN"] →
    s.status.fault = false → exec i s = .next t → t.status.fault = false → exec i t = .next { t with ccnt := t.ccnt + 1 }

/-- R43 (with the range of SRC_LEN, R25, what R23 and R24 say of STATUS and FINFO, and the model's canonical form of PRAM, log 11): every step
keeps the invariant. That it holds of faulted states too rests on log 6: the model keeps the state a faulting command leaves. -/
def Obligations.StepKeepsTheInvariant : Prop := ∀ s t : State, s.Inv → step s = .next t → t.Inv

/-- R43 holds of the reset state. -/
def Obligations.ResetMeetsTheInvariant : Prop := State.reset.Inv

/-- R61: the source of a session changes only when a new session starts, and then to what the host bound (how it binds is the model's: log 10). -/
def Obligations.SourceIsFixedForTheSession : Prop :=
  ∀ s t : State, step s = .next t → t.src = s.src ∨ (t.src = s.nextSrc ∧ t.AtResetValues)

/-! ### Register window -/

/-- R40: what a read of each listed offset returns while FAULT = 0. -/
def Obligations.WindowReadsTheRegisters : Prop :=
  ∀ s : State, s.status.fault = false →
    let reads := fun (off : Nat) (v : Word) => hostRead off 4 s = .next { s with rdata := v }
    reads 0x000 0 ∧
    reads 0x004 (BitVec.ofNat 32 (s.status.fcode.toNat * 2 ^ 8 + if s.status.busy then 1 else 0)) ∧
    reads 0x008 s.result ∧ reads 0x00C s.ccnt ∧ reads 0x010 s.finfo ∧
    reads 0x014 (BitVec.ofNat 32 s.stream.pos) ∧ reads 0x018 (BitVec.ofNat 32 s.stream.nunrd.val) ∧
    reads 0x01C s.stream.acc ∧ reads 0x020 (BitVec.ofNat 32 s.stream.cnt) ∧
    reads 0x024 (s.eobrun.setWidth 32) ∧ reads 0x028 (BitVec.ofNat 32 s.rstexp.val) ∧
    reads 0x02C (BitVec.ofNat 32 ((if s.dqtag.valid then 4 else 0) + s.dqtag.kind.code)) ∧
    (∀ c : Fin 4, reads (0x030 + 4 * c.val) s.dcpred[c]) ∧
    (∀ c : Fin 4, reads (0x040 + 4 * c.val) (BitVec.ofNat 32 s.xcfg[c].code)) ∧
    (∀ n : Fin 64, reads (0x100 + 4 * n.val) s.coef[n]) ∧
    (∀ n : Fin 64, reads (0x200 + 4 * n.val) s.dqb[n]) ∧
    (∀ k : Fin 16, reads (0x300 + 4 * k.val)
      (s.samp[4 * k.val + 3] ++ s.samp[4 * k.val + 2] ++ s.samp[4 * k.val + 1] ++ s.samp[4 * k.val])) ∧
    (∀ k : Fin 128, reads (0x400 + 4 * k.val)
      (s.pram.byte (4 * k.val + 3) ++ s.pram.byte (4 * k.val + 2) ++ s.pram.byte (4 * k.val + 1) ++ s.pram.byte (4 * k.val)))

/-- R65: an access that is not 32 bits wide, aligned and at an offset R40 lists is refused; every other read is answered. -/
def Obligations.WindowRefusesOtherAccesses : Prop :=
  ∀ (off size : Nat) (d : Word) (s : State),
    (size ≠ 4 ∨ ¬ listedOffset off → hostRead off size s = .refused .windowAccess ∧ hostWrite off size d s = .refused .windowAccess) ∧
    (size = 4 → listedOffset off → (∃ t, hostRead off size s = .next t) ∧ hostWrite off size d s ≠ .refused .windowAccess)

/-- R40, R63 (d, f), R67: with FAULT = 0 a host write to COEF or PRAM stores the value and nothing else, byte i of the word at PRAM[4k + i]; a
write to a read-only register is ignored. -/
def Obligations.HostWritesStoreTheirValue : Prop :=
  ∀ (s : State) (d : Word), s.pram.wf →
    (s.status.fault = false → ∀ n : Fin 64, hostWrite (0x100 + 4 * n.val) 4 d s = .next { s with coef := s.coef.set n d }) ∧
    (s.status.fault = false → ∀ k : Fin 128, ∃ m : Memory, hostWrite (0x400 + 4 * k.val) 4 d s = .next { s with pram := m } ∧ m.wf ∧
      ∀ a, m.byte a = if a / 4 = k.val then BitVec.ofNat 8 (d.toNat / 2 ^ (8 * (a % 4))) else s.pram.byte a) ∧
    (∀ off, listedOffset off → off ≠ 0 → ¬ (0x100 ≤ off ∧ off ≤ 0x1FC) → ¬ (0x400 ≤ off ∧ off ≤ 0x5FC) → hostWrite off 4 d s = .next s)

/-- R69, U4: while FAULT = 1 STATUS, FINFO and CCNT read as they are; any other register gives the next free value (log 5). -/
def Obligations.FaultedReads : Prop :=
  ∀ s : State, s.status.fault = true →
    hostRead 0x004 4 s = .next { s with rdata := s.status.word } ∧
    hostRead 0x00C 4 s = .next { s with rdata := s.ccnt } ∧
    hostRead 0x010 4 s = .next { s with rdata := s.finfo } ∧
    ∀ off, listedOffset off → off ≠ 0x004 → off ≠ 0x00C → off ≠ 0x010 →
      hostRead off 4 s = .next { s with rdata := Config.freeRead s.free off, free := s.free + 1 }

/-! ### U1: byte stream -/

/-- R115 with R110: BS.RDB returns the raw byte at `pos`, whatever it is, or faults and moves nothing. -/
def Obligations.BsRdbReadsOneRawByte : Prop :=
  wordMeans 0x10 [(23, 0)] (fun _ => .bsRdb) ∧
  ∀ s : State, s.status.fault = false →
    (∀ b, s.src[s.stream.pos]? = some b →
      exec .bsRdb s = .next { s with stream := { s.stream with pos := s.stream.pos + 1, nunrd := 0 }, result := b.setWidth 32, ccnt := s.ccnt + 1 }) ∧
    (s.src.length ≤ s.stream.pos → refuses .bsRdb s .unexpectedEndOfStream)

/-- R116 with R112 and R113: BS.UNRD gives back the last stuffed read when its 8 bits are still in the accumulator; a second one gives back nothing. -/
def Obligations.BsUnrdReturnsTheOvershoot : Prop :=
  wordMeans 0x12 [(23, 0)] (fun _ => .bsUnrd) ∧
  ∀ s : State, s.status.fault = false →
    (s.stream.nunrd ≠ 0 → 8 ≤ s.stream.cnt →
      exec .bsUnrd s = .next { s with
        stream := ⟨s.stream.pos - s.stream.nunrd.val, 0, s.stream.acc >>> 8, s.stream.cnt - 8⟩
        result := BitVec.ofNat 32 s.stream.nunrd.val, ccnt := s.ccnt + 1 }) ∧
    (s.stream.nunrd = 0 ∨ s.stream.cnt < 8 →
      exec .bsUnrd s = .next { s with stream := { s.stream with nunrd := 0 }, result := 0, ccnt := s.ccnt + 1 }) ∧
    ∀ t, exec .bsUnrd s = .next t → exec .bsUnrd t = .next { t with result := 0, ccnt := t.ccnt + 1 }

/-- R117: BS.RDX moves `n` raw bytes to PRAM[0..n-1] and leaves every other byte of PRAM, or faults and moves nothing. -/
def Obligations.BsRdxFillsPram : Prop :=
  wordMeans 0x13 [(23, 16)] (fun f => .bsRdx (f 15 0)) ∧
  ∀ (s : State) (n : Nat), s.status.fault = false → s.pram.wf →
    (n ≤ 512 → s.stream.pos + n ≤ s.src.length → ∃ m : Memory,
      exec (.bsRdx n) s = .next { s with
        pram := m, stream := { s.stream with pos := s.stream.pos + n, nunrd := 0 }, result := 0, ccnt := s.ccnt + 1 } ∧
      m.wf ∧ (∀ i, i < n → some (m.byte i) = s.src[s.stream.pos + i]?) ∧ ∀ a, n ≤ a → m.byte a = s.pram.byte a) ∧
    (512 < n → refuses (.bsRdx n) s .illegalOperand) ∧
    (n ≤ 512 → s.src.length < s.stream.pos + n → refuses (.bsRdx n) s .unexpectedEndOfStream)

/-- R118: BS.SKIP moves the cursor `n` raw bytes on, or faults and leaves it. -/
def Obligations.BsSkipAdvances : Prop :=
  wordMeans 0x14 [(23, 16)] (fun f => .bsSkip (f 15 0)) ∧
  ∀ (s : State) (n : Nat), s.status.fault = false →
    (s.stream.pos + n ≤ s.src.length →
      exec (.bsSkip n) s = .next { s with
        stream := { s.stream with pos := s.stream.pos + n, nunrd := 0 }, result := 0, ccnt := s.ccnt + 1 }) ∧
    (s.src.length < s.stream.pos + n → refuses (.bsSkip n) s .unexpectedEndOfStream)

/-! ### U2: bit accumulator -/

/-- R135 with R130 and R111: BA.ENS pulls stuffed bytes one at a time while fewer than `n` bits are held. Each clause takes one round of the loop
off; together they fix the whole run. A failing read consumes nothing and leaves NUNRD = 0. -/
def Obligations.BaEnsPullsStuffedBytes : Prop :=
  wordMeans 0x20 [(23, 5)] (fun f => .baEns (f 4 0)) ∧
  ∀ (s : State) (n : Nat), s.status.fault = false →
    (n < 1 ∨ 16 < n → refuses (.baEns n) s .illegalOperand) ∧
    (1 ≤ n → n ≤ 16 →
      (n ≤ s.stream.cnt → exec (.baEns n) s = .next { s with result := 0, ccnt := s.ccnt + 1 }) ∧
      (s.stream.cnt < n →
        (∀ b, s.src[s.stream.pos]? = some b → b ≠ 0xFF →
          exec (.baEns n) s = exec (.baEns n) { s with
            stream := ⟨s.stream.pos + 1, 1, s.stream.acc <<< 8 ||| b.setWidth 32, s.stream.cnt + 8⟩ }) ∧
        (s.src[s.stream.pos]? = some 0xFF → s.src[s.stream.pos + 1]? = some 0x00 →
          exec (.baEns n) s = exec (.baEns n) { s with
            stream := ⟨s.stream.pos + 2, 2, s.stream.acc <<< 8 ||| 0xFF, s.stream.cnt + 8⟩ }) ∧
        (∀ c, s.src[s.stream.pos]? = some 0xFF → s.src[s.stream.pos + 1]? = some c → c ≠ 0x00 →
          exec (.baEns n) s = .next { s with
            stream := { s.stream with nunrd := 0 }, status := ⟨s.status.busy, true, 0x10⟩, finfo := s.cmd }) ∧
        (s.src[s.stream.pos]? = none ∨ (s.src[s.stream.pos]? = some 0xFF ∧ s.src[s.stream.pos + 1]? = none) →
          exec (.baEns n) s = .next { s with
            stream := { s.stream with nunrd := 0 }, status := ⟨s.status.busy, true, 0x01⟩, finfo := s.cmd })))

/-- R136 to R138 with R131 to R133: BA.RDBITS n is BA.ENS n and then the top `n` of the bits held; BA.RDBIT is BA.RDBITS 1; BA.RCVX t is
BA.RDBITS t and then EXTEND, and BA.RCVX 0 reads nothing. Where the first half faults, so does the whole, in the same state. -/
def Obligations.BitReadsFromTheAccumulator : Prop :=
  wordMeans 0x21 [(23, 0)] (fun _ => .baRdbit) ∧ wordMeans 0x22 [(23, 5)] (fun f => .baRdbits (f 4 0)) ∧
  wordMeans 0x23 [(23, 5)] (fun f => .baRcvx (f 4 0)) ∧
  ∀ (s : State) (n : Nat), s.status.fault = false →
    (n < 1 ∨ 16 < n → refuses (.baRdbits n) s .illegalOperand) ∧
    (16 < n → refuses (.baRcvx n) s .illegalOperand) ∧
    exec .baRdbit s = exec (.baRdbits 1) s ∧
    exec (.baRcvx 0) s = .next { s with result := 0, ccnt := s.ccnt + 1 } ∧
    (1 ≤ n → n ≤ 16 →
      (∀ u, exec (.baEns n) s = .next u →
        exec (.baRdbits n) s = .next (if u.status.fault then u else { u with
          stream := { u.stream with
            cnt := u.stream.cnt - n
            acc := BitVec.ofNat 32 (u.stream.acc.toNat % 2 ^ (u.stream.cnt - n)) }
          result := BitVec.ofNat 32 (u.stream.acc.toNat / 2 ^ (u.stream.cnt - n) % 2 ^ n) })) ∧
      (∀ u, exec (.baRdbits n) s = .next u →
        exec (.baRcvx n) s = .next (if u.status.fault then u else { u with
          result := if u.result.toNat < 2 ^ (n - 1) then w32 (u.result.toNat - 2 ^ n + 1) else u.result })))

/-- R141, R63 (a), R140: the bit commands serve the de-stuffed stream in order, first-arrived bit most significant, from any state that meets the
invariant: the bits held, then the source with each 0xFF 0x00 as one 0xFF. Too few bits: the fault of the read that stops the stream. -/
def Obligations.BitReadsServeTheDestuffedStream : Prop :=
  ∀ (s : State) (n : Nat), s.status.fault = false → s.Inv → n ≤ 16 →
    let bits := pending s.src s.stream
    (n ≤ bits.length →
      (1 ≤ n → ∃ t, exec (.baEns n) s = .next { s with stream := t, result := 0, ccnt := s.ccnt + 1 } ∧
        pending s.src t = bits ∧ n ≤ t.cnt ∧ t.cnt ≤ max s.stream.cnt (n + 7) ∧ t.Inv s.src.length) ∧
      (1 ≤ n → ∃ t, exec (.baRdbits n) s = .next { s with
          stream := t, result := BitVec.ofNat 32 (bitsValue (bits.take n)), ccnt := s.ccnt + 1 } ∧
        pending s.src t = bits.drop n ∧ t.Inv s.src.length) ∧
      (n = 1 → ∃ t, exec .baRdbit s = .next { s with
          stream := t, result := BitVec.ofNat 32 (bitsValue (bits.take 1)), ccnt := s.ccnt + 1 } ∧
        pending s.src t = bits.drop 1 ∧ t.Inv s.src.length) ∧
      (∃ t, exec (.baRcvx n) s = .next { s with
          stream := t
          result := w32 (if n = 0 ∨ 2 ^ (n - 1) ≤ bitsValue (bits.take n) then bitsValue (bits.take n)
            else bitsValue (bits.take n) - 2 ^ n + 1)
          ccnt := s.ccnt + 1 } ∧
        pending s.src t = bits.drop n ∧ t.Inv s.src.length)) ∧
    (bits.length < n →
      raises (.baEns n) s (shortage s.src s.stream) ∧ raises (.baRdbits n) s (shortage s.src s.stream) ∧
      raises (.baRcvx n) s (shortage s.src s.stream) ∧ (n = 1 → raises .baRdbit s (shortage s.src s.stream)))

/-- R139 with R134: BA.RST empties the accumulator and leaves the cursor; what is pending after it begins with bit 7 of the byte at `pos`. -/
def Obligations.BaRstEmptiesTheAccumulator : Prop :=
  wordMeans 0x24 [(23, 0)] (fun _ => .baRst) ∧
  ∀ s : State, s.status.fault = false →
    exec .baRst s = .next { s with stream := ⟨s.stream.pos, s.stream.nunrd, 0, 0⟩, result := 0, ccnt := s.ccnt + 1 } ∧
    pending s.src ⟨s.stream.pos, s.stream.nunrd, 0, 0⟩ = (destuff (s.src.drop s.stream.pos)).flatMap fun b => natBits 8 b.toNat

/-! ### U3: Huffman tables -/

/-- R155 with R150 to R153: HT.BUILD refuses what R151 refuses; else it writes all fields of HT[tc][th] as the loops of R152 and R153 give them,
RESULT is the number of codes, and the other seven tables stay. -/
def Obligations.HtBuildMakesTheCanonicalTable : Prop :=
  wordMeans 0x30 [(23, 8)] (fun f => .htBuild (f 7 4) (f 3 0)) ∧
  ∀ s : State, s.status.fault = false →
    let counts := (List.range 16).map fun i => (s.pram.byte i).toNat
    let rows := numbering counts 0 0
    let entry := fun L => rows[L - 1]?.getD (-1, -1, -1)
    (∀ tc th, 1 < tc ∨ 3 < th ∨ counts.sum = 0 ∨ 256 < counts.sum ∨ overfull counts 1 0 = true →
      refuses (.htBuild tc th) s .invalidTable) ∧
    (∀ (tc : Fin 2) (th : Fin 4), counts.sum ≠ 0 → counts.sum ≤ 256 → overfull counts 1 0 = false →
      ∃ T : HuffTable,
        exec (.htBuild tc.val th.val) s = .next { s with
          ht := s.ht.set tc (s.ht[tc].set th T), result := BitVec.ofNat 32 counts.sum, ccnt := s.ccnt + 1 } ∧
        T.nCodes = counts.sum ∧
        (∀ L : Fin 16, T.counts[L] = s.pram.byte L.val ∧ (T.minCode[L], T.maxCode[L], T.valsIndex[L]) = entry (L.val + 1)) ∧
        (∀ i : Fin 256, T.vals[i] = if i.val < counts.sum then s.pram.byte (16 + i.val) else 0) ∧
        ∀ i : Fin 256, T.lut[i] = lutFill (fun L => counts[L - 1]?.getD 0) (fun L => (entry L).1.toNat) (fun L => (entry L).2.2.toNat)
          (fun n => s.pram.byte (16 + n)) i.val)

/-- R43, R154 (b): in a table HT.BUILD made the total is the sum of the counts, and for every length with codes
minCode + counts - 1 = maxCode < 2^L. -/
def Obligations.BuiltTablesAreConsistent : Prop := ∀ T : HuffTable, T.built → T.consistent

/-- R154 (a): the codes of a built table are prefix-free: no code of length `L` begins a code of length `M`, unless it is that code. -/
def Obligations.BuiltCodesArePrefixFree : Prop :=
  ∀ (T : HuffTable) (L M : Fin 16) (v w : Int), T.built → L ≤ M →
    T.counts[L] ≠ 0 → T.minCode[L] ≤ v → v ≤ T.maxCode[L] →
    T.counts[M] ≠ 0 → T.minCode[M] ≤ w → w ≤ T.maxCode[M] →
    w / 2 ^ (M.val - L.val) = v → L = M ∧ v = w

/-- R158 with R157 and R154 (d): HT.DEC serves the symbol of the one code the pending bits begin with, whichever path finds it, and consumes
exactly its bits; else it faults as R157 says. An undefined table is refused before any bit is pulled (R264). -/
def Obligations.HtDecServesOneCode : Prop :=
  (∀ (s : State) (tc th : Nat), s.status.fault = false → 1 < tc ∨ 3 < th → refuses (.htDec tc th) s .illegalOperand) ∧
  ∀ (s : State) (tc : Fin 2) (th : Fin 4), s.status.fault = false →
    (s.ht[tc][th].nCodes = 0 → refuses (.htDec tc.val th.val) s .uninitializedTable) ∧
    (s.Inv → s.ht[tc][th].nCodes ≠ 0 →
      match symbol (shortage s.src s.stream) s.ht[tc][th] (pending s.src s.stream) with
      | .ok (b, rest) => ∃ t, exec (.htDec tc.val th.val) s = .next { s with stream := t, result := b.setWidth 32, ccnt := s.ccnt + 1 } ∧
          pending s.src t = rest ∧ t.Inv s.src.length
      | .error f => raises (.htDec tc.val th.val) s f)

/-- R154 (a), band0's canonical property: "decoding every emitted code returns its original symbol". When the pending bits begin with code `j` of
length `L + 1`, HT.DEC returns the symbol that belongs to it and consumes those bits. -/
def Obligations.HtDecReturnsTheEmittedSymbol : Prop :=
  ∀ (s : State) (tc : Fin 2) (th : Fin 4) (L : Fin 16) (j : Nat), s.status.fault = false → s.Inv →
    let T := s.ht[tc][th]
    T.nCodes ≠ 0 → j < T.counts[L].toNat →
    natBits (L.val + 1) (T.minCode[L].toNat + j) <+: pending s.src s.stream →
    ∃ (b : Byte) (t : Stream), T.vals[T.valsIndex[L].toNat + j]? = some b ∧
      exec (.htDec tc.val th.val) s = .next { s with stream := t, result := b.setWidth 32, ccnt := s.ccnt + 1 } ∧
      pending s.src t = (pending s.src s.stream).drop (L.val + 1)

/-! ### U4: coefficient load -/

/-- R175: CL.CLR. -/
def Obligations.ClClrClearsTheBlock : Prop :=
  wordMeans 0x40 [(23, 0)] (fun _ => .clClr) ∧
  ∀ s : State, s.status.fault = false → ∃ blk : Vector Word 64,
    exec .clClr s = .next { s with coef := blk, result := 0, ccnt := s.ccnt + 1 } ∧ ∀ n : Fin 64, blk[n] = 0

/-- R182: CL.SCAN. -/
def Obligations.ClScanStartsAScan : Prop :=
  wordMeans 0x47 [(23, 0)] (fun _ => .clScan) ∧
  ∀ s : State, s.status.fault = false →
    exec .clScan s = .next { s with
      stream := ⟨s.stream.pos, 0, 0, 0⟩, dcpred := #v[0, 0, 0, 0], eobrun := 0, rstexp := 0, result := 0, ccnt := s.ccnt + 1 }

/-- R181: CL.RSTM. `p` is where its two raw reads start, after ReturnOvershoot (R113). -/
def Obligations.ClRstmTakesTheExpectedMarker : Prop :=
  wordMeans 0x46 [(23, 0)] (fun _ => .clRstm) ∧
  ∀ s : State, s.status.fault = false →
    let p := if s.stream.nunrd ≠ 0 ∧ 8 ≤ s.stream.cnt then s.stream.pos - s.stream.nunrd.val else s.stream.pos
    (s.src[p]? = some 0xFF → s.src[p + 1]? = some (0xD0 + BitVec.ofNat 8 s.rstexp.val) →
      exec .clRstm s = .next { s with
        stream := ⟨p + 2, 0, 0, 0⟩, rstexp := s.rstexp + 1, dcpred := #v[0, 0, 0, 0], eobrun := 0, result := 0, ccnt := s.ccnt + 1 }) ∧
    (∀ b c, s.src[p]? = some b → s.src[p + 1]? = some c → b ≠ 0xFF ∨ c ≠ 0xD0 + BitVec.ofNat 8 s.rstexp.val →
      raises .clRstm s .badRestartMarker) ∧
    (s.src.length ≤ p + 1 → raises .clRstm s .unexpectedEndOfStream)

/-- R176 with R170 to R172, as a refinement: CL.BLK does to COEF and DCPRED[comp] what the block decoder over the pending bit string gives, uses up
exactly its bits, writes nothing else, and faults exactly where that decoder fails, with its fault. -/
def Obligations.ClBlkDecodesABaselineBlock : Prop :=
  (∀ (s : State) (comp : Fin 4) (td ta : Nat), s.status.fault = false → 3 < td ∨ 3 < ta → refuses (.clBlk comp td ta) s .illegalOperand) ∧
  ∀ (s : State) (comp td ta : Fin 4), s.status.fault = false → s.Inv →
    match block (shortage s.src s.stream) s.ht[0][td] s.ht[1][ta] s.dcpred[comp] (pending s.src s.stream) with
    | .ok ((p, c), rest) => ∃ t,
        exec (.clBlk comp td.val ta.val) s = .next { s with
          stream := t, coef := c, dcpred := s.dcpred.set comp p, result := 0, ccnt := s.ccnt + 1 } ∧
        pending s.src t = rest ∧ t.Inv s.src.length
    | .error f => raises (.clBlk comp td.val ta.val) s f

/-- R177 with R171, in terms of the commands that decode alone: CL.DCF is HT.DEC on the DC table, BA.RCVX of the size it gives, then the predictor
and COEF[0]; where one of the two faults, CL.DCF faults with it. -/
def Obligations.ClDcfAccumulatesTheDifference : Prop :=
  wordMeans 0x42 [(23, 22), (21, 16), (15, 10)] (fun f => .clDcf (Fin.ofNat 4 (f 9 8)) (f 7 4) (f 3 0)) ∧
  ∀ (s : State) (comp : Fin 4) (slot al : Nat), s.status.fault = false →
    (13 < al ∨ 3 < slot → refuses (.clDcf comp slot al) s .illegalOperand) ∧
    (al ≤ 13 → slot ≤ 3 → ∀ u, exec (.htDec 0 slot) s = .next u →
      (u.status.fault = true → exec (.clDcf comp slot al) s = .next u) ∧
      (u.status.fault = false → 16 < u.result.toNat → raises (.clDcf comp slot al) s .badCoefficientSize) ∧
      (u.status.fault = false → u.result.toNat ≤ 16 → ∀ v, exec (.baRcvx u.result.toNat) u = .next v →
        (v.status.fault = true → exec (.clDcf comp slot al) s = .next { v with result := s.result, ccnt := s.ccnt }) ∧
        (v.status.fault = false → exec (.clDcf comp slot al) s = .next { v with
          dcpred := s.dcpred.set comp (s.dcpred[comp] + v.result)
          coef := s.coef.set 0 ((s.dcpred[comp] + v.result) <<< al)
          result := 0, ccnt := s.ccnt + 1 })))

/-- CL.DCF and CL.DCR complete wherever the bit string holds what they read (R171, R177, R178). -/
def Obligations.DcCommandsComplete : Prop :=
  ∀ (s : State) (comp slot : Fin 4) (al : Nat), s.status.fault = false → s.Inv → al ≤ 13 →
    (match dcDiff (shortage s.src s.stream) s.ht[0][slot] (pending s.src s.stream) with
     | .ok (d, rest) => ∃ t,
        exec (.clDcf comp slot.val al) s = .next { s with
          stream := t, dcpred := s.dcpred.set comp (s.dcpred[comp] + w32 d), coef := s.coef.set 0 ((s.dcpred[comp] + w32 d) <<< al)
          result := 0, ccnt := s.ccnt + 1 } ∧
        pending s.src t = rest ∧ t.Inv s.src.length
     | .error f => raises (.clDcf comp slot.val al) s f) ∧
    (∀ b rest, pending s.src s.stream = b :: rest → ∃ t,
        exec (.clDcr al) s = .next { s with
          stream := t, coef := if b then s.coef.set 0 (s.coef[0] ||| BitVec.ofNat 32 (2 ^ al)) else s.coef
          result := 0, ccnt := s.ccnt + 1 } ∧
        pending s.src t = rest ∧ t.Inv s.src.length)

/-- R178, in terms of BA.RDBIT: CL.DCR reads one bit and sets bit `al` of COEF[0] when it is 1; where the read faults, so does CL.DCR. -/
def Obligations.ClDcrSetsOneBit : Prop :=
  wordMeans 0x43 [(23, 22), (21, 16), (15, 10), (9, 8), (7, 4)] (fun f => .clDcr (f 3 0)) ∧
  ∀ (s : State) (al : Nat), s.status.fault = false →
    (13 < al → refuses (.clDcr al) s .illegalOperand) ∧
    (al ≤ 13 → ∀ u, exec .baRdbit s = .next u →
      exec (.clDcr al) s = .next (if u.status.fault then u else { u with
        coef := if u.result = 1 then s.coef.set 0 (s.coef[0] ||| BitVec.ofNat 32 (2 ^ al)) else s.coef
        result := 0 }))

/-- R179, as a refinement: inside an end-of-band run CL.ACF counts the run down and reads nothing; else it does what the band decoder over the
pending bit string gives, or faults with its fault. -/
def Obligations.ClAcfDecodesABand : Prop :=
  (∀ (s : State) (slot ss se al : Nat), s.status.fault = false → 13 < al ∨ 3 < slot ∨ ss = 0 ∨ se < ss →
    refuses (.clAcf slot ss se al) s .illegalOperand) ∧
  ∀ (s : State) (slot : Fin 4) (ss se al : Nat), s.status.fault = false → al ≤ 13 → 1 ≤ ss → ss ≤ se → se ≤ 63 →
    (s.eobrun ≠ 0 →
      exec (.clAcf slot.val ss se al) s = .next { s with eobrun := s.eobrun - 1, result := 0, ccnt := s.ccnt + 1 }) ∧
    (s.eobrun = 0 → s.Inv →
      match bandFirst (shortage s.src s.stream) s.ht[1][slot] se al 64 ss s.coef (pending s.src s.stream) with
      | .ok ((c, run), rest) => ∃ t,
          exec (.clAcf slot.val ss se al) s = .next { s with
            stream := t, coef := c, eobrun := BitVec.ofNat 16 run, result := 0, ccnt := s.ccnt + 1 } ∧
          pending s.src t = rest ∧ t.Inv s.src.length
      | .error f => raises (.clAcf slot.val ss se al) s f)

/-- R180 with R174, as a refinement: CL.ACR does to COEF and EOBRUN what the refinement decoder over the pending bit string gives, or faults with
its fault. -/
def Obligations.ClAcrRefinesABand : Prop :=
  (∀ (s : State) (slot ss se al : Nat), s.status.fault = false → 13 < al ∨ 3 < slot ∨ ss = 0 ∨ se < ss →
    refuses (.clAcr slot ss se al) s .illegalOperand) ∧
  ∀ (s : State) (slot : Fin 4) (ss se al : Nat), s.status.fault = false → s.Inv → al ≤ 13 → 1 ≤ ss → ss ≤ se → se ≤ 63 →
    match blockRefine (shortage s.src s.stream) s.ht[1][slot] ss se al s.eobrun.toNat s.coef (pending s.src s.stream) with
    | .ok ((c, run), rest) => ∃ t,
        exec (.clAcr slot.val ss se al) s = .next { s with
          stream := t, coef := c, eobrun := BitVec.ofNat 16 run, result := 0, ccnt := s.ccnt + 1 } ∧
        pending s.src t = rest ∧ t.Inv s.src.length
    | .error f => raises (.clAcr slot.val ss se al) s f

/-- R299: CL.DCF and CL.DCR write only COEF[0], CL.ACF and CL.ACR only the coefficients UNZIG[ss..se]. -/
def Obligations.ProgressiveCommandsStayInTheirBand : Prop :=
  ∀ (s t : State), s.status.fault = false → t.status.fault = false →
    (∀ (comp : Fin 4) (slot al : Nat), exec (.clDcf comp slot al) s = .next t ∨ exec (.clDcr al) s = .next t →
      ∀ n : Fin 64, n ≠ 0 → t.coef[n] = s.coef[n]) ∧
    (∀ slot ss se al : Nat, exec (.clAcf slot ss se al) s = .next t ∨ exec (.clAcr slot ss se al) s = .next t →
      ∀ z : Fin 64, z.val < ss ∨ se < z.val → t.coef[unzig z] = s.coef[unzig z])

/-! ### U5: quantization -/

/-- R200: QT.LOAD writes all 64 entries of one slot, 8-bit or 16-bit high byte first, and marks it defined. -/
def Obligations.QtLoadReadsPram : Prop :=
  wordMeans 0x50 [(23, 8)] (fun f => .qtLoad (f 7 4) (f 3 0)) ∧
  ∀ s : State, s.status.fault = false →
    (∀ pq tq, 1 < pq ∨ 3 < tq → refuses (.qtLoad pq tq) s .invalidQuantTable) ∧
    (∀ (pq : Nat) (tq : Fin 4), pq ≤ 1 → ∃ q : QuantTable,
      exec (.qtLoad pq tq.val) s = .next { s with
        qt := s.qt.set tq q, qtdef := s.qtdef.set tq true, result := 0, ccnt := s.ccnt + 1 } ∧
      ∀ z : Fin 64, q[z].toNat =
        if pq = 0 then (s.pram.byte z.val).toNat else (s.pram.byte (2 * z.val)).toNat * 2 ^ 8 + (s.pram.byte (2 * z.val + 1)).toNat)

/-- R201: XF.CFG selects the variant the numbering of R35 gives, for one component. -/
def Obligations.XfCfgSelectsTheVariant : Prop :=
  wordMeans 0x51 [(23, 10), (7, 4), (3, 3)] (fun f => .xfCfg (Fin.ofNat 4 (f 9 8)) (f 2 0)) ∧
  ∀ (s : State) (comp : Fin 4), s.status.fault = false →
    (∀ v : Variant, exec (.xfCfg comp v.code) s = .next { s with xcfg := s.xcfg.set comp v, result := 0, ccnt := s.ccnt + 1 }) ∧
    (∀ v, v ≤ 5 → ∃ v' : Variant, v'.code = v) ∧
    (∀ v, 5 < v → refuses (.xfCfg comp v) s .illegalOperand)

/-- R205 with R202 and R203: XF.DQ writes every entry of DQB, the coefficient at UNZIG[z] times the multiplier of table entry z for the variant's
kind, and the tag. -/
def Obligations.XfDqDequantizes : Prop :=
  wordMeans 0x52 [(23, 10), (7, 4)] (fun f => .xfDq (Fin.ofNat 4 (f 9 8)) (f 3 0)) ∧
  ∀ (s : State) (comp : Fin 4), s.status.fault = false →
    (∀ tq, 3 < tq → refuses (.xfDq comp tq) s .illegalOperand) ∧
    (∀ tq : Fin 4, s.qtdef[tq] = false → refuses (.xfDq comp tq.val) s .missingQuantTable) ∧
    (∀ tq : Fin 4, s.qtdef[tq] = true →
      let kind : Kind := match s.xcfg[comp] with
        | .acc => .plain | .fast => .scaled | .flt => .float | .red4 => .plain | .red2 => .plain | .red1 => .plain
      ∃ d : Vector Word 64,
        exec (.xfDq comp tq.val) s = .next { s with dqb := d, dqtag := ⟨true, kind⟩, result := 0, ccnt := s.ccnt + 1 } ∧
        ∀ z : Fin 64,
          let n := unzig z
          let q := s.qt[tq][z]
          d[n] = match kind with
            | .plain => w32 (s.coef[n].toInt * q.toNat)
            | .scaled => w32 (s.coef[n].toInt * ((q.toNat * aan14[n] + 2048) / 4096 : Nat))
            | .float => F32.mul (F32.i2f s.coef[n]) (F32.mul (F32.i2f (q.setWidth 32)) aanF32[n]))

/-- R203: the kind-1 multiplier is an integer of 0..504328, and the maximum is reached. -/
def Obligations.ScaledMultiplierBound : Prop :=
  (∀ (q : Half) (n : Fin 64), scaledMultiplier q n ≤ 504328) ∧ ∃ q n, scaledMultiplier q n = 504328

/-- R10: UNZIG is a bijection on 0..63 that walks the 15 anti-diagonals, row decreasing where row + column is even, increasing where it is odd. -/
def Obligations.ZigZagWalksTheAntiDiagonals : Prop :=
  unzig 0 = 0 ∧ unzig 63 = 63 ∧ (∀ n : Fin 64, unzig (zigPos n).val = n) ∧ (∀ z : Fin 64, zigPos (unzig z.val) = z) ∧
  ∀ z : Fin 63,
    let r := (unzig z.val).val / 8
    let c := (unzig z.val).val % 8
    let r' := (unzig (z.val + 1)).val / 8
    let c' := (unzig (z.val + 1)).val % 8
    (r' + c' = r + c ∧ (if (r + c) % 2 = 0 then r' + 1 = r else r' = r + 1)) ∨
      (r' + c' = r + c + 1 ∧ (if (r + c) % 2 = 0 then r = 0 ∨ c = 7 else c = 0 ∨ r = 7))

/-! ### U6: inverse transform -/

/-- R225 with R222, R224, R232 and R236: XF.IDCT refuses a DQB of another kind; else it writes the N × N samples of the selected variant, sample by
sample as the two passes give them, and keeps the rest of SAMP and everything else. -/
def Obligations.XfIdctTransforms : Prop :=
  wordMeans 0x53 [(23, 10), (7, 4), (3, 0)] (fun f => .xfIdct (Fin.ofNat 4 (f 9 8))) ∧
  ∀ (s : State) (comp : Fin 4), s.status.fault = false →
    (s.dqtag.valid = false ∨ s.dqtag.kind ≠ s.xcfg[comp].kind → refuses (.xfIdct comp) s .sequenceError) ∧
    (s.dqtag.valid = true → s.dqtag.kind = s.xcfg[comp].kind →
      ∃ p : Vector Byte 64, exec (.xfIdct comp) s = .next { s with samp := p, result := 0, ccnt := s.ccnt + 1 } ∧
        (∀ i : Fin 64, s.xcfg[comp].side * s.xcfg[comp].side ≤ i.val → p[i] = s.samp[i]) ∧
        let b := fun n => s.dqb[n]?.getD 0
        match s.xcfg[comp] with
        | .acc => ∀ r c : Fin 8, p[8 * r.val + c.val] = sampleAt [1, 2, 3, 4, 5, 6, 7] (fun i k => (acc1D i)[k]?.getD 0)
            (descale · 11) (· <<< 2) (descale · 18) (descale · 5) b r.val c.val
        | .fast => ∀ r c : Fin 8, p[8 * r.val + c.val] = sampleAt [1, 2, 3, 4, 5, 6, 7] (fun i k => (fast1D i)[k]?.getD 0)
            (fun x => x) (fun x => x) (·.sshiftRight 5) (·.sshiftRight 5) b r.val c.val
        | .flt => ∀ r c : Fin 8, p[8 * r.val + c.val] =
            rangeLimit (descale (w32 (F32.trunc
              (flt1D (Vector.ofFn fun x => (flt1D (Vector.ofFn fun y => s.dqb[8 * y.val + x.val]))[r]))[c])) 3)
        | .red4 => ∀ r c : Fin 4, p[4 * r.val + c.val] = sampleAt [1, 2, 3, 5, 6, 7] (fun i k => (red4OneD i)[k]?.getD 0)
            (descale · 12) (· <<< 2) (descale · 19) (descale · 5) b r.val c.val
        | .red2 => ∀ r c : Fin 2, p[2 * r.val + c.val] = sampleAt [1, 3, 5, 7] (fun i k => (red2OneD i)[k]?.getD 0)
            (descale · 13) (· <<< 2) (descale · 20) (descale · 5) b r.val c.val
        | .red1 => p[0] = BitVec.ofInt 8 (max 0 (min 255 ((descale s.dqb[0] 3).toInt + 128))))

/-- R226: XF.RUN is XF.DQ and then XF.IDCT, counted once; SequenceError cannot occur. -/
def Obligations.XfRunIsDqThenIdct : Prop :=
  wordMeans 0x54 [(23, 10), (7, 4)] (fun f => .xfRun (Fin.ofNat 4 (f 9 8)) (f 3 0)) ∧
  ∀ (s : State) (comp : Fin 4) (tq : Nat), s.status.fault = false →
    ∀ u, exec (.xfDq comp tq) s = .next u →
      (u.status.fault = true → exec (.xfRun comp tq) s = .next u) ∧
      (u.status.fault = false → ∃ v, exec (.xfIdct comp) u = .next v ∧ v.status.fault = false ∧
        exec (.xfRun comp tq) s = .next { v with ccnt := s.ccnt + 1 })

/-- XF.RUN completes on every loaded slot, with every variant (R226). -/
def Obligations.XfRunCompletes : Prop :=
  ∀ (s : State) (comp tq : Fin 4), s.status.fault = false → s.qtdef[tq] = true →
    ∃ (d : Vector Word 64) (p : Vector Byte 64) (k : Kind),
      exec (.xfRun comp tq.val) s = .next { s with
        dqb := d, dqtag := ⟨true, k⟩, samp := p, result := 0, ccnt := s.ccnt + 1 }

/-- R222: the range limit is the exact clamp of x + 128, for every i32 x. -/
def Obligations.RangeLimitClamps : Prop :=
  ∀ x : Word, (x.toInt + 128 < 0 → rangeLimit x = 0) ∧ (255 < x.toInt + 128 → rangeLimit x = 255) ∧
    (0 ≤ x.toInt + 128 → x.toInt + 128 ≤ 255 → ((rangeLimit x).toNat : Int) = x.toInt + 128)

/-- R223, R224, R232, R236: a block whose AC terms are all zero gives one value at every sample, the short form of both passes; in FLT the early
exit cannot be told from the full kernel, for every finite DC term. -/
def Obligations.DcOnlyBlocksAreFlat : Prop :=
  ∀ (s : State) (comp : Fin 4), s.status.fault = false → s.dqtag.valid = true → s.dqtag.kind = s.xcfg[comp].kind →
    (∀ n : Fin 64, n ≠ 0 → s.dqb[n] = 0) → (s.xcfg[comp] = .flt → F32.finite s.dqb[0] = true) →
    ∃ p : Vector Byte 64, exec (.xfIdct comp) s = .next { s with samp := p, result := 0, ccnt := s.ccnt + 1 } ∧
      ∀ i : Fin 64, i.val < s.xcfg[comp].side * s.xcfg[comp].side →
        p[i] = match s.xcfg[comp] with
          | .acc => rangeLimit (descale (s.dqb[0] <<< 2) 5)
          | .fast => rangeLimit (s.dqb[0].sshiftRight 5)
          | .flt => rangeLimit (descale (w32 (F32.trunc s.dqb[0])) 3)
          | .red4 => rangeLimit (descale (s.dqb[0] <<< 2) 5)
          | .red2 => rangeLimit (descale (s.dqb[0] <<< 2) 5)
          | .red1 => rangeLimit (descale s.dqb[0] 3)

/-- R223: where nothing wraps, the short forms of both passes are what the full kernels give on a line whose AC terms are zero; the ranges are the
widest in which no intermediate of the kernel or of DESCALE leaves the i32 range. For ACC at 2^20 the two differ, by 255 and 128 in SAMP. -/
def Obligations.ShortFormsEqualTheKernels : Prop :=
  let line := fun x : Word => (#v[x, 0, 0, 0, 0, 0, 0, 0] : Line)
  (∀ x : Word, -2 ^ 18 ≤ x.toInt → x.toInt + 16 < 2 ^ 18 →
    ∀ k : Fin 8, descale (acc1D (line x))[k] 11 = x <<< 2 ∧ descale (acc1D (line x))[k] 18 = descale x 5) ∧
  (∀ (x : Word) (k : Fin 8), (fast1D (line x))[k] = x) ∧
  (∀ x : Word, -2 ^ 17 ≤ x.toInt → x.toInt + 16 < 2 ^ 17 →
    ∀ k : Fin 4, descale (red4OneD (line x))[k] 12 = x <<< 2 ∧ descale (red4OneD (line x))[k] 19 = descale x 5) ∧
  (∀ x : Word, -2 ^ 16 ≤ x.toInt → x.toInt + 16 < 2 ^ 16 →
    ∀ k : Fin 2, descale (red2OneD (line x))[k] 13 = x <<< 2 ∧ descale (red2OneD (line x))[k] 20 = descale x 5) ∧
  rangeLimit (descale ((2 ^ 20 : Word) <<< 2) 5) = 255 ∧
  rangeLimit (descale (acc1D (line (descale (acc1D (line (2 ^ 20)))[0] 11)))[0] 18) = 128

/-- R224: "RED4 ignores column 4 and row 4 of DQB; RED2 ignores columns and rows 2, 4, 6". -/
def Obligations.ReducedVariantsIgnoreTheUnusedTerms : Prop :=
  ∀ (b b' : Vector Word 64) (p : Vector Byte 64),
    ((∀ r c : Fin 8, r ≠ 4 → c ≠ 4 → b[8 * r.val + c.val] = b'[8 * r.val + c.val]) → transformed .red4 b p = transformed .red4 b' p) ∧
    ((∀ r c : Fin 8, r ∉ [2, 4, 6] → c ∉ [2, 4, 6] → b[8 * r.val + c.val] = b'[8 * r.val + c.val]) →
      transformed .red2 b p = transformed .red2 b' p)

/-- R11: RN32 as the model computes it gives a pattern exactly for a magnitude below `(2^25 - 1) * 2^401` units of 2^-298, half a last place
above the greatest finite value `(2^24 - 1) * 2^402`; the pattern is a binary32 value nearest to the exact one among all finite ones, the
even one of two equally near. Where the exact result is at or above that bound the operation gives a free value (log 14). -/
def Obligations.RoundingIsToNearestEven : Prop :=
  ∀ n : Nat,
    ((∃ p, F32.roundMagnitude n = some p) ↔ n < (2 ^ 25 - 1) * 2 ^ 401) ∧
    ∀ p, F32.roundMagnitude n = some p →
      p < 0x7F800000 ∧
      ∀ q, q < 0x7F800000 →
        distance n (magnitude p) ≤ distance n (magnitude q) ∧ (q ≠ p → distance n (magnitude p) = distance n (magnitude q) → p % 2 = 0)

/-- R11: (+), (-), (*) and i2f round the exact result once; trunc cuts toward zero. `F32.units` is a finite value in units of 2^-149. That a zero
product has the exclusive or of the signs is presumed from IEEE 754 (log 14). -/
def Obligations.BinaryOperationsRoundTheExactResult : Prop :=
  ∀ a b : Word, F32.finite a = true → F32.finite b = true →
    (∀ p, F32.roundMagnitude ((F32.units a + F32.units b).natAbs * 2 ^ 149) = some p →
      (F32.add a b).toNat % 2 ^ 31 = p ∧ (F32.units a + F32.units b ≠ 0 → (F32.add a b).msb = decide (F32.units a + F32.units b < 0))) ∧
    (∀ p, F32.roundMagnitude ((F32.units a - F32.units b).natAbs * 2 ^ 149) = some p →
      (F32.sub a b).toNat % 2 ^ 31 = p ∧ (F32.units a - F32.units b ≠ 0 → (F32.sub a b).msb = decide (F32.units a - F32.units b < 0))) ∧
    (∀ p, F32.roundMagnitude (F32.units a * F32.units b).natAbs = some p →
      (F32.mul a b).toNat % 2 ^ 31 = p ∧ (F32.mul a b).msb = (a.msb != b.msb)) ∧
    (∀ x : Word, ∃ p, F32.roundMagnitude (x.toInt.natAbs * 2 ^ 298) = some p ∧ (F32.i2f x).toNat % 2 ^ 31 = p ∧
      (F32.i2f x).msb = x.msb) ∧
    F32.trunc a = Int.tdiv (F32.units a) (2 ^ 149)

end
end

