-- ==== Sys2Proof/Laws/State.lean ====
section
/-! SUPPORT. What each named update of the state does to each field, one lemma a field. -/

namespace Sys2Proof.Machine

/-! ### `State.raise` -/

@[simp] theorem State.raise_cmd (s : State) (f : FaultCode) : (s.raise f).cmd = s.cmd := rfl
@[simp] theorem State.raise_status (s : State) (f : FaultCode) : (s.raise f).status = s.status.raised f := rfl
@[simp] theorem State.raise_result (s : State) (f : FaultCode) : (s.raise f).result = s.result := rfl
@[simp] theorem State.raise_ccnt (s : State) (f : FaultCode) : (s.raise f).ccnt = s.ccnt := rfl
@[simp] theorem State.raise_finfo (s : State) (f : FaultCode) : (s.raise f).finfo = s.cmd := rfl
@[simp] theorem State.raise_stream (s : State) (f : FaultCode) : (s.raise f).stream = s.stream := rfl
@[simp] theorem State.raise_ht (s : State) (f : FaultCode) : (s.raise f).ht = s.ht := rfl
@[simp] theorem State.raise_qt (s : State) (f : FaultCode) : (s.raise f).qt = s.qt := rfl
@[simp] theorem State.raise_qtdef (s : State) (f : FaultCode) : (s.raise f).qtdef = s.qtdef := rfl
@[simp] theorem State.raise_coef (s : State) (f : FaultCode) : (s.raise f).coef = s.coef := rfl
@[simp] theorem State.raise_dcpred (s : State) (f : FaultCode) : (s.raise f).dcpred = s.dcpred := rfl
@[simp] theorem State.raise_eobrun (s : State) (f : FaultCode) : (s.raise f).eobrun = s.eobrun := rfl
@[simp] theorem State.raise_rstexp (s : State) (f : FaultCode) : (s.raise f).rstexp = s.rstexp := rfl
@[simp] theorem State.raise_xcfg (s : State) (f : FaultCode) : (s.raise f).xcfg = s.xcfg := rfl
@[simp] theorem State.raise_dqb (s : State) (f : FaultCode) : (s.raise f).dqb = s.dqb := rfl
@[simp] theorem State.raise_dqtag (s : State) (f : FaultCode) : (s.raise f).dqtag = s.dqtag := rfl
@[simp] theorem State.raise_samp (s : State) (f : FaultCode) : (s.raise f).samp = s.samp := rfl
@[simp] theorem State.raise_pram (s : State) (f : FaultCode) : (s.raise f).pram = s.pram := rfl
@[simp] theorem State.raise_src (s : State) (f : FaultCode) : (s.raise f).src = s.src := rfl
@[simp] theorem State.raise_nextSrc (s : State) (f : FaultCode) : (s.raise f).nextSrc = s.nextSrc := rfl
@[simp] theorem State.raise_inputs (s : State) (f : FaultCode) : (s.raise f).inputs = s.inputs := rfl
@[simp] theorem State.raise_rdata (s : State) (f : FaultCode) : (s.raise f).rdata = s.rdata := rfl
@[simp] theorem State.raise_free (s : State) (f : FaultCode) : (s.raise f).free = s.free := rfl

/-! ### `State.complete` -/

@[simp] theorem State.complete_cmd (s : State) (r : Word) : (s.complete r).cmd = s.cmd := rfl
@[simp] theorem State.complete_status (s : State) (r : Word) : (s.complete r).status = s.status := rfl
@[simp] theorem State.complete_result (s : State) (r : Word) : (s.complete r).result = r := rfl
@[simp] theorem State.complete_ccnt (s : State) (r : Word) : (s.complete r).ccnt = s.ccnt + 1 := rfl
@[simp] theorem State.complete_finfo (s : State) (r : Word) : (s.complete r).finfo = s.finfo := rfl
@[simp] theorem State.complete_stream (s : State) (r : Word) : (s.complete r).stream = s.stream := rfl
@[simp] theorem State.complete_ht (s : State) (r : Word) : (s.complete r).ht = s.ht := rfl
@[simp] theorem State.complete_qt (s : State) (r : Word) : (s.complete r).qt = s.qt := rfl
@[simp] theorem State.complete_qtdef (s : State) (r : Word) : (s.complete r).qtdef = s.qtdef := rfl
@[simp] theorem State.complete_coef (s : State) (r : Word) : (s.complete r).coef = s.coef := rfl
@[simp] theorem State.complete_dcpred (s : State) (r : Word) : (s.complete r).dcpred = s.dcpred := rfl
@[simp] theorem State.complete_eobrun (s : State) (r : Word) : (s.complete r).eobrun = s.eobrun := rfl
@[simp] theorem State.complete_rstexp (s : State) (r : Word) : (s.complete r).rstexp = s.rstexp := rfl
@[simp] theorem State.complete_xcfg (s : State) (r : Word) : (s.complete r).xcfg = s.xcfg := rfl
@[simp] theorem State.complete_dqb (s : State) (r : Word) : (s.complete r).dqb = s.dqb := rfl
@[simp] theorem State.complete_dqtag (s : State) (r : Word) : (s.complete r).dqtag = s.dqtag := rfl
@[simp] theorem State.complete_samp (s : State) (r : Word) : (s.complete r).samp = s.samp := rfl
@[simp] theorem State.complete_pram (s : State) (r : Word) : (s.complete r).pram = s.pram := rfl
@[simp] theorem State.complete_src (s : State) (r : Word) : (s.complete r).src = s.src := rfl
@[simp] theorem State.complete_nextSrc (s : State) (r : Word) : (s.complete r).nextSrc = s.nextSrc := rfl
@[simp] theorem State.complete_inputs (s : State) (r : Word) : (s.complete r).inputs = s.inputs := rfl
@[simp] theorem State.complete_rdata (s : State) (r : Word) : (s.complete r).rdata = s.rdata := rfl
@[simp] theorem State.complete_free (s : State) (r : Word) : (s.complete r).free = s.free := rfl

/-! ### `State.advance` -/

@[simp] theorem State.advance_cmd (s : State) (n : Nat) : (s.advance n).cmd = s.cmd := rfl
@[simp] theorem State.advance_status (s : State) (n : Nat) : (s.advance n).status = s.status := rfl
@[simp] theorem State.advance_result (s : State) (n : Nat) : (s.advance n).result = s.result := rfl
@[simp] theorem State.advance_ccnt (s : State) (n : Nat) : (s.advance n).ccnt = s.ccnt := rfl
@[simp] theorem State.advance_finfo (s : State) (n : Nat) : (s.advance n).finfo = s.finfo := rfl
@[simp] theorem State.advance_stream (s : State) (n : Nat) : (s.advance n).stream = { s.stream with pos := s.stream.pos + n, nunrd := 0 } := rfl
@[simp] theorem State.advance_ht (s : State) (n : Nat) : (s.advance n).ht = s.ht := rfl
@[simp] theorem State.advance_qt (s : State) (n : Nat) : (s.advance n).qt = s.qt := rfl
@[simp] theorem State.advance_qtdef (s : State) (n : Nat) : (s.advance n).qtdef = s.qtdef := rfl
@[simp] theorem State.advance_coef (s : State) (n : Nat) : (s.advance n).coef = s.coef := rfl
@[simp] theorem State.advance_dcpred (s : State) (n : Nat) : (s.advance n).dcpred = s.dcpred := rfl
@[simp] theorem State.advance_eobrun (s : State) (n : Nat) : (s.advance n).eobrun = s.eobrun := rfl
@[simp] theorem State.advance_rstexp (s : State) (n : Nat) : (s.advance n).rstexp = s.rstexp := rfl
@[simp] theorem State.advance_xcfg (s : State) (n : Nat) : (s.advance n).xcfg = s.xcfg := rfl
@[simp] theorem State.advance_dqb (s : State) (n : Nat) : (s.advance n).dqb = s.dqb := rfl
@[simp] theorem State.advance_dqtag (s : State) (n : Nat) : (s.advance n).dqtag = s.dqtag := rfl
@[simp] theorem State.advance_samp (s : State) (n : Nat) : (s.advance n).samp = s.samp := rfl
@[simp] theorem State.advance_pram (s : State) (n : Nat) : (s.advance n).pram = s.pram := rfl
@[simp] theorem State.advance_src (s : State) (n : Nat) : (s.advance n).src = s.src := rfl
@[simp] theorem State.advance_nextSrc (s : State) (n : Nat) : (s.advance n).nextSrc = s.nextSrc := rfl
@[simp] theorem State.advance_inputs (s : State) (n : Nat) : (s.advance n).inputs = s.inputs := rfl
@[simp] theorem State.advance_rdata (s : State) (n : Nat) : (s.advance n).rdata = s.rdata := rfl
@[simp] theorem State.advance_free (s : State) (n : Nat) : (s.advance n).free = s.free := rfl

/-! ### `State.setTable` -/

@[simp] theorem State.setTable_cmd (s : State) (tc : Fin 2) (th : Fin 4) (T : HuffTable) : (s.setTable tc th T).cmd = s.cmd := rfl
@[simp] theorem State.setTable_status (s : State) (tc : Fin 2) (th : Fin 4) (T : HuffTable) : (s.setTable tc th T).status = s.status := rfl
@[simp] theorem State.setTable_result (s : State) (tc : Fin 2) (th : Fin 4) (T : HuffTable) : (s.setTable tc th T).result = s.result := rfl
@[simp] theorem State.setTable_ccnt (s : State) (tc : Fin 2) (th : Fin 4) (T : HuffTable) : (s.setTable tc th T).ccnt = s.ccnt := rfl
@[simp] theorem State.setTable_finfo (s : State) (tc : Fin 2) (th : Fin 4) (T : HuffTable) : (s.setTable tc th T).finfo = s.finfo := rfl
@[simp] theorem State.setTable_stream (s : State) (tc : Fin 2) (th : Fin 4) (T : HuffTable) : (s.setTable tc th T).stream = s.stream := rfl
@[simp] theorem State.setTable_ht (s : State) (tc : Fin 2) (th : Fin 4) (T : HuffTable) : (s.setTable tc th T).ht = s.ht.set tc (s.ht[tc].set th T) := rfl
@[simp] theorem State.setTable_qt (s : State) (tc : Fin 2) (th : Fin 4) (T : HuffTable) : (s.setTable tc th T).qt = s.qt := rfl
@[simp] theorem State.setTable_qtdef (s : State) (tc : Fin 2) (th : Fin 4) (T : HuffTable) : (s.setTable tc th T).qtdef = s.qtdef := rfl
@[simp] theorem State.setTable_coef (s : State) (tc : Fin 2) (th : Fin 4) (T : HuffTable) : (s.setTable tc th T).coef = s.coef := rfl
@[simp] theorem State.setTable_dcpred (s : State) (tc : Fin 2) (th : Fin 4) (T : HuffTable) : (s.setTable tc th T).dcpred = s.dcpred := rfl
@[simp] theorem State.setTable_eobrun (s : State) (tc : Fin 2) (th : Fin 4) (T : HuffTable) : (s.setTable tc th T).eobrun = s.eobrun := rfl
@[simp] theorem State.setTable_rstexp (s : State) (tc : Fin 2) (th : Fin 4) (T : HuffTable) : (s.setTable tc th T).rstexp = s.rstexp := rfl
@[simp] theorem State.setTable_xcfg (s : State) (tc : Fin 2) (th : Fin 4) (T : HuffTable) : (s.setTable tc th T).xcfg = s.xcfg := rfl
@[simp] theorem State.setTable_dqb (s : State) (tc : Fin 2) (th : Fin 4) (T : HuffTable) : (s.setTable tc th T).dqb = s.dqb := rfl
@[simp] theorem State.setTable_dqtag (s : State) (tc : Fin 2) (th : Fin 4) (T : HuffTable) : (s.setTable tc th T).dqtag = s.dqtag := rfl
@[simp] theorem State.setTable_samp (s : State) (tc : Fin 2) (th : Fin 4) (T : HuffTable) : (s.setTable tc th T).samp = s.samp := rfl
@[simp] theorem State.setTable_pram (s : State) (tc : Fin 2) (th : Fin 4) (T : HuffTable) : (s.setTable tc th T).pram = s.pram := rfl
@[simp] theorem State.setTable_src (s : State) (tc : Fin 2) (th : Fin 4) (T : HuffTable) : (s.setTable tc th T).src = s.src := rfl
@[simp] theorem State.setTable_nextSrc (s : State) (tc : Fin 2) (th : Fin 4) (T : HuffTable) : (s.setTable tc th T).nextSrc = s.nextSrc := rfl
@[simp] theorem State.setTable_inputs (s : State) (tc : Fin 2) (th : Fin 4) (T : HuffTable) : (s.setTable tc th T).inputs = s.inputs := rfl
@[simp] theorem State.setTable_rdata (s : State) (tc : Fin 2) (th : Fin 4) (T : HuffTable) : (s.setTable tc th T).rdata = s.rdata := rfl
@[simp] theorem State.setTable_free (s : State) (tc : Fin 2) (th : Fin 4) (T : HuffTable) : (s.setTable tc th T).free = s.free := rfl

/-! ### `State.withLoad` -/

@[simp] theorem State.withLoad_cmd (s : State) (l : Load) : (s.withLoad l).cmd = s.cmd := rfl
@[simp] theorem State.withLoad_status (s : State) (l : Load) : (s.withLoad l).status = s.status := rfl
@[simp] theorem State.withLoad_result (s : State) (l : Load) : (s.withLoad l).result = s.result := rfl
@[simp] theorem State.withLoad_ccnt (s : State) (l : Load) : (s.withLoad l).ccnt = s.ccnt := rfl
@[simp] theorem State.withLoad_finfo (s : State) (l : Load) : (s.withLoad l).finfo = s.finfo := rfl
@[simp] theorem State.withLoad_stream (s : State) (l : Load) : (s.withLoad l).stream = l.stream := rfl
@[simp] theorem State.withLoad_ht (s : State) (l : Load) : (s.withLoad l).ht = s.ht := rfl
@[simp] theorem State.withLoad_qt (s : State) (l : Load) : (s.withLoad l).qt = s.qt := rfl
@[simp] theorem State.withLoad_qtdef (s : State) (l : Load) : (s.withLoad l).qtdef = s.qtdef := rfl
@[simp] theorem State.withLoad_coef (s : State) (l : Load) : (s.withLoad l).coef = l.coef := rfl
@[simp] theorem State.withLoad_dcpred (s : State) (l : Load) : (s.withLoad l).dcpred = s.dcpred := rfl
@[simp] theorem State.withLoad_eobrun (s : State) (l : Load) : (s.withLoad l).eobrun = l.eobrun := rfl
@[simp] theorem State.withLoad_rstexp (s : State) (l : Load) : (s.withLoad l).rstexp = s.rstexp := rfl
@[simp] theorem State.withLoad_xcfg (s : State) (l : Load) : (s.withLoad l).xcfg = s.xcfg := rfl
@[simp] theorem State.withLoad_dqb (s : State) (l : Load) : (s.withLoad l).dqb = s.dqb := rfl
@[simp] theorem State.withLoad_dqtag (s : State) (l : Load) : (s.withLoad l).dqtag = s.dqtag := rfl
@[simp] theorem State.withLoad_samp (s : State) (l : Load) : (s.withLoad l).samp = s.samp := rfl
@[simp] theorem State.withLoad_pram (s : State) (l : Load) : (s.withLoad l).pram = s.pram := rfl
@[simp] theorem State.withLoad_src (s : State) (l : Load) : (s.withLoad l).src = s.src := rfl
@[simp] theorem State.withLoad_nextSrc (s : State) (l : Load) : (s.withLoad l).nextSrc = s.nextSrc := rfl
@[simp] theorem State.withLoad_inputs (s : State) (l : Load) : (s.withLoad l).inputs = s.inputs := rfl
@[simp] theorem State.withLoad_rdata (s : State) (l : Load) : (s.withLoad l).rdata = s.rdata := rfl
@[simp] theorem State.withLoad_free (s : State) (l : Load) : (s.withLoad l).free = s.free := rfl

/-! ### `State.addPred` -/

@[simp] theorem State.addPred_cmd (s : State) (c : Fin 4) (d : Int) : (s.addPred c d).cmd = s.cmd := rfl
@[simp] theorem State.addPred_status (s : State) (c : Fin 4) (d : Int) : (s.addPred c d).status = s.status := rfl
@[simp] theorem State.addPred_result (s : State) (c : Fin 4) (d : Int) : (s.addPred c d).result = s.result := rfl
@[simp] theorem State.addPred_ccnt (s : State) (c : Fin 4) (d : Int) : (s.addPred c d).ccnt = s.ccnt := rfl
@[simp] theorem State.addPred_finfo (s : State) (c : Fin 4) (d : Int) : (s.addPred c d).finfo = s.finfo := rfl
@[simp] theorem State.addPred_stream (s : State) (c : Fin 4) (d : Int) : (s.addPred c d).stream = s.stream := rfl
@[simp] theorem State.addPred_ht (s : State) (c : Fin 4) (d : Int) : (s.addPred c d).ht = s.ht := rfl
@[simp] theorem State.addPred_qt (s : State) (c : Fin 4) (d : Int) : (s.addPred c d).qt = s.qt := rfl
@[simp] theorem State.addPred_qtdef (s : State) (c : Fin 4) (d : Int) : (s.addPred c d).qtdef = s.qtdef := rfl
@[simp] theorem State.addPred_coef (s : State) (c : Fin 4) (d : Int) : (s.addPred c d).coef = s.coef := rfl
@[simp] theorem State.addPred_dcpred (s : State) (c : Fin 4) (d : Int) : (s.addPred c d).dcpred = s.dcpred.set c (s.dcpred[c] + w32 d) := rfl
@[simp] theorem State.addPred_eobrun (s : State) (c : Fin 4) (d : Int) : (s.addPred c d).eobrun = s.eobrun := rfl
@[simp] theorem State.addPred_rstexp (s : State) (c : Fin 4) (d : Int) : (s.addPred c d).rstexp = s.rstexp := rfl
@[simp] theorem State.addPred_xcfg (s : State) (c : Fin 4) (d : Int) : (s.addPred c d).xcfg = s.xcfg := rfl
@[simp] theorem State.addPred_dqb (s : State) (c : Fin 4) (d : Int) : (s.addPred c d).dqb = s.dqb := rfl
@[simp] theorem State.addPred_dqtag (s : State) (c : Fin 4) (d : Int) : (s.addPred c d).dqtag = s.dqtag := rfl
@[simp] theorem State.addPred_samp (s : State) (c : Fin 4) (d : Int) : (s.addPred c d).samp = s.samp := rfl
@[simp] theorem State.addPred_pram (s : State) (c : Fin 4) (d : Int) : (s.addPred c d).pram = s.pram := rfl
@[simp] theorem State.addPred_src (s : State) (c : Fin 4) (d : Int) : (s.addPred c d).src = s.src := rfl
@[simp] theorem State.addPred_nextSrc (s : State) (c : Fin 4) (d : Int) : (s.addPred c d).nextSrc = s.nextSrc := rfl
@[simp] theorem State.addPred_inputs (s : State) (c : Fin 4) (d : Int) : (s.addPred c d).inputs = s.inputs := rfl
@[simp] theorem State.addPred_rdata (s : State) (c : Fin 4) (d : Int) : (s.addPred c d).rdata = s.rdata := rfl
@[simp] theorem State.addPred_free (s : State) (c : Fin 4) (d : Int) : (s.addPred c d).free = s.free := rfl

/-! ### `State.setDc` -/

@[simp] theorem State.setDc_cmd (s : State) (v : Word) : (s.setDc v).cmd = s.cmd := rfl
@[simp] theorem State.setDc_status (s : State) (v : Word) : (s.setDc v).status = s.status := rfl
@[simp] theorem State.setDc_result (s : State) (v : Word) : (s.setDc v).result = s.result := rfl
@[simp] theorem State.setDc_ccnt (s : State) (v : Word) : (s.setDc v).ccnt = s.ccnt := rfl
@[simp] theorem State.setDc_finfo (s : State) (v : Word) : (s.setDc v).finfo = s.finfo := rfl
@[simp] theorem State.setDc_stream (s : State) (v : Word) : (s.setDc v).stream = s.stream := rfl
@[simp] theorem State.setDc_ht (s : State) (v : Word) : (s.setDc v).ht = s.ht := rfl
@[simp] theorem State.setDc_qt (s : State) (v : Word) : (s.setDc v).qt = s.qt := rfl
@[simp] theorem State.setDc_qtdef (s : State) (v : Word) : (s.setDc v).qtdef = s.qtdef := rfl
@[simp] theorem State.setDc_coef (s : State) (v : Word) : (s.setDc v).coef = s.coef.set 0 v := rfl
@[simp] theorem State.setDc_dcpred (s : State) (v : Word) : (s.setDc v).dcpred = s.dcpred := rfl
@[simp] theorem State.setDc_eobrun (s : State) (v : Word) : (s.setDc v).eobrun = s.eobrun := rfl
@[simp] theorem State.setDc_rstexp (s : State) (v : Word) : (s.setDc v).rstexp = s.rstexp := rfl
@[simp] theorem State.setDc_xcfg (s : State) (v : Word) : (s.setDc v).xcfg = s.xcfg := rfl
@[simp] theorem State.setDc_dqb (s : State) (v : Word) : (s.setDc v).dqb = s.dqb := rfl
@[simp] theorem State.setDc_dqtag (s : State) (v : Word) : (s.setDc v).dqtag = s.dqtag := rfl
@[simp] theorem State.setDc_samp (s : State) (v : Word) : (s.setDc v).samp = s.samp := rfl
@[simp] theorem State.setDc_pram (s : State) (v : Word) : (s.setDc v).pram = s.pram := rfl
@[simp] theorem State.setDc_src (s : State) (v : Word) : (s.setDc v).src = s.src := rfl
@[simp] theorem State.setDc_nextSrc (s : State) (v : Word) : (s.setDc v).nextSrc = s.nextSrc := rfl
@[simp] theorem State.setDc_inputs (s : State) (v : Word) : (s.setDc v).inputs = s.inputs := rfl
@[simp] theorem State.setDc_rdata (s : State) (v : Word) : (s.setDc v).rdata = s.rdata := rfl
@[simp] theorem State.setDc_free (s : State) (v : Word) : (s.setDc v).free = s.free := rfl

/-! ### `State.restartReset` -/

@[simp] theorem State.restartReset_cmd (s : State) : s.restartReset.cmd = s.cmd := rfl
@[simp] theorem State.restartReset_status (s : State) : s.restartReset.status = s.status := rfl
@[simp] theorem State.restartReset_result (s : State) : s.restartReset.result = s.result := rfl
@[simp] theorem State.restartReset_ccnt (s : State) : s.restartReset.ccnt = s.ccnt := rfl
@[simp] theorem State.restartReset_finfo (s : State) : s.restartReset.finfo = s.finfo := rfl
@[simp] theorem State.restartReset_stream (s : State) : s.restartReset.stream = s.stream.bitReset := rfl
@[simp] theorem State.restartReset_ht (s : State) : s.restartReset.ht = s.ht := rfl
@[simp] theorem State.restartReset_qt (s : State) : s.restartReset.qt = s.qt := rfl
@[simp] theorem State.restartReset_qtdef (s : State) : s.restartReset.qtdef = s.qtdef := rfl
@[simp] theorem State.restartReset_coef (s : State) : s.restartReset.coef = s.coef := rfl
@[simp] theorem State.restartReset_dcpred (s : State) : s.restartReset.dcpred = #v[0, 0, 0, 0] := rfl
@[simp] theorem State.restartReset_eobrun (s : State) : s.restartReset.eobrun = 0 := rfl
@[simp] theorem State.restartReset_rstexp (s : State) : s.restartReset.rstexp = s.rstexp + 1 := rfl
@[simp] theorem State.restartReset_xcfg (s : State) : s.restartReset.xcfg = s.xcfg := rfl
@[simp] theorem State.restartReset_dqb (s : State) : s.restartReset.dqb = s.dqb := rfl
@[simp] theorem State.restartReset_dqtag (s : State) : s.restartReset.dqtag = s.dqtag := rfl
@[simp] theorem State.restartReset_samp (s : State) : s.restartReset.samp = s.samp := rfl
@[simp] theorem State.restartReset_pram (s : State) : s.restartReset.pram = s.pram := rfl
@[simp] theorem State.restartReset_src (s : State) : s.restartReset.src = s.src := rfl
@[simp] theorem State.restartReset_nextSrc (s : State) : s.restartReset.nextSrc = s.nextSrc := rfl
@[simp] theorem State.restartReset_inputs (s : State) : s.restartReset.inputs = s.inputs := rfl
@[simp] theorem State.restartReset_rdata (s : State) : s.restartReset.rdata = s.rdata := rfl
@[simp] theorem State.restartReset_free (s : State) : s.restartReset.free = s.free := rfl

/-! ### `State.restart`: the fields R41 gives a value, and those of the host -/

@[simp] theorem State.restart_cmd (s : State) : s.restart.cmd = 0 := rfl
@[simp] theorem State.restart_status (s : State) : s.restart.status = ⟨false, false, 0⟩ := rfl
@[simp] theorem State.restart_result (s : State) : s.restart.result = 0 := rfl
@[simp] theorem State.restart_ccnt (s : State) : s.restart.ccnt = 0 := rfl
@[simp] theorem State.restart_finfo (s : State) : s.restart.finfo = 0 := rfl
@[simp] theorem State.restart_stream (s : State) : s.restart.stream = ⟨0, 0, 0, 0⟩ := rfl
@[simp] theorem State.restart_qtdef (s : State) : s.restart.qtdef = #v[false, false, false, false] := rfl
@[simp] theorem State.restart_dcpred (s : State) : s.restart.dcpred = #v[0, 0, 0, 0] := rfl
@[simp] theorem State.restart_eobrun (s : State) : s.restart.eobrun = 0 := rfl
@[simp] theorem State.restart_rstexp (s : State) : s.restart.rstexp = 0 := rfl
@[simp] theorem State.restart_xcfg (s : State) : s.restart.xcfg = #v[.acc, .acc, .acc, .acc] := rfl
@[simp] theorem State.restart_dqtag (s : State) : s.restart.dqtag = ⟨false, .plain⟩ := rfl
@[simp] theorem State.restart_src (s : State) : s.restart.src = s.nextSrc := rfl
@[simp] theorem State.restart_nextSrc (s : State) : s.restart.nextSrc = s.nextSrc := rfl
@[simp] theorem State.restart_inputs (s : State) : s.restart.inputs = s.inputs := rfl
@[simp] theorem State.restart_rdata (s : State) : s.restart.rdata = s.rdata := rfl
@[simp] theorem State.restart_free (s : State) : s.restart.free = s.free + 1 := rfl

/-! ### Streams -/

@[simp] theorem Stream.push_pos (t : Stream) (b : Byte) : (t.push b).pos = t.pos := rfl
@[simp] theorem Stream.push_nunrd (t : Stream) (b : Byte) : (t.push b).nunrd = t.nunrd := rfl
@[simp] theorem Stream.push_acc (t : Stream) (b : Byte) : (t.push b).acc = (t.acc <<< 8) ||| b.setWidth 32 := rfl
@[simp] theorem Stream.push_cnt (t : Stream) (b : Byte) : (t.push b).cnt = t.cnt + 8 := rfl
@[simp] theorem Stream.keep_pos (t : Stream) (k : Nat) : (t.keep k).pos = t.pos := rfl
@[simp] theorem Stream.keep_nunrd (t : Stream) (k : Nat) : (t.keep k).nunrd = t.nunrd := rfl
@[simp] theorem Stream.keep_acc (t : Stream) (k : Nat) : (t.keep k).acc = lowBits t.acc k := rfl
@[simp] theorem Stream.keep_cnt (t : Stream) (k : Nat) : (t.keep k).cnt = k := rfl
@[simp] theorem Stream.bitReset_pos (t : Stream) : t.bitReset.pos = t.pos := rfl
@[simp] theorem Stream.bitReset_nunrd (t : Stream) : t.bitReset.nunrd = t.nunrd := rfl
@[simp] theorem Stream.bitReset_acc (t : Stream) : t.bitReset.acc = 0 := rfl
@[simp] theorem Stream.bitReset_cnt (t : Stream) : t.bitReset.cnt = 0 := rfl

/-! ### Block walks -/

@[simp] theorem Load.put_stream (l : Load) (k : Nat) (v : Word) : (l.put k v).stream = l.stream := rfl
@[simp] theorem Load.put_coef (l : Load) (k : Nat) (v : Word) : (l.put k v).coef = l.coef.set (unzig k) v := rfl
@[simp] theorem Load.put_eobrun (l : Load) (k : Nat) (v : Word) : (l.put k v).eobrun = l.eobrun := rfl
@[simp] theorem Load.countEob_stream (l : Load) : l.countEob.stream = l.stream := rfl
@[simp] theorem Load.countEob_coef (l : Load) : l.countEob.coef = l.coef := rfl
@[simp] theorem Load.countEob_eobrun (l : Load) : l.countEob.eobrun = l.eobrun - 1 := rfl
@[simp] theorem State.load_stream (s : State) : s.load.stream = s.stream := rfl
@[simp] theorem State.load_coef (s : State) : s.load.coef = s.coef := rfl
@[simp] theorem State.load_eobrun (s : State) : s.load.eobrun = s.eobrun := rfl

end Sys2Proof.Machine
end

