-- ==== Sys2Proof/Laws/Command.lean ====
section
/-! SUPPORT. How pseudocode runs (`EStateM`), and everything `State.runCommand` can do. -/

namespace Sys2Proof.Machine

/-! ### Sequencing -/

theorem bind_ok {ε σ α β : Type} {x : EStateM ε σ α} {f : α → EStateM ε σ β} {s t : σ} {a : α} (h : x s = .ok a t) :
    (x >>= f) s = f a t := by
  show EStateM.bind x f s = _; simp only [EStateM.bind, h]

theorem bind_error {ε σ α β : Type} {x : EStateM ε σ α} {f : α → EStateM ε σ β} {s t : σ} {e : ε} (h : x s = .error e t) :
    (x >>= f) s = .error e t := by
  show EStateM.bind x f s = _; simp only [EStateM.bind, h]

theorem pure_apply {ε σ α : Type} (a : α) (s : σ) : (pure a : EStateM ε σ α) s = .ok a s := rfl

theorem throw_apply {ε σ α : Type} (e : ε) (s : σ) : (throw e : EStateM ε σ α) s = .error e s := rfl

theorem get_apply {ε σ : Type} (s : σ) : (get : EStateM ε σ σ) s = .ok s s := rfl

theorem set_apply {ε σ : Type} (s t : σ) : (set t : EStateM ε σ PUnit) s = .ok ⟨⟩ t := rfl

theorem modify_apply {ε σ : Type} (f : σ → σ) (s : σ) : (modify f : EStateM ε σ PUnit) s = .ok ⟨⟩ (f s) := rfl

/-- A sequence that completes: both parts do. -/
theorem bind_eq_ok {ε σ α β : Type} {x : EStateM ε σ α} {f : α → EStateM ε σ β} {s u : σ} {b : β} :
    (x >>= f) s = .ok b u ↔ ∃ a t, x s = .ok a t ∧ f a t = .ok b u := by
  show EStateM.bind x f s = _ ↔ _
  cases h : x s with
  | ok a t => simp [EStateM.bind, h]
  | error e t => simp [EStateM.bind, h]

/-- A sequence that fails: the first part does, or it completes and the second does. -/
theorem bind_eq_error {ε σ α β : Type} {x : EStateM ε σ α} {f : α → EStateM ε σ β} {s u : σ} {e : ε} :
    (x >>= f) s = .error e u ↔ x s = .error e u ∨ ∃ a t, x s = .ok a t ∧ f a t = .error e u := by
  show EStateM.bind x f s = _ ↔ _
  cases h : x s with
  | ok a t => simp [EStateM.bind, h]
  | error e t => simp [EStateM.bind, h]

/-! ### Stream pseudocode inside a command or a block walk -/

theorem onStream_ok {α : Type} {p : List Byte → Bits α} {s : State} {a : α} {t : Stream} (h : p s.src s.stream = .ok a t) :
    onStream p s = .ok a { s with stream := t } := by
  simp only [onStream, h]

theorem onStream_error {α : Type} {p : List Byte → Bits α} {s : State} {f : FaultCode} {t : Stream}
    (h : p s.src s.stream = .error f t) : onStream p s = .error f { s with stream := t } := by
  simp only [onStream, h]

theorem walkStream_ok {α : Type} {p : Bits α} {l : Load} {a : α} {t : Stream} (h : p l.stream = .ok a t) :
    walkStream p l = .ok a { l with stream := t } := by
  simp only [walkStream, h]

theorem walkStream_error {α : Type} {p : Bits α} {l : Load} {f : FaultCode} {t : Stream} (h : p l.stream = .error f t) :
    walkStream p l = .error f { l with stream := t } := by
  simp only [walkStream, h]

theorem onLoad_ok {α : Type} {p : List Byte → Walk α} {s : State} {a : α} {l : Load} (h : p s.src s.load = .ok a l) :
    onLoad p s = .ok a (s.withLoad l) := by
  simp only [onLoad, h]

theorem onLoad_error {α : Type} {p : List Byte → Walk α} {s : State} {f : FaultCode} {l : Load} (h : p s.src s.load = .error f l) :
    onLoad p s = .error f (s.withLoad l) := by
  simp only [onLoad, h]

/-! ### Running a body -/

theorem runCommand_faulted {s : State} (h : s.status.fault = true) (body : Cmd Word) : s.runCommand body = s := by
  simp [State.runCommand, h]

theorem runCommand_ok {s t : State} {body : Cmd Word} {r : Word} (h : s.status.fault = false) (hb : body s = .ok r t) :
    s.runCommand body = t.complete r := by
  simp [State.runCommand, h, hb]

theorem runCommand_error {s t : State} {body : Cmd Word} {f : FaultCode} (h : s.status.fault = false) (hb : body s = .error f t) :
    s.runCommand body = t.raise f := by
  simp [State.runCommand, h, hb]

/-- Everything running a body can do: nothing while FAULT = 1, else complete what the body left, or raise its fault on what it left. -/
theorem runCommand_cases (s : State) (body : Cmd Word) :
    (s.status.fault = true ∧ s.runCommand body = s) ∨
      (s.status.fault = false ∧ ∃ r t, body s = .ok r t ∧ s.runCommand body = t.complete r) ∨
      (s.status.fault = false ∧ ∃ f t, body s = .error f t ∧ s.runCommand body = t.raise f) := by
  cases h : s.status.fault with
  | true => exact .inl ⟨rfl, runCommand_faulted h body⟩
  | false =>
    cases hb : body s with
    | ok r t => exact .inr (.inl ⟨rfl, r, t, rfl, runCommand_ok h hb⟩)
    | error f t => exact .inr (.inr ⟨rfl, f, t, rfl, runCommand_error h hb⟩)

end Sys2Proof.Machine
end

