-- ==== Sys2Proof/Laws/BitString.lean ====
section
/-! SUPPORT. Bit strings, and what each stream primitive does to the bit string a stream stands for (`42_bitaccum.md` R141). -/

namespace Sys2Proof.Reference

open Sys2Proof.Machine

/-! ### Numbers as bit strings -/

@[simp] theorem natBits_length (k v : Nat) : (natBits k v).length = k := by simp [natBits]

@[simp] theorem natBits_zero (v : Nat) : natBits 0 v = [] := rfl

theorem natBits_getElem (k v i : Nat) (h : i < (natBits k v).length) : (natBits k v)[i] = v.testBit (k - 1 - i) := by
  simp [natBits]

/-- The first bits of a number are those of its quotient. -/
theorem natBits_append (j k v : Nat) : natBits (j + k) v = natBits j (v / 2 ^ k) ++ natBits k v := by
  apply List.ext_getElem
  · simp
  · intro i h _
    simp only [natBits_length] at h
    rw [natBits_getElem, List.getElem_append]
    split
    · rename_i hi
      simp only [natBits_length] at hi
      rw [natBits_getElem, Nat.testBit_div_two_pow]
      congr 1; omega
    · rename_i hi
      simp only [natBits_length] at hi ⊢
      rw [natBits_getElem]
      congr 1; omega

/-- Only the low bits matter. -/
theorem natBits_mod (k v : Nat) : natBits k (v % 2 ^ k) = natBits k v := by
  apply List.ext_getElem
  · simp
  · intro i h _
    simp only [natBits_length] at h
    rw [natBits_getElem, natBits_getElem, Nat.testBit_mod_two_pow]
    simp; omega

theorem natBits_take (j k v : Nat) : (natBits (j + k) v).take j = natBits j (v / 2 ^ k) := by
  rw [natBits_append, List.take_left' (by simp)]

theorem natBits_drop (j k v : Nat) : (natBits (j + k) v).drop j = natBits k v := by
  rw [natBits_append, List.drop_left' (by simp)]

theorem bitsValue_append (as bs : List Bool) : bitsValue (as ++ bs) = bitsValue as * 2 ^ bs.length + bitsValue bs := by
  have aux : ∀ (bs : List Bool) (v : Nat), bs.foldl (fun v b => 2 * v + b.toNat) v = v * 2 ^ bs.length + bs.foldl (fun v b => 2 * v + b.toNat) 0 := by
    intro bs
    induction bs with
    | nil => simp
    | cons b bs ih =>
      intro v
      rw [List.foldl_cons, List.foldl_cons, ih, ih (2 * 0 + b.toNat), List.length_cons, pow_succ]
      ring
  rw [bitsValue, List.foldl_append, aux]; rfl

/-- Reading back the bits of a number. -/
theorem bitsValue_natBits (k v : Nat) : bitsValue (natBits k v) = v % 2 ^ k := by
  induction k generalizing v with
  | zero => simp [bitsValue, natBits, Nat.mod_one]
  | succ k ih =>
    have h1 : natBits 1 v = [v.testBit 0] := by simp [natBits]
    rw [natBits_append k 1, bitsValue_append, ih, h1]
    have : bitsValue [v.testBit 0] = v % 2 := by
      simp only [bitsValue, List.foldl_cons, List.foldl_nil, Nat.testBit_zero]
      rcases Nat.mod_two_eq_zero_or_one v with h | h <;> simp [h]
    rw [this, List.length_singleton, pow_one, pow_succ]
    have := Nat.div_add_mod (v % (2 ^ k * 2)) 2
    rw [Nat.mod_mul_left_div_self, Nat.mod_mul_left_mod] at this
    omega

theorem bitsValue_lt (bs : List Bool) : bitsValue bs < 2 ^ bs.length := by
  induction bs using List.reverseRecOn with
  | nil => simp [bitsValue]
  | append_singleton bs b ih =>
    rw [bitsValue_append, List.length_append, List.length_singleton, pow_succ, pow_succ]
    have : bitsValue [b] ≤ 1 := by cases b <;> simp [bitsValue]
    simp only [pow_zero, one_mul]; omega

end Sys2Proof.Reference

namespace Sys2Proof.Machine

open Sys2Proof.Reference

/-! ### The accumulator -/

theorem lowBits_toNat (v : Word) {k : Nat} (h : k ≤ 32) : (lowBits v k).toNat = v.toNat % 2 ^ k := by
  have : 2 ^ k ≤ 2 ^ 32 := Nat.pow_le_pow_right (by omega) h
  rw [lowBits, BitVec.toNat_and, BitVec.toNat_ofNat, Nat.mod_eq_of_lt (a := 2 ^ k - 1) (by omega), Nat.and_two_pow_sub_one_eq_mod]

/-- Pushing a byte loses no bit while at most 24 are held. -/
theorem Stream.push_toNat {t : Stream} (b : Byte) (h : t.acc.toNat < 2 ^ t.cnt) (hc : t.cnt ≤ 24) :
    (t.push b).acc.toNat = t.acc.toNat * 2 ^ 8 + b.toNat := by
  have h24 : t.acc.toNat < 2 ^ 24 := lt_of_lt_of_le h (Nat.pow_le_pow_right (by omega) hc)
  rw [Stream.push_acc, BitVec.toNat_or, BitVec.toNat_shiftLeft, BitVec.toNat_setWidth,
    Nat.mod_eq_of_lt (a := b.toNat) (lt_of_lt_of_le b.isLt (by norm_num)), Nat.shiftLeft_eq, Nat.mod_eq_of_lt (by omega), Nat.mul_comm,
    ← Nat.two_pow_add_eq_or_of_lt b.isLt]

/-! ### One stuffed byte -/

/-- What a stuffed read does when the de-stuffed rest is not empty: it takes the first byte off, and the fault at the end stays. -/
theorem readStuffedByte_ok {src : List Byte} {t : Stream} {b : Byte} {bs : List Byte} (h : destuff (src.drop t.pos) = b :: bs) :
    ∃ m : Fin 3, m ≠ 0 ∧ readStuffedByte src t = .ok b { t with pos := t.pos + m.val, nunrd := m } ∧
      t.pos + m.val ≤ src.length ∧ destuff (src.drop (t.pos + m.val)) = bs ∧
      endFault (src.drop (t.pos + m.val)) = endFault (src.drop t.pos) := by
  have hd : ∀ k, src[t.pos + k]? = (src.drop t.pos)[k]? := fun k => by rw [List.getElem?_drop]
  have h0 := hd 0
  have h1 := hd 1
  have d1 : src.drop (t.pos + 1) = (src.drop t.pos).drop 1 := by rw [List.drop_drop]
  have d2 : src.drop (t.pos + 2) = (src.drop t.pos).drop 2 := by rw [List.drop_drop]
  have hl : (src.drop t.pos).length = src.length - t.pos := List.length_drop
  simp only [Nat.add_zero] at h0
  generalize src.drop t.pos = l at h h0 h1 d1 d2 hl
  unfold readStuffedByte
  match l with
  | [] => simp [destuff] at h
  | [x] =>
    by_cases hx : x = 0xFF
    · subst hx; exact absurd h (by simp [destuff])
    · have hx' : ¬ x = 255#8 := hx
      simp [destuff, hx'] at h
      obtain ⟨rfl, rfl⟩ := h
      refine ⟨1, by decide, ?_, ?_, ?_, ?_⟩
      · simp [h0, hx']
      · simp at hl; simp; omega
      · simp [d1, destuff]
      · simp [d1, endFault]
  | x :: y :: rest =>
    by_cases hx : x = 0xFF
    · subst hx
      by_cases hy : y = 0
      · subst hy
        simp [destuff] at h
        obtain ⟨rfl, rfl⟩ := h
        refine ⟨2, by decide, ?_, ?_, ?_, ?_⟩
        · simp [h0, h1]
        · simp at hl; simp; omega
        · simp [d2]
        · simp [d2, endFault]
      · have hy' : ¬ y = 0#8 := hy
        simp [destuff, hy'] at h
    · have hx' : ¬ x = 255#8 := hx
      simp only [destuff, if_neg hx] at h
      obtain ⟨rfl, rfl⟩ := List.cons.inj h
      refine ⟨1, by decide, ?_, ?_, ?_, ?_⟩
      · simp [h0, hx']
      · simp at hl; simp; omega
      · simp [d1]
      · simp [d1, endFault, hx']

/-- What a stuffed read does when nothing is left to serve. -/
theorem readStuffedByte_error {src : List Byte} {t : Stream} (h : destuff (src.drop t.pos) = []) :
    readStuffedByte src t = .error (endFault (src.drop t.pos)) { t with nunrd := 0 } := by
  have hd : ∀ k, src[t.pos + k]? = (src.drop t.pos)[k]? := fun k => by rw [List.getElem?_drop]
  have h0 := hd 0
  have h1 := hd 1
  simp only [Nat.add_zero] at h0
  generalize src.drop t.pos = l at h h0 h1
  unfold readStuffedByte
  match l with
  | [] => simp [h0, endFault]
  | [x] =>
    by_cases hx : x = 0xFF
    · subst hx; simp [h0, h1, endFault]
    · have hx' : ¬ x = 255#8 := hx
      simp [destuff, hx'] at h
  | x :: y :: rest =>
    by_cases hx : x = 0xFF
    · subst hx
      by_cases hy : y = 0
      · subst hy; simp [destuff] at h
      · have hy' : ¬ y = 0#8 := hy
        simp [h0, h1, endFault, hy']
    · have hx' : ¬ x = 255#8 := hx
      simp [destuff, hx'] at h

/-! ### Filling and reading -/

/-- The number of bits a stream can still serve. -/
theorem pending_length (src : List Byte) (t : Stream) :
    (pending src t).length = t.cnt + 8 * (destuff (src.drop t.pos)).length := by
  simp [pending, List.length_flatMap, Nat.mul_comm]

/-- Taking one byte in leaves the bit string as it was. -/
theorem pending_push {src : List Byte} {t : Stream} {b : Byte} {bs : List Byte} (ha : t.acc.toNat < 2 ^ t.cnt) (hc : t.cnt ≤ 24)
    (h : destuff (src.drop t.pos) = b :: bs) (p : Nat) (m : Fin 3) (hp : destuff (src.drop p) = bs) :
    pending src (({ t with pos := p, nunrd := m } : Stream).push b) = pending src t := by
  have e : (({ t with pos := p, nunrd := m } : Stream).push b).acc.toNat = t.acc.toNat * 2 ^ 8 + b.toNat :=
    Stream.push_toNat (t := { t with pos := p, nunrd := m }) b ha hc
  unfold pending
  rw [e, h, Stream.push_cnt, Stream.push_pos, hp, natBits_append t.cnt 8, List.flatMap_cons, List.append_assoc]
  have q : (t.acc.toNat * 2 ^ 8 + b.toNat) / 2 ^ 8 = t.acc.toNat := by have := b.isLt; omega
  have r : natBits 8 (t.acc.toNat * 2 ^ 8 + b.toNat) = natBits 8 b.toNat := by
    rw [← natBits_mod 8 (t.acc.toNat * 2 ^ 8 + b.toNat), Nat.mul_add_mod_self_right, natBits_mod]
  rw [q, r]

/-- The invariant after taking one byte in. -/
theorem Stream.Inv.push {n p : Nat} {t : Stream} (b : Byte) (m : Fin 3) (h : t.Inv n) (hc : t.cnt ≤ 15) (hp : p ≤ n) (hm : m.val ≤ p) :
    (({ t with pos := p, nunrd := m } : Stream).push b).Inv n := by
  refine ⟨hp, hm, by simp; omega, ?_⟩
  have e : (({ t with pos := p, nunrd := m } : Stream).push b).acc.toNat = t.acc.toNat * 2 ^ 8 + b.toNat :=
    Stream.push_toNat (t := { t with pos := p, nunrd := m }) b h.acc_lt (by simp; omega)
  rw [e, Stream.push_cnt, pow_add]
  have := h.acc_lt
  have := b.isLt
  show t.acc.toNat * 2 ^ 8 + b.toNat < 2 ^ t.cnt * 2 ^ 8
  omega

/-- EnsureBits with any number of rounds that is enough: everything it can do on a stream that meets the invariant. -/
theorem ensureLoop_spec (src : List Byte) (n : Nat) (hn : n ≤ 16) :
    ∀ (rounds : Nat) (t : Stream), t.Inv src.length → n ≤ t.cnt + 8 * rounds →
      (n ≤ (pending src t).length → ∃ t', ensureLoop src n rounds t = .ok () t' ∧ t'.Inv src.length ∧ pending src t' = pending src t ∧
        shortage src t' = shortage src t ∧ n ≤ t'.cnt ∧ t'.cnt ≤ max t.cnt (n + 7)) ∧
      ((pending src t).length < n → ∃ t', ensureLoop src n rounds t = .error (shortage src t) t' ∧ t'.Inv src.length ∧
        pending src t' = pending src t ∧ shortage src t' = shortage src t ∧ t'.cnt < n ∧ destuff (src.drop t'.pos) = []) := by
  intro rounds
  induction rounds with
  | zero =>
    intro t ht hr
    have : n ≤ (pending src t).length := by rw [pending_length]; omega
    exact ⟨fun _ => ⟨t, rfl, ht, rfl, rfl, by omega, by omega⟩, fun h => by omega⟩
  | succ rounds ih =>
    intro t ht hr
    by_cases hc : t.cnt < n
    · cases hd : destuff (src.drop t.pos) with
      | nil =>
        refine ⟨fun h => by rw [pending_length, hd] at h; simp at h; omega, fun _ => ⟨{ t with nunrd := 0 }, ?_, ?_, rfl, rfl, hc, hd⟩⟩
        · simp only [ensureLoop, hc, if_true, readStuffedByte_error hd, shortage]
        · exact ⟨ht.pos_le, by simp, ht.cnt_le, ht.acc_lt⟩
      | cons b bs =>
        obtain ⟨m, hm0, he, hp, hd', hf⟩ := readStuffedByte_ok hd
        have hi : (({ t with pos := t.pos + m.val, nunrd := m } : Stream).push b).Inv src.length :=
          ht.push b m (by omega) hp (by omega)
        have hpd := pending_push ht.acc_lt (by omega) hd (t.pos + m.val) m hd'
        have := ih _ hi (by simp; omega)
        simp only [hpd] at this
        have hs : shortage src (({ t with pos := t.pos + m.val, nunrd := m } : Stream).push b) = shortage src t := hf
        simp only [hs] at this
        have hl : ensureLoop src n (rounds + 1) t = ensureLoop src n rounds (({ t with pos := t.pos + m.val, nunrd := m } : Stream).push b) := by
          simp only [ensureLoop, hc, if_true, he]
        rw [hl]
        refine ⟨fun h => ?_, this.2⟩
        obtain ⟨t', h1, h2, h3, h4, h5, h6⟩ := this.1 h
        exact ⟨t', h1, h2, h3, h4, h5, by simp at h6; omega⟩
    · have : n ≤ (pending src t).length := by rw [pending_length]; omega
      refine ⟨fun _ => ⟨t, ?_, ht, rfl, rfl, by omega, by omega⟩, fun h => by omega⟩
      simp only [ensureLoop, hc, if_false]

/-- Keeping the low bits is dropping from the front of the bit string. -/
theorem pending_keep {src : List Byte} {t : Stream} {n : Nat} (hn : n ≤ t.cnt) (hc : t.cnt ≤ 32) :
    pending src (t.keep (t.cnt - n)) = (pending src t).drop n := by
  unfold pending
  rw [Stream.keep_cnt, Stream.keep_acc, Stream.keep_pos, lowBits_toNat _ (by omega), natBits_mod]
  obtain ⟨k, hk⟩ : ∃ k, t.cnt = n + k := ⟨t.cnt - n, by omega⟩
  rw [hk, List.drop_append_of_le_length (by simp), natBits_drop]; simp

theorem Stream.Inv.keep {len : Nat} {t : Stream} (h : t.Inv len) {k : Nat} (hk : k ≤ t.cnt) : (t.keep k).Inv len := by
  have := h.cnt_le
  refine ⟨h.pos_le, h.nunrd_le, by simp; omega, ?_⟩
  rw [Stream.keep_acc, Stream.keep_cnt, lowBits_toNat _ (by omega)]
  exact Nat.mod_lt _ (Nat.two_pow_pos k)

/-- The first bits of the string, as the accumulator holds them. -/
theorem bitsValue_take_pending {src : List Byte} {t : Stream} {n : Nat} (hn : n ≤ t.cnt) :
    bitsValue ((pending src t).take n) = t.acc.toNat / 2 ^ (t.cnt - n) % 2 ^ n := by
  unfold pending
  obtain ⟨k, hk⟩ : ∃ k, t.cnt = n + k := ⟨t.cnt - n, by omega⟩
  rw [hk, List.take_append_of_le_length (by simp), natBits_take, bitsValue_natBits]
  congr 3; omega

/-- Everything ReadBits can do: it serves the next bits of the string, or faults when they are not there. -/
theorem readBits_spec {src : List Byte} {t : Stream} {n : Nat} (ht : t.Inv src.length) (hn : n ≤ 16) :
    (n ≤ (pending src t).length → ∃ t', readBits src n t = .ok (bitsValue ((pending src t).take n)) t' ∧ t'.Inv src.length ∧
      pending src t' = (pending src t).drop n ∧ shortage src t' = shortage src t) ∧
    ((pending src t).length < n → ∃ t', readBits src n t = .error (shortage src t) t' ∧ t'.Inv src.length) := by
  by_cases h0 : n = 0
  · subst h0
    exact ⟨fun _ => ⟨t, by simp [readBits, bitsValue], ht, by simp, rfl⟩, fun h => by omega⟩
  · obtain ⟨h1, h2⟩ := ensureLoop_spec src n hn n t ht (by omega)
    refine ⟨fun h => ?_, fun h => ?_⟩
    · obtain ⟨t', he, hi, hp, hs, hc, _⟩ := h1 h
      have hc23 := hi.cnt_le
      refine ⟨t'.keep (t'.cnt - n), ?_, hi.keep (by omega), ?_, hs⟩
      · have hv : (lowBits (t'.acc >>> (t'.cnt - n)) n).toNat = bitsValue ((pending src t).take n) := by
          rw [← hp, bitsValue_take_pending hc, lowBits_toNat _ (by omega), BitVec.toNat_ushiftRight, Nat.shiftRight_eq_div_pow]
        simp only [readBits, h0, if_false, ensureBits, he, hv]
      · rw [pending_keep hc (by omega), hp]
    · obtain ⟨t', he, hi, _⟩ := h2 h
      exact ⟨t', by simp only [readBits, h0, if_false, ensureBits, he], hi⟩

end Sys2Proof.Machine
end

