-- ==== Sys2Proof/Laws/Huffman.lean ====
section
/-! SUPPORT. The table build of `43_huffman.md` R150 to R153, and everything a decode can do on a table it made (R157). -/

namespace Sys2Proof.Machine

open Sys2Proof.Reference

/-! ### Counts and codes -/

theorem countOf_zero (counts : Vector Byte 16) : countOf counts 0 = 0 := rfl

theorem countOf_succ (counts : Vector Byte 16) (L : Fin 16) : countOf counts (L.val + 1) = counts[L].toNat := by
  simp [countOf]

theorem countUpTo_mono (counts : Vector Byte 16) {L M : Nat} (h : L ≤ M) : countUpTo counts L ≤ countUpTo counts M := by
  induction M with
  | zero => rw [Nat.le_zero.mp h]
  | succ M ih =>
    rcases Nat.lt_or_ge M L with h' | h'
    · rw [show L = M + 1 by omega]
    · exact le_trans (ih h') (by simp [countUpTo])

theorem countsLegal_iff (counts : Vector Byte 16) :
    countsLegal counts = true ↔ totalCodes counts ≠ 0 ∧ totalCodes counts ≤ 256 ∧
      ∀ L, 1 ≤ L → L ≤ 16 → countOf counts L ≠ 0 → codeAt counts L + countOf counts L ≤ 2 ^ L := by
  simp only [countsLegal, oversubscribed, oversubscribedAt, Bool.and_eq_true, bne_iff_ne, decide_eq_true_eq, Bool.not_eq_true',
    List.any_eq_false, List.mem_range'_1, not_and, not_lt, and_assoc]
  refine and_congr_right fun _ => and_congr_right fun _ => ?_
  exact ⟨fun h L h1 h2 h3 => h L ⟨h1, by omega⟩ h3, fun h L hL h3 => h L hL.1 (by omega) h3⟩

/-- With legal counts the codes of every length fit it: R154 (b), also for lengths without codes. -/
theorem codeAt_add_le {counts : Vector Byte 16} (h : countsLegal counts = true) {L : Nat} (hL : L ≤ 16) :
    codeAt counts L + countOf counts L ≤ 2 ^ L := by
  have hleg := ((countsLegal_iff counts).mp h).2.2
  induction L with
  | zero => simp [codeAt, countOf]
  | succ L ih =>
    by_cases hc : countOf counts (L + 1) = 0
    · have := ih (by omega)
      simp only [hc, codeAt, pow_succ]; omega
    · exact hleg (L + 1) (by omega) hL hc

/-- A symbol index of a code lies below the total. -/
theorem index_lt_total {counts : Vector Byte 16} {L j : Nat} (hL : L < 16) (hj : j < countOf counts (L + 1)) :
    countUpTo counts L + j < totalCodes counts := by
  have := countUpTo_mono counts (show L + 1 ≤ 16 by omega)
  simp only [totalCodes, countUpTo] at this ⊢; omega

theorem isCode_iff (counts : Vector Byte 16) (L v : Nat) :
    isCode counts L v = true ↔ codeAt counts L ≤ v ∧ v < codeAt counts L + countOf counts L := by
  simp [isCode]

/-! ### The fields of a built table -/

section
variable (counts : Vector Byte 16) (symbol : Nat → Byte) (L : Fin 16)

@[simp] theorem buildTable_nCodes : (buildTable counts symbol).nCodes = totalCodes counts := rfl

@[simp] theorem buildTable_counts : (buildTable counts symbol).counts = counts := rfl

theorem buildTable_minCode : (buildTable counts symbol).minCode[L] = orAbsent counts (L.val + 1) (codeAt counts (L.val + 1)) := by
  simp [buildTable]

theorem buildTable_maxCode : (buildTable counts symbol).maxCode[L] =
    orAbsent counts (L.val + 1) (codeAt counts (L.val + 1) + countOf counts (L.val + 1) - 1) := by
  simp [buildTable]

theorem buildTable_valsIndex : (buildTable counts symbol).valsIndex[L] = orAbsent counts (L.val + 1) (countUpTo counts L.val) := by
  simp [buildTable]

theorem buildTable_vals (i : Fin 256) : (buildTable counts symbol).vals[i] = if i.val < totalCodes counts then symbol i.val else 0 := by
  simp [buildTable]

theorem buildTable_lut (i : Fin 256) :
    (buildTable counts symbol).lut[i] = lutEntry counts (buildTable counts symbol).vals i.val := by
  simp [buildTable]

end

theorem codeAt_succ (counts : Vector Byte 16) (L : Nat) : codeAt counts (L + 1) = 2 * (codeAt counts L + countOf counts L) := rfl

/-- Within its length's codes, maxCode is what R157 compares with: the walk knows `code` to be no smaller than the first code (R154 (c)). -/
theorem le_maxCode_iff (counts : Vector Byte 16) (symbol : Nat → Byte) (L : Fin 16) {v : Nat} (h : codeAt counts (L.val + 1) ≤ v) :
    (v : Int) ≤ (buildTable counts symbol).maxCode[L] ↔ isCode counts (L.val + 1) v = true := by
  rw [buildTable_maxCode, isCode_iff, orAbsent]
  split <;> omega

/-- The symbol of the code `v` of length `L + 1`. -/
def builtSymbol (counts : Vector Byte 16) (symbol : Nat → Byte) (L v : Nat) : Byte :=
  symbol (countUpTo counts L + (v - codeAt counts (L + 1)))

/-- The front of a bit string, on a built table. -/
theorem codeAtFront_built {counts : Vector Byte 16} (hl : countsLegal counts = true) (symbol : Nat → Byte) (bs : List Bool) (L : Fin 16) :
    codeAtFront (buildTable counts symbol) bs L =
      if L.val + 1 ≤ bs.length ∧ isCode counts (L.val + 1) (bitsValue (bs.take (L.val + 1))) = true then
        some (builtSymbol counts symbol L.val (bitsValue (bs.take (L.val + 1))), L.val + 1)
      else none := by
  have hleg := (countsLegal_iff counts).mp hl
  generalize hv : bitsValue (bs.take (L.val + 1)) = v
  have key : ((buildTable counts symbol).minCode[L] ≤ (v : Int) ∧ (v : Int) ≤ (buildTable counts symbol).maxCode[L]) ↔
      isCode counts (L.val + 1) v = true := by
    rw [buildTable_minCode, buildTable_maxCode, isCode_iff, orAbsent, orAbsent]
    split <;> omega
  unfold codeAtFront
  simp only [hv, key]
  split
  · rename_i h
    have hc := (isCode_iff _ _ _).mp h.2
    have hne : countOf counts (L.val + 1) ≠ 0 := by omega
    have hi := index_lt_total (counts := counts) (L := L.val) (j := v - codeAt counts (L.val + 1)) L.isLt (by omega)
    have hidx : ((buildTable counts symbol).valsIndex[L] + (v : Int) - (buildTable counts symbol).minCode[L]).toNat =
        countUpTo counts L.val + (v - codeAt counts (L.val + 1)) := by
      rw [buildTable_minCode, buildTable_valsIndex, orAbsent, orAbsent, if_neg hne, if_neg hne]; omega
    have hlt : countUpTo counts L.val + (v - codeAt counts (L.val + 1)) < 256 := by omega
    rw [hidx, Vector.getElem?_eq_getElem hlt]
    have := buildTable_vals counts symbol ⟨_, hlt⟩
    simp only [Fin.getElem_fin] at this
    rw [this, if_pos hi]; rfl
  · rfl

/-- The symbol the walk returns. -/
theorem symbolAt_built {counts : Vector Byte 16} (hl : countsLegal counts = true) (symbol : Nat → Byte) (L : Fin 16) {v : Nat}
    (h : isCode counts (L.val + 1) v = true) :
    (buildTable counts symbol).symbolAt
      ((buildTable counts symbol).valsIndex[L] + v - (buildTable counts symbol).minCode[L]) = builtSymbol counts symbol L.val v := by
  have hleg := (countsLegal_iff counts).mp hl
  have hc := (isCode_iff _ _ _).mp h
  have hne : countOf counts (L.val + 1) ≠ 0 := by omega
  have hi := index_lt_total (counts := counts) (L := L.val) (j := v - codeAt counts (L.val + 1)) L.isLt (by omega)
  have hlt : countUpTo counts L.val + (v - codeAt counts (L.val + 1)) < 256 := by omega
  have hidx : (buildTable counts symbol).valsIndex[L] + (v : Int) - (buildTable counts symbol).minCode[L] =
      ((countUpTo counts L.val + (v - codeAt counts (L.val + 1)) : Nat) : Int) := by
    rw [buildTable_minCode, buildTable_valsIndex, orAbsent, orAbsent, if_neg hne, if_neg hne]; omega
  rw [hidx, HuffTable.symbolAt, if_pos (by omega), Int.toNat_natCast, Vector.getElem?_eq_getElem hlt]
  have := buildTable_vals counts symbol ⟨_, hlt⟩
  simp only [Fin.getElem_fin] at this
  rw [this, if_pos hi]; rfl

/-! ### The walk -/

theorem finRange_drop {k : Nat} (h : k < 16) : (List.finRange 16).drop k = ⟨k, h⟩ :: (List.finRange 16).drop (k + 1) := by
  rw [List.drop_eq_getElem_cons (by simpa using h)]
  simp

/-- Everything the slow path can do from length `k + 1` on a built table: serve the first code from there that the string begins with, or fault. -/
theorem slowDecode_spec {src : List Byte} {counts : Vector Byte 16} (hl : countsLegal counts = true) (symbol : Nat → Byte) (bs : List Bool)
    (short : FaultCode) :
    ∀ (n k : Nat) (t : Stream), n + k = 16 → t.Inv src.length → k ≤ bs.length → pending src t = bs.drop k → shortage src t = short →
      codeAt counts k + countOf counts k ≤ bitsValue (bs.take k) →
      match ((List.finRange 16).drop k).findSome? (codeAtFront (buildTable counts symbol) bs) with
      | some (b, m) => ∃ t', slowDecode src (buildTable counts symbol) ((List.finRange 16).drop k) (bitsValue (bs.take k)) t = .ok b t' ∧
          t'.Inv src.length ∧ pending src t' = bs.drop m ∧ shortage src t' = short
      | none => ∃ t', slowDecode src (buildTable counts symbol) ((List.finRange 16).drop k) (bitsValue (bs.take k)) t =
          .error (if bs.length < 16 then short else .badHuffmanCode) t' ∧ t'.Inv src.length := by
  intro n
  induction n with
  | zero =>
    intro k t hk ht hkl hp hs hc
    have : k = 16 := by omega
    subst this
    rw [List.drop_eq_nil_of_le (by simp)]
    exact ⟨t, by rw [if_neg (by omega)]; rfl, ht⟩
  | succ n ih =>
    intro k t hk ht hkl hp hs hc
    have hk16 : k < 16 := by omega
    rw [finRange_drop hk16, List.findSome?_cons, codeAtFront_built hl]
    have hlen : (pending src t).length = bs.length - k := by rw [hp, List.length_drop]
    obtain ⟨r1, r2⟩ := readBits_spec (n := 1) ht (by omega)
    by_cases hmore : k + 1 ≤ bs.length
    · obtain ⟨t', he, hi, hp', hs'⟩ := r1 (by omega)
      have hv : 2 * bitsValue (bs.take k) + bitsValue ((pending src t).take 1) = bitsValue (bs.take (k + 1)) := by
        rw [List.take_add, bitsValue_append, hp]
        have : ((bs.drop k).take 1).length = 1 := by simp; omega
        rw [this]; ring
      have hrb : readBit src t = .ok (bitsValue ((pending src t).take 1)) t' := he
      have hge : codeAt counts (k + 1) ≤ bitsValue (bs.take (k + 1)) := by rw [codeAt_succ]; omega
      have hmax := le_maxCode_iff counts symbol ⟨k, hk16⟩ hge
      by_cases hcode : isCode counts (k + 1) (bitsValue (bs.take (k + 1))) = true
      · rw [if_pos ⟨hmore, hcode⟩]
        refine ⟨t', ?_, hi, by rw [hp', hp, List.drop_drop], hs'.trans hs⟩
        rw [slowDecode, bind_ok hrb]
        simp only [hv]
        rw [if_pos (hmax.mpr hcode), symbolAt_built hl symbol ⟨k, hk16⟩ hcode]; rfl
      · rw [if_neg (fun h => hcode h.2)]
        have hstep : slowDecode src (buildTable counts symbol) (⟨k, hk16⟩ :: (List.finRange 16).drop (k + 1)) (bitsValue (bs.take k)) t =
            slowDecode src (buildTable counts symbol) ((List.finRange 16).drop (k + 1)) (bitsValue (bs.take (k + 1))) t' := by
          rw [slowDecode, bind_ok hrb]
          simp only [hv]
          rw [if_neg (fun h => hcode (hmax.mp h))]
        rw [hstep]
        refine ih (k + 1) t' (by omega) hi hmore (by rw [hp', hp, List.drop_drop]) (hs'.trans hs) ?_
        have hn : ¬ (codeAt counts (k + 1) ≤ bitsValue (bs.take (k + 1)) ∧
            bitsValue (bs.take (k + 1)) < codeAt counts (k + 1) + countOf counts (k + 1)) := fun h => hcode ((isCode_iff _ _ _).mpr h)
        omega
    · obtain ⟨t', he, hi⟩ := r2 (by omega)
      have hrb : readBit src t = .error (shortage src t) t' := he
      rw [if_neg (fun h => hmore h.1)]
      have hnone : ((List.finRange 16).drop (k + 1)).findSome? (codeAtFront (buildTable counts symbol) bs) = none := by
        rw [List.findSome?_eq_none_iff]
        intro L hL
        rw [codeAtFront_built hl, if_neg]
        rintro ⟨h, -⟩
        obtain ⟨i, hi', rfl⟩ := List.getElem_of_mem hL
        simp at h; omega
      simp only [hnone]
      refine ⟨t', ?_, hi⟩
      rw [slowDecode, bind_error hrb, hs, if_pos (by omega)]

/-! ### The fast path -/

theorem entry_symbol (b c : Byte) : (b ++ c : BitVec 16).extractLsb' 8 8 = b := by
  apply BitVec.eq_of_toNat_eq
  rw [BitVec.extractLsb'_toNat, BitVec.toNat_append, Nat.shiftRight_eq_div_pow, Nat.shiftLeft_eq, Nat.mul_comm,
    ← Nat.two_pow_add_eq_or_of_lt c.isLt]
  have := b.isLt
  have := c.isLt
  omega

theorem entry_length (b c : Byte) : (b ++ c : BitVec 16).extractLsb' 0 8 = c := by
  apply BitVec.eq_of_toNat_eq
  rw [BitVec.extractLsb'_toNat, BitVec.toNat_append, Nat.shiftRight_eq_div_pow, Nat.shiftLeft_eq, Nat.mul_comm,
    ← Nat.two_pow_add_eq_or_of_lt c.isLt]
  have := b.isLt
  have := c.isLt
  omega

/-- A fast-table entry that is not 0 holds the first code its index begins with. -/
theorem lutEntry_spec {counts : Vector Byte 16} (hl : countsLegal counts = true) (symbol : Nat → Byte) {bs : List Bool} (hb : 8 ≤ bs.length)
    {i : Nat} (hi : i = bitsValue (bs.take 8)) :
    match (List.finRange 16).findSome? (codeAtFront (buildTable counts symbol) bs) with
    | some (b, m) => (m ≤ 8 → lutEntry counts (buildTable counts symbol).vals i = b ++ BitVec.ofNat 8 (m + 1)) ∧
        (8 < m → lutEntry counts (buildTable counts symbol).vals i = 0)
    | none => lutEntry counts (buildTable counts symbol).vals i = 0 := by
  have hleg := (countsLegal_iff counts).mp hl
  -- the leading bits of the index are the leading bits of the string
  have hpre : ∀ L, L ≤ 8 → i >>> (8 - L) = bitsValue (bs.take L) := by
    intro L hL
    have : bs.take 8 = bs.take L ++ (bs.drop L).take (8 - L) := by
      rw [← List.take_add]; congr 1; omega
    rw [hi, this, bitsValue_append, Nat.shiftRight_eq_div_pow]
    have hlen : ((bs.drop L).take (8 - L)).length = 8 - L := by simp; omega
    have hlt := bitsValue_lt ((bs.drop L).take (8 - L))
    rw [hlen] at hlt ⊢
    rw [Nat.add_comm, Nat.add_mul_div_right _ _ (Nat.two_pow_pos _), Nat.div_eq_of_lt hlt]; omega
  -- one length
  have hone : ∀ L : Fin 16, L.val + 1 ≤ 8 → codeAtFront (buildTable counts symbol) bs L =
      if isCode counts (L.val + 1) (i >>> (8 - (L.val + 1))) = true then some (builtSymbol counts symbol L.val (i >>> (8 - (L.val + 1))), L.val + 1)
      else none := by
    intro L hL
    rw [codeAtFront_built hl, hpre _ hL]
    simp [show L.val + 1 ≤ bs.length by omega]
  have hfirst : List.finRange 16 = (List.finRange 16).take 8 ++ (List.finRange 16).drop 8 := (List.take_append_drop 8 _).symm
  have hmap : List.range' 1 8 = ((List.finRange 16).take 8).map fun L => L.val + 1 := by decide
  have htake : ∀ L ∈ (List.finRange 16).take 8, L.val + 1 ≤ 8 := by decide
  have hdrop : ∀ L ∈ (List.finRange 16).drop 8, 8 < L.val + 1 := by decide
  -- the two searches go together
  have hsearch : ∀ l : List (Fin 16), (∀ L ∈ l, L.val + 1 ≤ 8) →
      match l.findSome? (codeAtFront (buildTable counts symbol) bs) with
      | some (b, m) => ∃ L : Fin 16, m = L.val + 1 ∧ m ≤ 8 ∧ isCode counts m (i >>> (8 - m)) = true ∧
          b = builtSymbol counts symbol L.val (i >>> (8 - m)) ∧
          (l.map fun L => L.val + 1).find? (fun L => isCode counts L (i >>> (8 - L))) = some m
      | none => (l.map fun L => L.val + 1).find? (fun L => isCode counts L (i >>> (8 - L))) = none := by
    intro l
    induction l with
    | nil => intro _; rfl
    | cons L l ih =>
      intro h
      rw [List.findSome?_cons, hone L (h L (by simp)), List.map_cons, List.find?_cons]
      by_cases hc : isCode counts (L.val + 1) (i >>> (8 - (L.val + 1))) = true
      · rw [if_pos hc]
        exact ⟨L, rfl, h L (by simp), hc, rfl, by simp only [hc]⟩
      · rw [if_neg hc]
        simp only [hc]
        exact ih fun L hL => h L (by simp [hL])
  have h8 := hsearch _ htake
  rw [← hmap] at h8
  rw [hfirst, List.findSome?_append]
  cases hf : ((List.finRange 16).take 8).findSome? (codeAtFront (buildTable counts symbol) bs) with
  | some p =>
    rcases p with ⟨b, m⟩
    rw [hf] at h8
    obtain ⟨L, hm, hm8, hc, hbm, hfind⟩ := h8
    simp only [Option.some_or]
    refine ⟨fun _ => ?_, fun h => by omega⟩
    rw [lutEntry, hfind]
    have hcc := (isCode_iff _ _ _).mp hc
    subst hm
    have hlt := index_lt_total (counts := counts) (L := L.val) (j := i >>> (8 - (L.val + 1)) - codeAt counts (L.val + 1)) L.isLt (by omega)
    have hidx : countUpTo counts (L.val + 1 - 1) + (i >>> (8 - (L.val + 1)) - codeAt counts (L.val + 1)) < 256 := by
      simp only [Nat.add_sub_cancel]; omega
    simp only [Vector.getElem?_eq_getElem hidx]
    have := buildTable_vals counts symbol ⟨_, hidx⟩
    simp only [Fin.getElem_fin] at this
    rw [this, hbm, if_pos (by simpa using hlt)]; rfl
  | none =>
    rw [hf] at h8
    have hz : lutEntry counts (buildTable counts symbol).vals i = 0 := by rw [lutEntry, h8]
    simp only [Option.none_or]
    cases hg : ((List.finRange 16).drop 8).findSome? (codeAtFront (buildTable counts symbol) bs) with
    | none => exact hz
    | some p =>
      rcases p with ⟨b, m⟩
      refine ⟨fun hm => ?_, fun _ => hz⟩
      obtain ⟨L, hL, hfound⟩ := List.exists_of_findSome?_eq_some hg
      rw [codeAtFront_built hl] at hfound
      split at hfound
      · have := hdrop L hL
        simp only [Option.some.injEq, Prod.mk.injEq] at hfound
        omega
      · cases hfound

/-- Everything HuffDecode can do on a table HT.BUILD made: it serves the one code the string begins with, or faults as R157 says. -/
theorem huffDecode_spec {src : List Byte} {t : Stream} {T : HuffTable} (ht : t.Inv src.length) (hT : T.built) :
    match symbol (shortage src t) T (pending src t) with
    | .ok (b, rest) => ∃ t', huffDecode src T t = .ok b t' ∧ t'.Inv src.length ∧ pending src t' = rest ∧ shortage src t' = shortage src t
    | .error f => ∃ t', huffDecode src T t = .error f t' ∧ t'.Inv src.length := by
  obtain ⟨counts, sym, hl, rfl⟩ := hT
  have hleg := (countsLegal_iff counts).mp hl
  have hn : (buildTable counts sym).nCodes ≠ 0 := hleg.1
  -- the slow path, from any stream with the same string
  have slow : ∀ t' : Stream, t'.Inv src.length → pending src t' = pending src t → shortage src t' = shortage src t →
      match symbol (shortage src t) (buildTable counts sym) (pending src t) with
      | .ok (b, rest) => ∃ u, slowDecode src (buildTable counts sym) (List.finRange 16) 0 t' = .ok b u ∧ u.Inv src.length ∧
          pending src u = rest ∧ shortage src u = shortage src t
      | .error f => ∃ u, slowDecode src (buildTable counts sym) (List.finRange 16) 0 t' = .error f u ∧ u.Inv src.length := by
    intro t' hi hp hs
    have := slowDecode_spec hl sym (pending src t) (shortage src t) 16 0 t' rfl hi (by omega) (by simpa using hp) hs (by simp [codeAt, countOf])
    rw [symbol, if_neg hn]
    rw [List.drop_zero] at this
    cases hf : (List.finRange 16).findSome? (codeAtFront (buildTable counts sym) (pending src t)) with
    | none =>
      rw [hf] at this
      obtain ⟨u, hu, hiu⟩ := this
      by_cases h16 : (pending src t).length < 16
      · rw [if_pos h16] at hu; simp only [h16, if_true]; exact ⟨u, hu, hiu⟩
      · rw [if_neg h16] at hu; simp only [h16, if_false]; exact ⟨u, hu, hiu⟩
    | some p =>
      rcases p with ⟨b, m⟩
      rw [hf] at this
      exact this
  -- the peek
  have hfill : ∃ peek t', fillPeek src t = .ok peek t' ∧ t'.Inv src.length ∧ pending src t' = pending src t ∧
      shortage src t' = shortage src t ∧ (peek = true → 8 ≤ t'.cnt) := by
    unfold fillPeek
    by_cases hc : t.cnt < 8
    · obtain ⟨e1, e2⟩ := ensureLoop_spec src 8 (by omega) 8 t ht (by omega)
      by_cases h8 : 8 ≤ (pending src t).length
      · obtain ⟨t', he, hi, hp, hs, hge, _⟩ := e1 h8
        exact ⟨true, t', by simp only [hc, if_true, ensureBits, he], hi, hp, hs, fun _ => hge⟩
      · obtain ⟨t', he, hi, hp, hs, _⟩ := e2 (by omega)
        exact ⟨false, t', by simp only [hc, if_true, ensureBits, he], hi, hp, hs, by simp⟩
    · exact ⟨true, t, by simp only [hc, if_false], ht, rfl, rfl, fun _ => by omega⟩
  obtain ⟨peek, t', hpk, hi, hp, hs, hge⟩ := hfill
  have hdec : huffDecode src (buildTable counts sym) t =
      if peek = true ∧ (buildTable counts sym).lut[t'.peek.toFin] ≠ 0 then
        .ok ((buildTable counts sym).lut[t'.peek.toFin].extractLsb' 8 8)
          (t'.keep (t'.cnt - (((buildTable counts sym).lut[t'.peek.toFin].extractLsb' 0 8).toNat - 1)))
      else slowDecode src (buildTable counts sym) (List.finRange 16) 0 t' := by
    simp only [huffDecode, hn, if_false, hpk]
  rw [hdec]
  by_cases hfast : peek = true ∧ (buildTable counts sym).lut[t'.peek.toFin] ≠ 0
  · rw [if_pos hfast]
    have h8 := hge hfast.1
    have h23 := hi.cnt_le
    have hlen : 8 ≤ (pending src t).length := by rw [← hp, pending_length]; omega
    have hpeek : t'.peek.toFin.val = bitsValue ((pending src t).take 8) := by
      rw [← hp, bitsValue_take_pending h8]
      show t'.peek.toNat = _
      rw [Stream.peek, BitVec.toNat_setWidth, BitVec.toNat_ushiftRight, Nat.shiftRight_eq_div_pow]
    have hlut := lutEntry_spec hl sym hlen hpeek
    rw [← buildTable_lut] at hlut
    rw [symbol, if_neg hn]
    cases hf : (List.finRange 16).findSome? (codeAtFront (buildTable counts sym) (pending src t)) with
    | none => rw [hf] at hlut; exact absurd hlut hfast.2
    | some p =>
      rcases p with ⟨b, m⟩
      rw [hf] at hlut
      have hm8 : m ≤ 8 := by
        by_contra hlt; exact hfast.2 (hlut.2 (by omega))
      rw [hlut.1 hm8]
      have hsym : (b ++ BitVec.ofNat 8 (m + 1) : BitVec 16).extractLsb' 8 8 = b := entry_symbol _ _
      have hlow : ((b ++ BitVec.ofNat 8 (m + 1) : BitVec 16).extractLsb' 0 8).toNat = m + 1 := by
        rw [entry_length, BitVec.toNat_ofNat, Nat.mod_eq_of_lt (by omega)]
      simp only [hsym, hlow, Nat.add_sub_cancel]
      refine ⟨_, rfl, hi.keep (by omega), ?_, hs⟩
      rw [pending_keep (by omega) (by omega), hp]
  · rw [if_neg hfast]
    exact slow t' hi hp hs

end Sys2Proof.Machine
end

