-- ==== Sys2Proof/Laws/CoefLoad.lean ====
section
/-! SUPPORT. Everything the stream pseudocode and the block walks of `44_coefload.md` can do, by the reference decoder over the bit string. -/

namespace Sys2Proof.Machine

open Sys2Proof.Reference

/-! ### The reference decoder's sequencing -/

theorem dec_bind_ok {α β : Type} {d : Dec α} {g : α → Dec β} {bs rest : List Bool} {a : α} (h : d bs = .ok (a, rest)) :
    (d >>= g) bs = g a rest := by
  show (StateT.bind d g) bs = _; simp only [StateT.bind, h]; rfl

theorem dec_bind_error {α β : Type} {d : Dec α} {g : α → Dec β} {bs : List Bool} {f : FaultCode} (h : d bs = .error f) :
    (d >>= g) bs = .error f := by
  show (StateT.bind d g) bs = _; simp only [StateT.bind, h]; rfl

theorem dec_pure {α : Type} (a : α) (bs : List Bool) : (pure a : Dec α) bs = .ok (a, bs) := rfl

theorem dec_throw {α : Type} (f : FaultCode) (bs : List Bool) : (throw f : Dec α) bs = .error f := rfl

/-! ### Stream pseudocode -/

/-- From any stream that meets the invariant, `m` does what `d` does on the bit string, given the fault that stands at its end. -/
def Serves {α : Type} (src : List Byte) (m : Bits α) (d : FaultCode → Dec α) : Prop :=
  ∀ t : Stream, t.Inv src.length →
    match d (shortage src t) (pending src t) with
    | .ok (a, rest) => ∃ t', m t = .ok a t' ∧ t'.Inv src.length ∧ pending src t' = rest ∧ shortage src t' = shortage src t
    | .error f => ∃ t', m t = .error f t' ∧ t'.Inv src.length

theorem Serves.pure {α : Type} (src : List Byte) (a : α) : Serves src (Pure.pure a) fun _ => Pure.pure a :=
  fun t ht => ⟨t, rfl, ht, rfl, rfl⟩

theorem Serves.throw {α : Type} (src : List Byte) (f : FaultCode) :
    Serves src (throwThe FaultCode f : Bits α) fun _ => throwThe FaultCode f := fun t ht => ⟨t, rfl, ht⟩

theorem Serves.bind {α β : Type} {src : List Byte} {m : Bits α} {d : FaultCode → Dec α} {f : α → Bits β} {g : FaultCode → α → Dec β}
    (hm : Serves src m d) (hf : ∀ a, Serves src (f a) fun short => g short a) : Serves src (m >>= f) fun short => d short >>= g short := by
  intro t ht
  have h1 := hm t ht
  cases hd : d (shortage src t) (pending src t) with
  | error e =>
    rw [hd] at h1
    obtain ⟨t', he, hi⟩ := h1
    simp only [dec_bind_error hd]
    exact ⟨t', bind_error he, hi⟩
  | ok p =>
    rcases p with ⟨a, rest⟩
    rw [hd] at h1
    obtain ⟨t', he, hi, hp, hs⟩ := h1
    have h2 := hf a t' hi
    simp only [dec_bind_ok hd]
    rw [hs, hp] at h2
    rw [bind_ok he]
    exact h2

theorem readBits_serves (src : List Byte) {n : Nat} (hn : n ≤ 16) : Serves src (readBits src n) fun short => takeBits short n := by
  intro t ht
  obtain ⟨h1, h2⟩ := readBits_spec (n := n) ht hn
  by_cases h : (pending src t).length < n
  · simp only [takeBits, h, if_true]; exact h2 h
  · simp only [takeBits, h, if_false]
    exact h1 (by omega)

theorem receiveExtend_serves (src : List Byte) {n : Nat} (hn : n ≤ 16) : Serves src (receiveExtend src n) fun short => receive short n := by
  unfold receiveExtend receive
  by_cases h0 : n = 0
  · simp only [h0, if_true]; exact Serves.pure src 0
  · simp only [h0, if_false]
    exact Serves.bind (g := fun _ (x : Nat) => Pure.pure (if x < 2 ^ (n - 1) then (x : Int) - 2 ^ n + 1 else x)) (readBits_serves src hn)
      fun x => Serves.pure src (extend n x)

/-- A table that meets the invariant: undefined or built. -/
theorem huffDecode_serves (src : List Byte) {T : HuffTable} (hT : T.nCodes = 0 ∨ T.built) :
    Serves src (huffDecode src T) fun short => symbol short T := by
  intro t ht
  rcases hT with h | h
  · simp only [symbol, h, if_true]
    exact ⟨t, by simp [huffDecode, h], ht⟩
  · have := huffDecode_spec ht h
    revert this
    dsimp only
    cases symbol (shortage src t) T (pending src t) with
    | ok p => exact id
    | error f => exact id

theorem decodeDcDiff_serves (src : List Byte) {T : HuffTable} (hT : T.nCodes = 0 ∨ T.built) :
    Serves src (decodeDcDiff src T) fun short => dcDiff short T := by
  refine Serves.bind (g := fun short (s : Byte) => if s.toNat > 16 then MonadExcept.throw .badCoefficientSize else receive short s.toNat)
    (huffDecode_serves src hT) fun s => ?_
  by_cases h : s.toNat > 16
  · simp only [h, if_true]; exact Serves.throw src _
  · simp only [h, if_false]; exact receiveExtend_serves src (by omega)

/-! ### Block walks -/

/-- Running stream pseudocode inside a walk. -/
theorem walkStream_serves {α : Type} {src : List Byte} {m : Bits α} {d : FaultCode → Dec α} (h : Serves src m d) (l : Load)
    (hi : l.stream.Inv src.length) :
    match d (shortage src l.stream) (pending src l.stream) with
    | .ok (a, rest) => ∃ t, walkStream m l = .ok a { l with stream := t } ∧ t.Inv src.length ∧ pending src t = rest ∧
        shortage src t = shortage src l.stream
    | .error f => ∃ t, walkStream m l = .error f { l with stream := t } ∧ t.Inv src.length := by
  have := h l.stream hi
  revert this
  cases d (shortage src l.stream) (pending src l.stream) with
  | ok p => exact fun ⟨t, he, hr⟩ => ⟨t, walkStream_ok he, hr⟩
  | error f => exact fun ⟨t, he, hr⟩ => ⟨t, walkStream_error he, hr⟩

/-- The walk `w` does what `d` does: `out` reads the reference's answer off the walk's result. -/
def WalkServes {α β : Type} (src : List Byte) (w : Walk α) (d : FaultCode → Dec β) (l : Load) (out : α → Load → β → Prop) : Prop :=
  match d (shortage src l.stream) (pending src l.stream) with
  | .ok (b, rest) => ∃ a l', w l = .ok a l' ∧ out a l' b ∧ l'.stream.Inv src.length ∧ pending src l'.stream = rest ∧
      shortage src l'.stream = shortage src l.stream
  | .error f => ∃ l', w l = .error f l' ∧ l'.stream.Inv src.length

theorem WalkServes.pure {α β : Type} {src : List Byte} {l : Load} (hi : l.stream.Inv src.length) {a : α} {b : β}
    {out : α → Load → β → Prop} (h : out a l b) : WalkServes src (Pure.pure a) (fun _ => Pure.pure b) l out :=
  ⟨a, l, rfl, h, hi, rfl, rfl⟩

theorem WalkServes.throw {α β : Type} {src : List Byte} {l : Load} (hi : l.stream.Inv src.length) (f : FaultCode)
    {out : α → Load → β → Prop} : WalkServes src (throwThe FaultCode f : Walk α) (fun _ => (throwThe FaultCode f : Dec β)) l out :=
  ⟨l, rfl, hi⟩

/-- A walk that starts with stream pseudocode. -/
theorem WalkServes.stream {α β γ δ : Type} {src : List Byte} {m : Bits γ} {d : FaultCode → Dec γ} (h : Serves src m d) {l : Load}
    (hi : l.stream.Inv src.length) {w : γ → Walk α} {g : FaultCode → γ → Dec β} {out : α → Load → β → Prop}
    (hw : ∀ a t, t.Inv src.length → WalkServes src (w a) (fun short => g short a) { l with stream := t } out) (_ : δ → δ) :
    WalkServes src (walkStream m >>= w) (fun short => d short >>= g short) l out := by
  have h1 := walkStream_serves h l hi
  unfold WalkServes
  cases hd : d (shortage src l.stream) (pending src l.stream) with
  | error e =>
    rw [hd] at h1
    obtain ⟨t, he, hr⟩ := h1
    simp only [dec_bind_error hd]
    exact ⟨_, bind_error he, hr⟩
  | ok p =>
    rcases p with ⟨a, rest⟩
    rw [hd] at h1
    obtain ⟨t, he, ht, hp, hs⟩ := h1
    have h2 := hw a t ht
    unfold WalkServes at h2
    simp only [hs, hp] at h2
    simp only [dec_bind_ok hd, bind_ok he]
    exact h2

/-- A walk that goes on after another walk. -/
theorem WalkServes.bind {α β γ δ : Type} {src : List Byte} {m : Walk γ} {d : FaultCode → Dec δ} {l : Load} {mid : γ → Load → δ → Prop}
    (h : WalkServes src m d l mid) {w : γ → Walk α} {g : FaultCode → δ → Dec β} {out : α → Load → β → Prop}
    (hw : ∀ a l' b, mid a l' b → l'.stream.Inv src.length → WalkServes src (w a) (fun short => g short b) l' out) :
    WalkServes src (m >>= w) (fun short => d short >>= g short) l out := by
  unfold WalkServes at h ⊢
  cases hd : d (shortage src l.stream) (pending src l.stream) with
  | error e =>
    rw [hd] at h
    obtain ⟨l', he, hr⟩ := h
    simp only [dec_bind_error hd]
    exact ⟨_, bind_error he, hr⟩
  | ok p =>
    rcases p with ⟨b, rest⟩
    rw [hd] at h
    obtain ⟨a, l', he, hm, hi, hp, hs⟩ := h
    have h2 := hw a l' b hm hi
    unfold WalkServes at h2
    simp only [hs, hp] at h2
    simp only [dec_bind_ok hd, bind_ok he]
    exact h2

/-- A walk that goes on after a pure change of what it has written. -/
theorem WalkServes.modify {α β : Type} {src : List Byte} {l : Load} {u : Load → Load} (hu : (u l).stream = l.stream) {w : PUnit → Walk α}
    {d : FaultCode → Dec β} {out : α → Load → β → Prop} (h : WalkServes src (w ⟨⟩) d (u l) out) :
    WalkServes src (modify u >>= w) d l out := by
  unfold WalkServes at h ⊢
  rw [hu] at h
  rw [bind_ok (modify_apply u l)]
  exact h

/-- A walk that starts by looking at what it has written. -/
theorem WalkServes.get {α β : Type} {src : List Byte} {l : Load} {w : Load → Walk α}
    {d : FaultCode → Dec β} {out : α → Load → β → Prop} (h : WalkServes src (w l) d l out) : WalkServes src (get >>= w) d l out := by
  unfold WalkServes at h ⊢
  rw [bind_ok (get_apply l)]
  exact h

/-- The AC loop of CL.BLK (R176). -/
theorem blkLoop_serves {src : List Byte} {T : HuffTable} (hT : T.nCodes = 0 ∨ T.built) :
    ∀ (rounds k : Nat) (l : Load), l.stream.Inv src.length →
      WalkServes src (blkLoop src T rounds k) (fun short => blockAc short T rounds k l.coef) l
        fun _ l' c => l'.coef = c ∧ l'.eobrun = l.eobrun := by
  intro rounds
  induction rounds with
  | zero => exact fun k l hi => WalkServes.pure hi ⟨rfl, rfl⟩
  | succ rounds ih =>
    intro k l hi
    unfold blkLoop blockAc
    by_cases hk : k > 63
    · simp only [hk, if_true]; exact WalkServes.pure hi ⟨rfl, rfl⟩
    · simp only [hk, if_false, splitSymbol]
      refine WalkServes.stream (huffDecode_serves src hT) hi (fun rs t ht => ?_) (id : Unit → Unit)
      by_cases hs : rs.toNat % 16 ≠ 0
      · simp only [hs, ne_eq, not_false_eq_true, if_true]
        by_cases ho : k + rs.toNat / 16 > 63
        · simp only [ho, if_true]; exact WalkServes.throw ht _
        · simp only [ho, if_false]
          refine WalkServes.stream (receiveExtend_serves src (by omega)) ht (fun v u hu => ?_) (id : Unit → Unit)
          exact WalkServes.modify rfl (ih _ _ hu)
      · simp only [hs, if_false]
        by_cases hr : rs.toNat / 16 = 15
        · simp only [hr, if_true]
          by_cases ho : k + 15 > 63
          · simp only [ho, if_true]; exact WalkServes.throw ht _
          · simp only [ho, if_false]; exact ih _ _ ht
        · simp only [hr, if_false]; exact WalkServes.pure ht ⟨rfl, rfl⟩

theorem or_toNat_twoPow {r x : Nat} (hr : r ≤ 14) (hx : x < 2 ^ r) :
    (BitVec.twoPow 16 r ||| BitVec.ofNat 16 x) = BitVec.ofNat 16 (2 ^ r + x) := by
  have h14 : 2 ^ r ≤ 2 ^ 14 := Nat.pow_le_pow_right (by omega) hr
  apply BitVec.eq_of_toNat_eq
  rw [BitVec.toNat_or, BitVec.toNat_twoPow, BitVec.toNat_ofNat, BitVec.toNat_ofNat, Nat.mod_eq_of_lt (a := 2 ^ r) (by omega),
    Nat.mod_eq_of_lt (a := x) (by omega), Nat.mod_eq_of_lt (by omega)]
  have := Nat.two_pow_add_eq_or_of_lt hx 1
  simpa using this.symm

/-- The end-of-band run of R179 and R180. -/
theorem readEobRun_serves {src : List Byte} {r : Nat} (hr : r ≤ 14) (l : Load) (hi : l.stream.Inv src.length) :
    WalkServes src (readEobRun src r) (fun short => eobRun short r) l
      fun _ l' n => l'.coef = l.coef ∧ l'.eobrun = BitVec.ofNat 16 n ∧ 1 ≤ n ∧ n ≤ 32767 := by
  have hpow : 1 ≤ 2 ^ r ∧ 2 ^ r ≤ 2 ^ 14 := ⟨Nat.one_le_two_pow, Nat.pow_le_pow_right (by omega) hr⟩
  unfold readEobRun eobRun
  refine WalkServes.modify rfl ?_
  by_cases h0 : r = 0
  · subst h0
    have e : ∀ short bs, takeBits short 0 bs = .ok (0, bs) := fun short bs => by simp [takeBits, bitsValue]
    have : (fun short => (do let x ← takeBits short 0; Pure.pure (2 ^ 0 + x) : Dec Nat)) = fun _ => Pure.pure 1 := by
      funext short bs; exact dec_bind_ok (e short bs)
    rw [this]
    simp only [ne_eq, not_true_eq_false, if_false]
    refine ⟨⟨⟩, { l with eobrun := 1 }, ?_, ⟨rfl, rfl, by omega, by omega⟩, hi, rfl, rfl⟩
    have : (BitVec.twoPow 16 0 ||| BitVec.ofNat 16 0) = (1 : Half) := by decide
    rw [bind_ok (pure_apply _ _), modify_apply, this]
  · simp only [ne_eq, h0, not_false_eq_true, if_true]
    have h1 := walkStream_serves (readBits_serves src (n := r) (by omega)) { l with eobrun := BitVec.twoPow 16 r } hi
    unfold WalkServes
    by_cases hlen : (pending src l.stream).length < r
    · have hd : takeBits (shortage src l.stream) r (pending src l.stream) = .error (shortage src l.stream) := by simp [takeBits, hlen]
      simp only [hd] at h1
      obtain ⟨t, he, ht⟩ := h1
      simp only [dec_bind_error hd]
      exact ⟨_, bind_error he, ht⟩
    · have hd : takeBits (shortage src l.stream) r (pending src l.stream) =
          .ok (bitsValue ((pending src l.stream).take r), (pending src l.stream).drop r) := by simp [takeBits, hlen]
      have hx : bitsValue ((pending src l.stream).take r) < 2 ^ r := by
        have := bitsValue_lt ((pending src l.stream).take r)
        rwa [List.length_take, Nat.min_eq_left (by omega)] at this
      simp only [hd] at h1
      obtain ⟨t, he, ht, hp, hs⟩ := h1
      simp only [dec_bind_ok hd, dec_pure]
      refine ⟨⟨⟩, { l with stream := t, eobrun := BitVec.twoPow 16 r ||| BitVec.ofNat 16 (bitsValue ((pending src l.stream).take r)) }, ?_, ⟨rfl, ?_, ?_, ?_⟩, ht, hp, hs⟩
      · rw [bind_ok he]; rfl
      · exact or_toNat_twoPow hr hx
      · omega
      · omega

/-- `w32` of a shifted value. -/
theorem w32_shift (v : Int) (al : Nat) : w32 v <<< al = w32 (v * 2 ^ al) := by
  apply BitVec.eq_of_toInt_eq
  rw [w32, w32, BitVec.toInt_shiftLeft, BitVec.toInt_ofInt, Nat.shiftLeft_eq, Int.natCast_mul]
  have h1 : ((BitVec.ofInt 32 v).toNat : Int) = v % 2 ^ 32 := by
    rw [BitVec.toNat_ofInt]; exact Int.toNat_of_nonneg (Int.emod_nonneg _ (by norm_num))
  rw [h1, Nat.cast_pow, Nat.cast_ofNat, Int.bmod_def, Int.bmod_def]
  have : (v % 2 ^ 32 * 2 ^ al) % ((2 ^ 32 : Nat) : Int) = (v * 2 ^ al) % ((2 ^ 32 : Nat) : Int) := by
    norm_num
    rw [Int.mul_emod, Int.emod_emod_of_dvd _ (dvd_refl _), ← Int.mul_emod]
  rw [this]

/-- The loop of CL.ACF (R179) from a zero end-of-band run. -/
theorem acfLoop_serves {src : List Byte} {T : HuffTable} (hT : T.nCodes = 0 ∨ T.built) (se al : Nat) :
    ∀ (rounds k : Nat) (l : Load), l.stream.Inv src.length → l.eobrun = 0 →
      WalkServes src (acfLoop src T se al rounds k) (fun short => bandFirst short T se al rounds k l.coef) l
        fun _ l' p => l'.coef = p.1 ∧ l'.eobrun = BitVec.ofNat 16 p.2 ∧ p.2 ≤ 32766 := by
  intro rounds
  induction rounds with
  | zero => exact fun k l hi he => WalkServes.pure hi ⟨rfl, he, by omega⟩
  | succ rounds ih =>
    intro k l hi he
    unfold acfLoop bandFirst
    by_cases hk : k > se
    · simp only [hk, if_true]; exact WalkServes.pure hi ⟨rfl, he, by omega⟩
    · simp only [hk, if_false, splitSymbol]
      refine WalkServes.stream (huffDecode_serves src hT) hi (fun rs t ht => ?_) (id : Unit → Unit)
      by_cases hs : rs.toNat % 16 ≠ 0
      · simp only [hs, ne_eq, not_false_eq_true, if_true]
        by_cases ho : k + rs.toNat / 16 > se
        · simp only [ho, if_true]; exact WalkServes.throw ht _
        · simp only [ho, if_false]
          refine WalkServes.stream (receiveExtend_serves src (by omega)) ht (fun v u hu => ?_) (id : Unit → Unit)
          have := ih (k + rs.toNat / 16 + 1) (({ l with stream := u } : Load).put (k + rs.toNat / 16) (w32 v <<< al)) hu he
          rw [Load.put_coef, w32_shift] at this
          rw [w32_shift]
          exact WalkServes.modify rfl this
      · simp only [hs, if_false]
        by_cases hr : rs.toNat / 16 ≠ 15
        · simp only [ne_eq, hr, not_false_eq_true, if_true]
          have hr14 : rs.toNat / 16 ≤ 14 := by have := rs.isLt; omega
          refine WalkServes.bind (readEobRun_serves hr14 { l with stream := t } ht) fun _ l' n hm hi' => ?_
          refine ⟨⟨⟩, l'.countEob, rfl, ⟨hm.1, ?_, by show n - 1 ≤ 32766; omega⟩, hi', rfl, rfl⟩
          show l'.eobrun - 1 = BitVec.ofNat 16 (n - 1)
          rw [hm.2.1]
          apply BitVec.eq_of_toNat_eq
          simp; omega
        · simp only [hr, if_false]
          by_cases ho : k + 15 > se
          · simp only [ho, if_true]; exact WalkServes.throw ht _
          · simp only [ho, if_false]; exact ih _ _ ht he

/-- `delta` is the integer 2^al. -/
theorem bitAt_eq (al : Nat) : bitAt al = w32 (2 ^ al) := by
  rw [bitAt, w32]
  apply BitVec.eq_of_toInt_eq
  rw [BitVec.toInt_ofInt, BitVec.toInt_eq_toNat_bmod, BitVec.toNat_twoPow]
  have := Int.emod_bmod (2 ^ al) 4294967296
  simpa using this

/-- A nonzero coefficient is moved away from zero as the integers are (R174). -/
theorem awayFromZero_eq (v : Word) (al : Nat) :
    awayFromZero v (bitAt al) = w32 (if v.toInt ≥ 0 then v.toInt + 2 ^ al else v.toInt - 2 ^ al) := by
  have h2 := bitAt_eq al
  have hv : v = w32 v.toInt := by rw [w32, BitVec.ofInt_toInt]
  have hm : v.msb = decide (v.toInt < 0) := BitVec.msb_eq_toInt
  unfold awayFromZero
  by_cases h : v.toInt < 0
  · rw [hm, if_pos (by simpa using h), if_neg (by omega), h2]
    conv_lhs => rw [hv]
    rw [w32, w32, w32, BitVec.sub_eq_add_neg, ← BitVec.ofInt_neg, ← BitVec.ofInt_add, Int.sub_eq_add_neg]
  · rw [hm, if_neg (by simpa using h), if_pos (by omega), h2]
    conv_lhs => rw [hv]
    rw [w32, w32, w32, BitVec.ofInt_add]

/-- RefineNonZeroes (R174). -/
theorem refineNonZeroes_serves {src : List Byte} (se al : Nat) :
    ∀ (rounds k : Nat) (nz : Option Nat) (l : Load), l.stream.Inv src.length →
      WalkServes src (refineNonZeroes src se (bitAt al) rounds k nz) (fun short => refine short se al rounds k nz l.coef) l
        fun a l' p => a = p.1 ∧ l'.coef = p.2 ∧ l'.eobrun = l.eobrun := by
  intro rounds
  induction rounds with
  | zero => exact fun k nz l hi => WalkServes.pure hi ⟨rfl, rfl, rfl⟩
  | succ rounds ih =>
    intro k nz l hi
    unfold refineNonZeroes Reference.refine
    by_cases hk : k > se
    · simp only [hk, if_true]; exact WalkServes.pure hi ⟨rfl, rfl, rfl⟩
    · simp only [hk, if_false]
      refine WalkServes.get ?_
      by_cases hz : l.coef[unzig k] = 0
      · have hz' : l.at k = 0 := hz
        simp only [hz, hz', if_true]
        match nz with
        | some 0 => exact WalkServes.pure hi ⟨rfl, rfl, rfl⟩
        | some (m + 1) => exact ih _ _ l hi
        | none => exact ih _ _ l hi
      · have hz' : ¬ l.at k = 0 := hz
        simp only [hz, hz', if_false]
        refine WalkServes.stream (readBits_serves src (n := 1) (by omega)) hi (fun b t ht => ?_) (id : Unit → Unit)
        have hu : (if b = 1 then ({ l with stream := t } : Load).put k (awayFromZero (l.at k) (bitAt al)) else { l with stream := t }).coef =
            if b = 1 then l.coef.set (unzig k) (w32 (if l.coef[unzig k].toInt ≥ 0 then l.coef[unzig k].toInt + 2 ^ al
              else l.coef[unzig k].toInt - 2 ^ al)) else l.coef := by
          split
          · rw [Load.put_coef, awayFromZero_eq]; rfl
          · rfl
        have := ih (k + 1) nz (if b = 1 then ({ l with stream := t } : Load).put k (awayFromZero (l.at k) (bitAt al)) else { l with stream := t })
          (by split <;> exact ht)
        rw [hu] at this
        have he : (if b = 1 then ({ l with stream := t } : Load).put k (awayFromZero (l.at k) (bitAt al)) else { l with stream := t }).eobrun = l.eobrun := by
          split <;> rfl
        rw [he] at this
        exact WalkServes.modify (by dsimp only; split <;> rfl) this

theorem bitAt_ne_zero {al : Nat} (h : al ≤ 13) : bitAt al ≠ 0 := by
  intro he
  have := congrArg BitVec.toNat he
  rw [bitAt, BitVec.toNat_twoPow, Nat.mod_eq_of_lt (Nat.pow_lt_pow_right (by omega) (by omega))] at this
  exact absurd this (Nat.two_pow_pos al).ne'

/-- The loop of CL.ACR (R180) from a zero end-of-band run. -/
theorem acrLoop_serves {src : List Byte} {T : HuffTable} (hT : T.nCodes = 0 ∨ T.built) (se : Nat) {al : Nat} (hal : al ≤ 13) :
    ∀ (rounds k : Nat) (l : Load), l.stream.Inv src.length → l.eobrun = 0 →
      WalkServes src (acrLoop src T se (bitAt al) rounds k) (fun short => bandRefine short T se al rounds k l.coef) l
        fun a l' p => a = p.1 ∧ l'.coef = p.2.1 ∧ l'.eobrun = BitVec.ofNat 16 p.2.2 ∧ p.2.2 ≤ 32767 := by
  intro rounds
  induction rounds with
  | zero => exact fun k l hi he => WalkServes.pure hi ⟨rfl, rfl, he, Nat.zero_le _⟩
  | succ rounds ih =>
    intro k l hi he
    unfold acrLoop bandRefine
    by_cases hk : k > se
    · simp only [hk, if_true]; exact WalkServes.pure hi ⟨rfl, rfl, he, Nat.zero_le _⟩
    · simp only [hk, if_false, splitSymbol]
      refine WalkServes.stream (huffDecode_serves src hT) hi (fun rs t ht => ?_) (id : Unit → Unit)
      by_cases hend : rs.toNat % 16 = 0 ∧ rs.toNat / 16 ≠ 15
      · simp only [hend, ne_eq, not_false_eq_true, and_self, if_true]
        have hr14 : rs.toNat / 16 ≤ 14 := by have := rs.isLt; omega
        refine WalkServes.bind (readEobRun_serves hr14 { l with stream := t } ht) fun _ l' n hm hi' => ?_
        exact WalkServes.pure hi' ⟨rfl, hm.1, hm.2.1, hm.2.2.2⟩
      · simp only [hend, if_false]
        by_cases hbig : rs.toNat % 16 > 1
        · simp only [hbig, if_true]; exact WalkServes.throw ht _
        · simp only [hbig, if_false]
          -- the part after the sign: skip, write `z` and go on
          have tail : ∀ (z : Word) (sign : Nat) (u : Stream), u.Inv src.length →
              ((rs.toNat % 16 = 0 → z = 0) ∧
                (rs.toNat % 16 = 1 → z = w32 (if sign = 1 then (2 : Int) ^ al else -2 ^ al) ∧ z ≠ 0)) →
              WalkServes src
                (refineNonZeroes src se (bitAt al) 64 k (some (rs.toNat / 16)) >>= fun k' =>
                  if k' > se then throw .coefficientOverrun else
                    modify (fun l => if z ≠ 0 then l.put k' z else l) >>= fun _ => acrLoop src T se (bitAt al) rounds (k' + 1))
                (fun short => Reference.refine short se al 64 k (some (rs.toNat / 16)) l.coef >>= fun p =>
                  if p.1 > se then throw .coefficientOverrun else
                    bandRefine short T se al rounds (p.1 + 1)
                      (if rs.toNat % 16 = 1 then p.2.set (unzig p.1) (w32 (if sign = 1 then (2 : Int) ^ al else -2 ^ al)) else p.2))
                { l with stream := u }
                fun a l' p => a = p.1 ∧ l'.coef = p.2.1 ∧ l'.eobrun = BitVec.ofNat 16 p.2.2 ∧ p.2.2 ≤ 32767 := by
            intro z sign u hu hz
            refine WalkServes.bind (refineNonZeroes_serves se al 64 k _ { l with stream := u } hu) fun k' l' p hm hi' => ?_
            obtain ⟨rfl, hc, hb⟩ := hm
            by_cases ho : p.1 > se
            · simp only [ho, if_true]; exact WalkServes.throw hi' _
            · simp only [ho, if_false]
              have hcoef : (if z ≠ 0 then l'.put p.1 z else l').coef =
                  if rs.toNat % 16 = 1 then p.2.set (unzig p.1) (w32 (if sign = 1 then (2 : Int) ^ al else -2 ^ al)) else p.2 := by
                rcases (by omega : rs.toNat % 16 = 0 ∨ rs.toNat % 16 = 1) with h0 | h1
                · rw [hz.1 h0, if_neg (by simp), if_neg (by omega), hc]
                · rw [if_pos (hz.2 h1).2, if_pos h1, Load.put_coef, hc, (hz.2 h1).1]
              have := ih (p.1 + 1) (if z ≠ 0 then l'.put p.1 z else l') (by split <;> exact hi')
                (by split <;> exact hb.trans he)
              rw [hcoef] at this
              exact WalkServes.modify (by split <;> rfl) this
          by_cases h0 : rs.toNat % 16 = 0
          · have h1 : ¬ rs.toNat % 16 = 1 := by omega
            have := tail 0 0 t ht ⟨fun _ => rfl, fun h => absurd h h1⟩
            simp only [h0, if_true, pure_bind] at this ⊢
            exact this
          · have h1 : rs.toNat % 16 = 1 := by omega
            simp only [h1, if_true, pure_bind]
            refine WalkServes.stream (readBits_serves src (n := 1) (by omega)) ht (fun b u hu => ?_) (id : Unit → Unit)
            have := tail (if b = 1 then bitAt al else -bitAt al) b u hu ⟨fun h => absurd h h0, fun _ => ⟨?_, ?_⟩⟩
            · simp only [h1, if_true] at this; exact this
            · split
              · exact bitAt_eq al
              · rw [bitAt_eq, w32, w32, BitVec.ofInt_neg]
            · split
              · exact bitAt_ne_zero hal
              · exact fun h => bitAt_ne_zero hal (by simpa using h)

/-- One block of CL.ACF outside an end-of-band run (R179). -/
theorem acfWalk_serves {src : List Byte} {T : HuffTable} (hT : T.nCodes = 0 ∨ T.built) (ss se al : Nat) (l : Load)
    (hi : l.stream.Inv src.length) (he : l.eobrun = 0) :
    WalkServes src (acfWalk src T ss se al) (fun short => bandFirst short T se al 64 ss l.coef) l
      fun _ l' p => l'.coef = p.1 ∧ l'.eobrun = BitVec.ofNat 16 p.2 ∧ p.2 ≤ 32766 := by
  unfold acfWalk
  refine WalkServes.get ?_
  simp only [he, ne_eq, not_true_eq_false, if_false]
  exact acfLoop_serves hT se al 64 ss l hi he

/-- One block of CL.ACR (R180). -/
theorem acrWalk_serves {src : List Byte} {T : HuffTable} (hT : T.nCodes = 0 ∨ T.built) (ss se : Nat) {al : Nat} (hal : al ≤ 13) (l : Load)
    (hi : l.stream.Inv src.length) (hb : l.eobrun.toNat ≤ 32767) :
    WalkServes src (acrWalk src T ss se al) (fun short => blockRefine short T ss se al l.eobrun.toNat l.coef) l
      fun _ l' p => l'.coef = p.1 ∧ l'.eobrun = BitVec.ofNat 16 p.2 ∧ p.2 ≤ 32767 := by
  unfold acrWalk blockRefine
  refine WalkServes.get ?_
  -- from the end-of-band test on
  have tail : ∀ (k run : Nat) (l' : Load) (c : Vector Word 64), l'.stream.Inv src.length → l'.coef = c → l'.eobrun = BitVec.ofNat 16 run →
      run ≤ 32767 →
      WalkServes src
        (get >>= fun l => if l.eobrun ≠ 0 then modify Load.countEob >>= fun _ =>
            refineNonZeroes src se (bitAt al) 64 k none >>= fun _ => Pure.pure () else Pure.pure ())
        (fun short => if run = 0 then Pure.pure (c, 0) else Reference.refine short se al 64 k none c >>= fun p => Pure.pure (p.2, run - 1)) l'
        fun _ l' p => l'.coef = p.1 ∧ l'.eobrun = BitVec.ofNat 16 p.2 ∧ p.2 ≤ 32767 := by
    intro k run l' c hi' hc hr hle
    refine WalkServes.get ?_
    by_cases h0 : run = 0
    · subst h0
      simp only [hr, if_true]
      exact WalkServes.pure hi' ⟨hc, hr, Nat.zero_le _⟩
    · have hne : ¬ l'.eobrun = 0 := by
        rw [hr]; intro h
        have := congrArg BitVec.toNat h
        simp at this; omega
      simp only [hne, ne_eq, not_false_eq_true, if_true, h0, if_false]
      refine WalkServes.modify rfl ?_
      have := refineNonZeroes_serves (src := src) se al 64 k none l'.countEob hi'
      rw [Load.countEob_coef, hc] at this
      refine WalkServes.bind this fun _ l'' p hm hi'' => WalkServes.pure hi'' ⟨hm.2.1, ?_, by show run - 1 ≤ 32767; omega⟩
      show l''.eobrun = BitVec.ofNat 16 (run - 1)
      rw [hm.2.2, Load.countEob_eobrun, hr]
      apply BitVec.eq_of_toNat_eq
      simp; omega
  by_cases h0 : l.eobrun = 0
  · have h0' : l.eobrun.toNat = 0 := by rw [h0]; rfl
    simp only [h0, if_true]
    refine WalkServes.bind (acrLoop_serves hT se hal 64 ss l hi h0) fun k l' p hm hi' => ?_
    obtain ⟨rfl, hc, hr, hle⟩ := hm
    exact tail p.1 p.2.2 l' p.2.1 hi' hc hr hle
  · have h0' : ¬ l.eobrun.toNat = 0 := fun h => h0 (BitVec.eq_of_toNat_eq h)
    simp only [h0, h0', if_false, pure_bind]
    have := tail ss l.eobrun.toNat l l.coef hi rfl (by simp) hb
    simp only [h0', if_false] at this
    exact this

end Sys2Proof.Machine
end

