-- ==== Sys2Proof/Laws/Memory.lean ====
section
/-! SUPPORT. PRAM: what a read gives after each memory operation, and that each keeps the canonical form. -/

namespace Sys2Proof.Machine

theorem Memory.lookup_update (m : Memory) (f : Nat → Option Byte) (a : Nat) :
    List.lookup a (m.update f) = (List.lookup a m).map fun b => (f a).getD b := by
  induction m with
  | nil => rfl
  | cons c m ih =>
    rcases c with ⟨x, b⟩
    simp only [Memory.update, List.map_cons, List.lookup_cons] at ih ⊢
    by_cases h : a = x
    · subst h; simp
    · have : (a == x) = false := by simpa using h
      simp only [this]; exact ih

theorem Memory.map_fst_update (m : Memory) (f : Nat → Option Byte) : (m.update f).map (fun c => c.1) = m.map fun c => c.1 := by
  simp [Memory.update, Function.comp_def]

/-- Updating keeps the canonical form. -/
theorem Memory.wf_update {m : Memory} (h : m.wf) (f : Nat → Option Byte) : (m.update f).wf := by
  rw [Memory.wf, Memory.map_fst_update]; exact h

/-- Storing keeps the canonical form. -/
theorem Memory.wf_store {m : Memory} (h : m.wf) (base : Nat) (bs : List Byte) : (m.store base bs).wf := Memory.wf_update h _

/-- The memory a reset leaves has the canonical form. -/
theorem Memory.wf_reset (k : Nat) : Memory.wf ((List.range Config.pramSize).map fun a => (a, Config.freePram k a)) := by
  simp [Memory.wf, Function.comp_def]

theorem State.afterReset_pram (k : Nat) (src nextSrc : List Byte) (inputs : List HostOp) (rdata : Word) :
    (State.afterReset k src nextSrc inputs rdata).pram = (List.range Config.pramSize).map fun a => (a, Config.freePram k a) := by
  simp only [State.afterReset]

theorem State.restart_pram_wf (s : State) : s.restart.pram.wf := by
  rw [State.restart, State.afterReset_pram]; exact Memory.wf_reset _

theorem State.reset_pram_wf : State.reset.pram.wf := by
  rw [State.reset, State.afterReset_pram]; exact Memory.wf_reset _

theorem Memory.lookup_isSome_iff (m : Memory) (a : Nat) : (List.lookup a m).isSome = true ↔ a ∈ m.map fun c => c.1 := by
  induction m with
  | nil => simp
  | cons c m ih =>
    rcases c with ⟨x, b⟩
    simp only [List.lookup_cons, List.map_cons, List.mem_cons]
    by_cases h : a = x
    · subst h; simp
    · have : (a == x) = false := by simpa using h
      simp [this, h, ih]

/-- In canonical memory exactly the addresses below 512 have a cell. -/
theorem Memory.lookup_isSome {m : Memory} (h : m.wf) (a : Nat) : (List.lookup a m).isSome = true ↔ a < Config.pramSize := by
  rw [Memory.lookup_isSome_iff, h, List.mem_range]

/-- A byte after an update: the new value where there is one, else the old. -/
theorem Memory.byte_update {m : Memory} (h : m.wf) (f : Nat → Option Byte) (a : Nat) :
    (m.update f).byte a = if a < Config.pramSize then (f a).getD (m.byte a) else m.byte a := by
  unfold Memory.byte
  rw [Memory.lookup_update]
  by_cases ha : a < Config.pramSize
  · obtain ⟨b, hb⟩ := Option.isSome_iff_exists.mp ((Memory.lookup_isSome h a).mpr ha)
    simp [hb, ha]
  · have hn : List.lookup a m = none := by
      rw [← Option.not_isSome_iff_eq_none, Memory.lookup_isSome h]; exact ha
    simp [hn, ha]

/-- A byte after a store that stays inside PRAM. -/
theorem Memory.byte_store {m : Memory} (h : m.wf) (base : Nat) (bs : List Byte) (hb : base + bs.length ≤ Config.pramSize) (a : Nat) :
    (m.store base bs).byte a = if base ≤ a ∧ a < base + bs.length then (bs[a - base]?).getD (m.byte a) else m.byte a := by
  rw [Memory.store, Memory.byte_update h]
  by_cases h1 : base ≤ a
  · by_cases h2 : a < base + bs.length
    · have : a < Config.pramSize := by omega
      simp [h1, h2, this]
    · have : bs[a - base]? = none := by rw [List.getElem?_eq_none_iff]; omega
      simp [h1, h2, this]
  · simp [h1]

/-- A byte outside the stored bytes reads as before. -/
theorem Memory.byte_store_outside {m : Memory} (h : m.wf) (base : Nat) (bs : List Byte) (hb : base + bs.length ≤ Config.pramSize) {a : Nat}
    (ha : a < base ∨ base + bs.length ≤ a) : (m.store base bs).byte a = m.byte a := by
  rw [Memory.byte_store h _ _ hb, if_neg]; omega

/-- A stored byte reads back. -/
theorem Memory.byte_store_inside {m : Memory} (h : m.wf) (base : Nat) (bs : List Byte) (hb : base + bs.length ≤ Config.pramSize) {i : Nat}
    (hi : i < bs.length) : (m.store base bs).byte (base + i) = bs[i] := by
  rw [Memory.byte_store h _ _ hb, if_pos (by omega)]
  simp [hi]

end Sys2Proof.Machine
end

