-- ==== Sys2Proof/Laws/Claims.lean ====
section
/-! SUPPORT. Steps that many claims share: operands that name a slot, what a faulting body raises, the tables of a state that meets the invariant,
fields of a word. -/

namespace Sys2Proof.Machine

open Sys2Proof.Reference

/-! ### Operands -/

@[simp] theorem slotOf_val (t : Fin 4) : slotOf t.val = some t := by simp [slotOf]

@[simp] theorem classOf_val (t : Fin 2) : classOf t.val = some t := by simp [classOf]; omega

theorem slotOf_eq_none {v : Nat} (h : 3 < v) : slotOf v = none := by
  rw [slotOf, dif_neg (by omega)]

theorem classOf_eq_none {v : Nat} (h : 1 < v) : classOf v = none := by
  rw [classOf, dif_neg (by omega)]

theorem slotOf_eq_some {v : Nat} (h : v ≤ 3) : slotOf v = some ⟨v, by omega⟩ := by
  rw [slotOf, dif_pos (by omega)]

theorem variantOf_code (v : Variant) : variantOf v.code = some v := by cases v <;> rfl

theorem variantOf_eq_none {v : Nat} (h : 5 < v) : variantOf v = none := by
  match v with
  | 0 | 1 | 2 | 3 | 4 | 5 => omega
  | _ + 6 => rfl

/-! ### Faulting bodies -/

/-- A body that fails having left STATUS, CMD, RESULT and CCNT raises its fault. -/
theorem raises_of {i : Instr} {s u : State} {body : Cmd Word} {f : FaultCode} (hf : s.status.fault = false)
    (he : exec i s = .next (s.runCommand body)) (hb : body s = .error f u) (h1 : u.status = s.status) (h2 : u.cmd = s.cmd)
    (h3 : u.result = s.result) (h4 : u.ccnt = s.ccnt) : raises i s f :=
  ⟨u.raise f, by rw [he, runCommand_error hf hb], by simp [h1, Status.raised], by simp [h2], by simp [h3], by simp [h4]⟩

/-- A body that fails before it has written anything. -/
theorem refuses_of {i : Instr} {s : State} {body : Cmd Word} {f : FaultCode} (hf : s.status.fault = false)
    (he : exec i s = .next (s.runCommand body)) (hb : body s = .error f s) : refuses i s f := by
  rw [refuses, he, runCommand_error hf hb]; rfl

/-- A body that completes. -/
theorem completes_of {i : Instr} {s u : State} {body : Cmd Word} {r : Word} (hf : s.status.fault = false)
    (he : exec i s = .next (s.runCommand body)) (hb : body s = .ok r u) : exec i s = .next (u.complete r) := by
  rw [he, runCommand_ok hf hb]

/-! ### The tables of a state that meets the invariant -/

theorem State.Inv.dcTable {s : State} (h : s.Inv) (th : Fin 4) : s.ht[0][th].nCodes = 0 ∨ s.ht[0][th].built := h.tables 0 th

theorem State.Inv.acTable {s : State} (h : s.Inv) (th : Fin 4) : s.ht[1][th].nCodes = 0 ∨ s.ht[1][th].built := h.tables 1 th

/-! ### Fields of a word -/

theorem bitField_eq_fieldOf (w : Word) {hi lo : Nat} (h : lo ≤ hi) : bitField w hi lo = fieldOf w hi lo := by
  rw [bitField, fieldOf, Nat.shiftRight_eq_div_pow]
  congr 2; omega

end Sys2Proof.Machine
end

