-- ==== Sys2Proof/Laws/Frame.lean ====
section
/-! SUPPORT. What each command body leaves alone and which faults it can end with, put together from its parts. -/

namespace Sys2Proof.Machine

/-- `t` is `s` but for the items of `ws`: the registers that only completing or raising writes are the same. -/
structure Framed (ws : List Item) (s t : State) : Prop where
  same : SameBut ws s t
  status : t.status = s.status
  finfo : t.finfo = s.finfo
  result : t.result = s.result
  ccnt : t.ccnt = s.ccnt

theorem SameBut.refl (ws : List Item) (s : State) : SameBut ws s s :=
  ⟨rfl, fun _ => rfl, fun _ => rfl, fun _ => ⟨rfl, rfl⟩, fun _ => rfl, fun _ => ⟨rfl, rfl⟩, fun _ => rfl, fun _ => rfl, fun _ => rfl, fun _ => rfl,
    fun _ => rfl, fun _ => ⟨rfl, rfl⟩, fun _ => rfl, fun _ _ => rfl, rfl, rfl, rfl, rfl, rfl⟩

theorem SameBut.trans {ws : List Item} {s t u : State} (h : SameBut ws s t) (k : SameBut ws t u) : SameBut ws s u where
  cmd := k.cmd.trans h.cmd
  pos hn := (k.pos hn).trans (h.pos hn)
  nunrd hn := (k.nunrd hn).trans (h.nunrd hn)
  bits hn := ⟨(k.bits hn).1.trans (h.bits hn).1, (k.bits hn).2.trans (h.bits hn).2⟩
  ht hn := (k.ht hn).trans (h.ht hn)
  qt hn := ⟨(k.qt hn).1.trans (h.qt hn).1, (k.qt hn).2.trans (h.qt hn).2⟩
  coef hn := (k.coef hn).trans (h.coef hn)
  dcpred hn := (k.dcpred hn).trans (h.dcpred hn)
  eobrun hn := (k.eobrun hn).trans (h.eobrun hn)
  rstexp hn := (k.rstexp hn).trans (h.rstexp hn)
  xcfg hn := (k.xcfg hn).trans (h.xcfg hn)
  dqb hn := ⟨(k.dqb hn).1.trans (h.dqb hn).1, (k.dqb hn).2.trans (h.dqb hn).2⟩
  samp hn := (k.samp hn).trans (h.samp hn)
  pram hn a := (k.pram hn a).trans (h.pram hn a)
  src := k.src.trans h.src
  nextSrc := k.nextSrc.trans h.nextSrc
  inputs := k.inputs.trans h.inputs
  rdata := k.rdata.trans h.rdata
  free := k.free.trans h.free

theorem Framed.refl (ws : List Item) (s : State) : Framed ws s s := ⟨SameBut.refl ws s, rfl, rfl, rfl, rfl⟩

theorem Framed.trans {ws : List Item} {s t u : State} (h : Framed ws s t) (k : Framed ws t u) : Framed ws s u :=
  ⟨h.same.trans k.same, k.status.trans h.status, k.finfo.trans h.finfo, k.result.trans h.result, k.ccnt.trans h.ccnt⟩

/-- Replacing the stream touches the cursor and the accumulator. -/
theorem Framed.stream {ws : List Item} (s : State) (t : Stream) (h1 : .pos ∈ ws) (h2 : .nunrd ∈ ws) (h3 : .bits ∈ ws) :
    Framed ws s { s with stream := t } :=
  ⟨{ SameBut.refl ws s with pos := fun h => absurd h1 h, nunrd := fun h => absurd h2 h, bits := fun h => absurd h3 h }, rfl, rfl, rfl, rfl⟩

/-! ### Pseudocode -/

/-- Stream pseudocode that fails only with the faults of `fs`. -/
def Fails {α : Type} (fs : List FaultCode) (p : Bits α) : Prop := ∀ t f t', p t = .error f t' → f ∈ fs

/-- A walk that fails only with the faults of `fs`. -/
def WalkFails {α : Type} (fs : List FaultCode) (p : Walk α) : Prop := ∀ t f t', p t = .error f t' → f ∈ fs

/-- A body that touches only the items of `ws` and fails only with the faults of `fs`. -/
def Touches {α : Type} (ws : List Item) (fs : List FaultCode) (body : Cmd α) : Prop :=
  ∀ s, (∀ a t, body s = .ok a t → Framed ws s t) ∧ (∀ f t, body s = .error f t → f ∈ fs ∧ Framed ws s t)

section
variable {α β : Type} {fs : List FaultCode} {ws : List Item}

theorem Fails.pure (a : α) : Fails fs (Pure.pure a) := fun _ _ _ h => nomatch h

theorem Fails.throw {f : FaultCode} (h : f ∈ fs) : Fails fs (throwThe FaultCode f : Bits α) := fun _ _ _ e => by cases e; exact h

theorem Fails.bind {p : Bits α} {q : α → Bits β} (hp : Fails fs p) (hq : ∀ a, Fails fs (q a)) : Fails fs (p >>= q) := by
  intro t f t' h
  rcases bind_eq_error.mp h with h | ⟨a, u, _, h⟩
  · exact hp t f t' h
  · exact hq a u f t' h

theorem WalkFails.pure (a : α) : WalkFails fs (Pure.pure a) := fun _ _ _ h => nomatch h

theorem WalkFails.throw {f : FaultCode} (h : f ∈ fs) : WalkFails fs (throwThe FaultCode f : Walk α) := fun _ _ _ e => by cases e; exact h

theorem WalkFails.modify (u : Load → Load) : WalkFails fs (modify u) := fun _ _ _ h => nomatch h

theorem WalkFails.get : WalkFails fs (MonadState.get : Walk Load) := fun _ _ _ h => nomatch h

theorem WalkFails.stream {p : Bits α} (h : Fails fs p) : WalkFails fs (walkStream p) := by
  intro l f l' he
  unfold walkStream at he
  split at he
  · cases he
  · rename_i hp; cases he; exact h _ _ _ hp

theorem WalkFails.bind {p : Walk α} {q : α → Walk β} (hp : WalkFails fs p) (hq : ∀ a, WalkFails fs (q a)) : WalkFails fs (p >>= q) := by
  intro t f t' h
  rcases bind_eq_error.mp h with h | ⟨a, u, _, h⟩
  · exact hp t f t' h
  · exact hq a u f t' h

theorem WalkFails.ite {c : Prop} [Decidable c] {p q : Walk α} (hp : c → WalkFails fs p) (hq : ¬c → WalkFails fs q) :
    WalkFails fs (if c then p else q) := by
  split
  · exact hp ‹_›
  · exact hq ‹_›

theorem Touches.pure (a : α) : Touches ws fs (Pure.pure a) :=
  fun s => ⟨fun _ _ h => by cases h; exact Framed.refl ws s, fun _ _ h => nomatch h⟩

theorem Touches.throw {f : FaultCode} (h : f ∈ fs) : Touches ws fs (throwThe FaultCode f : Cmd α) :=
  fun s => ⟨fun _ _ h => (nomatch h), fun _ _ e => by cases e; exact ⟨h, Framed.refl ws s⟩⟩

theorem Touches.get : Touches ws fs (MonadState.get : Cmd State) :=
  fun s => ⟨fun _ _ h => by cases h; exact Framed.refl ws s, fun _ _ h => nomatch h⟩

theorem Touches.modify {u : State → State} (h : ∀ s, Framed ws s (u s)) : Touches ws fs (modify u) :=
  fun s => ⟨fun _ _ e => by cases e; exact h s, fun _ _ h => nomatch h⟩

theorem Touches.bind {p : Cmd α} {q : α → Cmd β} (hp : Touches ws fs p) (hq : ∀ a, Touches ws fs (q a)) : Touches ws fs (p >>= q) := by
  intro s
  refine ⟨fun b u h => ?_, fun f u h => ?_⟩
  · obtain ⟨a, t, h1, h2⟩ := bind_eq_ok.mp h
    exact ((hp s).1 a t h1).trans ((hq a t).1 b u h2)
  · rcases bind_eq_error.mp h with h | ⟨a, t, h1, h2⟩
    · exact (hp s).2 f u h
    · exact ⟨((hq a t).2 f u h2).1, ((hp s).1 a t h1).trans ((hq a t).2 f u h2).2⟩

/-- A body that reads the state first, then goes on from it. -/
theorem Touches.get_bind {q : State → Cmd β} (h : ∀ s0, Touches ws fs (q s0)) : Touches ws fs ((MonadState.get : Cmd State) >>= q) := Touches.get.bind h

theorem Touches.onStream {p : List Byte → Bits α} (h : ∀ src, Fails fs (p src)) (h1 : .pos ∈ ws) (h2 : .nunrd ∈ ws) (h3 : .bits ∈ ws) :
    Touches ws fs (onStream p) := by
  intro s
  unfold Machine.onStream
  cases hp : p s.src s.stream with
  | ok a t => exact ⟨fun _ _ e => by cases e; exact Framed.stream s t h1 h2 h3, fun _ _ e => nomatch e⟩
  | error f t => exact ⟨fun _ _ e => (nomatch e), fun _ _ e => by cases e; exact ⟨h _ _ _ _ hp, Framed.stream s t h1 h2 h3⟩⟩

theorem Framed.withLoad (s : State) (l : Load) (h1 : .pos ∈ ws) (h2 : .nunrd ∈ ws) (h3 : .bits ∈ ws) (h4 : .coef ∈ ws) (h5 : l.eobrun ≠ s.eobrun → .eobrun ∈ ws) :
    Framed ws s (s.withLoad l) :=
  ⟨{ SameBut.refl ws s with
      pos := fun h => absurd h1 h, nunrd := fun h => absurd h2 h, bits := fun h => absurd h3 h, coef := fun h => absurd h4 h
      eobrun := fun h => by by_contra hne; exact h (h5 hne) }, rfl, rfl, rfl, rfl⟩

theorem Touches.onLoad {p : List Byte → Walk α} (h : ∀ src, WalkFails fs (p src)) (h1 : .pos ∈ ws) (h2 : .nunrd ∈ ws) (h3 : .bits ∈ ws)
    (h4 : .coef ∈ ws)
    (h5 : .eobrun ∈ ws ∨ ∀ src l, (∀ a l', p src l = .ok a l' → l'.eobrun = l.eobrun) ∧ (∀ f l', p src l = .error f l' → l'.eobrun = l.eobrun)) :
    Touches ws fs (onLoad p) := by
  intro s
  unfold Machine.onLoad
  cases hp : p s.src s.load with
  | ok a l =>
    refine ⟨fun _ _ e => ?_, fun _ _ e => nomatch e⟩
    cases e
    exact Framed.withLoad s l h1 h2 h3 h4 fun hne => h5.resolve_right fun hk => hne ((hk _ _).1 _ _ hp)
  | error f l =>
    refine ⟨fun _ _ e => (nomatch e), fun _ _ e => ?_⟩
    cases e
    exact ⟨h _ _ _ _ hp, Framed.withLoad s l h1 h2 h3 h4 fun hne => h5.resolve_right fun hk => hne ((hk _ _).2 _ _ hp)⟩

end

/-! ### The primitives' faults -/

/-- The two faults of a stuffed read (R111). -/
abbrev streamFaults : List FaultCode := [.missingStuffingByte, .unexpectedEndOfStream]

theorem readStuffedByte_fails (src : List Byte) : Fails streamFaults (readStuffedByte src) := by
  intro t f t' h
  unfold readStuffedByte at h
  split at h
  · cases h; decide
  · split at h
    · cases h
    · split at h
      · cases h; decide
      · split at h
        · cases h; decide
        · cases h

theorem ensureLoop_fails (src : List Byte) (n rounds : Nat) : Fails streamFaults (ensureLoop src n rounds) := by
  induction rounds with
  | zero => exact Fails.pure ()
  | succ rounds ih =>
    intro t f t' h
    simp only [ensureLoop] at h
    split at h
    · split at h
      · exact ih _ _ _ h
      · rename_i hr; cases h; exact readStuffedByte_fails src _ _ _ hr
    · cases h

theorem readBits_fails (src : List Byte) (n : Nat) : Fails streamFaults (readBits src n) := by
  intro t f t' h
  unfold readBits at h
  split at h
  · cases h
  · split at h
    · rename_i hr; cases h; exact ensureLoop_fails src n n _ _ _ hr
    · cases h

theorem receiveExtend_fails (src : List Byte) (n : Nat) : Fails streamFaults (receiveExtend src n) := by
  unfold receiveExtend
  split
  · exact Fails.pure 0
  · exact (readBits_fails src n).bind fun _ => Fails.pure _

/-- The faults of a decode (R157). -/
abbrev decodeFaults : List FaultCode := [.uninitializedTable, .badHuffmanCode, .missingStuffingByte, .unexpectedEndOfStream]

theorem Fails.mono {α : Type} {fs gs : List FaultCode} {p : Bits α} (h : Fails fs p) (hs : fs ⊆ gs) : Fails gs p :=
  fun t f t' e => hs (h t f t' e)

theorem slowDecode_fails (src : List Byte) (T : HuffTable) (lengths : List (Fin 16)) (code : Nat) :
    Fails decodeFaults (slowDecode src T lengths code) := by
  induction lengths generalizing code with
  | nil => exact Fails.throw (by decide)
  | cons L lengths ih =>
    unfold slowDecode
    refine ((readBits_fails src 1).mono (by decide)).bind fun b => ?_
    dsimp only
    split
    · exact Fails.pure _
    · exact ih _

theorem huffDecode_fails (src : List Byte) (T : HuffTable) : Fails decodeFaults (huffDecode src T) := by
  intro t f t' h
  unfold huffDecode at h
  split at h
  · cases h; decide
  · split at h
    · rename_i hr
      exfalso
      unfold fillPeek at hr
      split at hr
      · split at hr <;> cases hr
      · cases hr
    · dsimp only at h
      split at h
      · cases h
      · exact slowDecode_fails src T _ _ _ _ _ h

theorem decodeDcDiff_fails (src : List Byte) (T : HuffTable) : Fails (.badCoefficientSize :: decodeFaults) (decodeDcDiff src T) := by
  unfold decodeDcDiff
  refine ((huffDecode_fails src T).mono (by decide)).bind fun s => ?_
  split
  · exact Fails.throw (by decide)
  · exact (receiveExtend_fails src _).mono (by decide)

theorem readByte_fails (src : List Byte) : Fails [.unexpectedEndOfStream] (readByte src) := by
  intro t f t' h
  unfold readByte at h
  split at h
  · cases h; decide
  · cases h

theorem returnOvershoot_fails (fs : List FaultCode) : Fails fs returnOvershoot := by
  intro t f t' h
  unfold returnOvershoot at h
  split at h <;> cases h

theorem WalkFails.mono {α : Type} {fs gs : List FaultCode} {p : Walk α} (h : WalkFails fs p) (hs : fs ⊆ gs) : WalkFails gs p :=
  fun t f t' e => hs (h t f t' e)

/-! ### The walks' faults -/

theorem blkLoop_fails (src : List Byte) (T : HuffTable) (rounds k : Nat) :
    WalkFails (.coefficientOverrun :: decodeFaults) (blkLoop src T rounds k) := by
  induction rounds generalizing k with
  | zero => exact WalkFails.pure ()
  | succ rounds ih =>
    unfold blkLoop
    refine WalkFails.ite (fun _ => WalkFails.pure ()) fun _ => ?_
    refine (WalkFails.stream ((huffDecode_fails src T).mono (by decide))).bind fun rs => ?_
    refine WalkFails.ite (fun _ => WalkFails.ite (fun _ => WalkFails.throw (by decide)) fun _ => ?_) fun _ => ?_
    · exact (WalkFails.stream ((receiveExtend_fails src _).mono (by decide))).bind fun v => (WalkFails.modify _).bind fun _ => ih _
    · exact WalkFails.ite (fun _ => WalkFails.ite (fun _ => WalkFails.throw (by decide)) fun _ => ih _) fun _ => WalkFails.pure ()

theorem readEobRun_fails (src : List Byte) (r : Nat) : WalkFails streamFaults (readEobRun src r) := by
  unfold readEobRun
  refine (WalkFails.modify _).bind fun _ => ?_
  exact WalkFails.ite (fun _ => (WalkFails.stream (readBits_fails src r)).bind fun _ => WalkFails.modify _) fun _ =>
    (WalkFails.pure 0).bind fun _ => WalkFails.modify _

theorem acfLoop_fails (src : List Byte) (T : HuffTable) (se al rounds k : Nat) :
    WalkFails (.coefficientOverrun :: decodeFaults) (acfLoop src T se al rounds k) := by
  induction rounds generalizing k with
  | zero => exact WalkFails.pure ()
  | succ rounds ih =>
    unfold acfLoop
    refine WalkFails.ite (fun _ => WalkFails.pure ()) fun _ => ?_
    refine (WalkFails.stream ((huffDecode_fails src T).mono (by decide))).bind fun rs => ?_
    refine WalkFails.ite (fun _ => WalkFails.ite (fun _ => WalkFails.throw (by decide)) fun _ => ?_) fun _ => ?_
    · exact (WalkFails.stream ((receiveExtend_fails src _).mono (by decide))).bind fun v => (WalkFails.modify _).bind fun _ => ih _
    · refine WalkFails.ite (fun _ => ?_) fun _ => WalkFails.ite (fun _ => WalkFails.throw (by decide)) fun _ => ih _
      exact ((readEobRun_fails src _).mono (by decide)).bind fun _ => WalkFails.modify _

theorem acfWalk_fails (src : List Byte) (T : HuffTable) (ss se al : Nat) :
    WalkFails (.coefficientOverrun :: decodeFaults) (acfWalk src T ss se al) :=
  WalkFails.bind WalkFails.get fun _ => WalkFails.ite (fun _ => WalkFails.modify _) fun _ => acfLoop_fails src T se al 64 ss

theorem refineNonZeroes_fails (src : List Byte) (se : Nat) (delta : Word) (rounds k : Nat) (nz : Option Nat) :
    WalkFails streamFaults (refineNonZeroes src se delta rounds k nz) := by
  induction rounds generalizing k nz with
  | zero => exact WalkFails.pure k
  | succ rounds ih =>
    unfold refineNonZeroes
    refine WalkFails.ite (fun _ => WalkFails.pure k) fun _ => WalkFails.get.bind fun l => WalkFails.ite (fun _ => ?_) fun _ => ?_
    · match nz with
      | some 0 => exact WalkFails.pure k
      | some (m + 1) => exact ih _ _
      | none => exact ih _ _
    · exact (WalkFails.stream (readBits_fails src 1)).bind fun b => (WalkFails.modify _).bind fun _ => ih _ _

/-- The faults of a refinement walk (R180). -/
abbrev refineFaults : List FaultCode := .badRefinementSymbol :: .coefficientOverrun :: decodeFaults

theorem acrLoop_fails (src : List Byte) (T : HuffTable) (se : Nat) (delta : Word) (rounds k : Nat) :
    WalkFails refineFaults (acrLoop src T se delta rounds k) := by
  induction rounds generalizing k with
  | zero => exact WalkFails.pure k
  | succ rounds ih =>
    unfold acrLoop
    refine WalkFails.ite (fun _ => WalkFails.pure k) fun _ => ?_
    refine (WalkFails.stream ((huffDecode_fails src T).mono (by decide))).bind fun rs => ?_
    refine WalkFails.ite (fun _ => ?_) fun _ => WalkFails.ite (fun _ => WalkFails.throw (by decide)) fun _ => ?_
    · exact ((readEobRun_fails src _).mono (by decide)).bind fun _ => WalkFails.pure k
    · have last : ∀ (nz : Option Nat) (z : Word), WalkFails refineFaults (refineNonZeroes src se delta 64 k nz >>= fun k' =>
          if k' > se then throw FaultCode.coefficientOverrun
          else (modify (fun l => if z ≠ 0 then l.put k' z else l) >>= fun _ => acrLoop src T se delta rounds (k' + 1))) := by
        intro nz z
        refine ((refineNonZeroes_fails src se delta 64 k _).mono (by decide)).bind fun k' => ?_
        exact WalkFails.ite (fun _ => WalkFails.throw (by decide)) fun _ => (WalkFails.modify _).bind fun _ => ih _
      refine WalkFails.ite (fun _ => (WalkFails.pure _).bind fun z => last _ z) fun _ => ?_
      exact (WalkFails.stream ((readBits_fails src 1).mono (by decide))).bind fun b => (WalkFails.pure _).bind fun z => last _ z

theorem acrWalk_fails (src : List Byte) (T : HuffTable) (ss se al : Nat) : WalkFails refineFaults (acrWalk src T ss se al) := by
  unfold acrWalk
  have last : ∀ k, WalkFails refineFaults ((MonadState.get : Walk Load) >>= fun l =>
      if l.eobrun ≠ 0 then (modify Load.countEob >>= fun _ => refineNonZeroes src se (bitAt al) 64 k none >>= fun _ => pure ())
      else pure ()) := fun k =>
    WalkFails.get.bind fun l => WalkFails.ite (fun _ => (WalkFails.modify _).bind fun _ =>
      ((refineNonZeroes_fails src se _ 64 k none).mono (by decide)).bind fun _ => WalkFails.pure ()) fun _ => WalkFails.pure ()
  exact WalkFails.get.bind fun l => WalkFails.ite (fun _ => (acrLoop_fails src T se _ 64 ss).bind last) fun _ => (WalkFails.pure ss).bind last

/-! ### EOBRUN is left alone by a baseline walk -/

/-- A walk that never writes EOBRUN. -/
def KeepsEob {α : Type} (p : Walk α) : Prop :=
  ∀ l, (∀ a l', p l = .ok a l' → l'.eobrun = l.eobrun) ∧ ∀ f l', p l = .error f l' → l'.eobrun = l.eobrun

theorem KeepsEob.bind {α β : Type} {p : Walk α} {q : α → Walk β} (hp : KeepsEob p) (hq : ∀ a, KeepsEob (q a)) : KeepsEob (p >>= q) := by
  intro l
  refine ⟨fun b u h => ?_, fun f u h => ?_⟩
  · obtain ⟨a, t, h1, h2⟩ := bind_eq_ok.mp h
    exact ((hq a t).1 b u h2).trans ((hp l).1 a t h1)
  · rcases bind_eq_error.mp h with h | ⟨a, t, h1, h2⟩
    · exact (hp l).2 f u h
    · exact ((hq a t).2 f u h2).trans ((hp l).1 a t h1)

theorem KeepsEob.pure {α : Type} (a : α) : KeepsEob (Pure.pure a : Walk α) :=
  fun _ => ⟨fun _ _ h => by cases h; rfl, fun _ _ h => nomatch h⟩

theorem KeepsEob.throw {α : Type} (f : FaultCode) : KeepsEob (throwThe FaultCode f : Walk α) :=
  fun _ => ⟨fun _ _ h => (nomatch h), fun _ _ h => by cases h; rfl⟩

theorem KeepsEob.put (k : Nat) (v : Word) : KeepsEob (modify fun l : Load => l.put k v) :=
  fun _ => ⟨fun _ _ h => by cases h; rfl, fun _ _ h => nomatch h⟩

theorem KeepsEob.stream {α : Type} (p : Bits α) : KeepsEob (walkStream p) := by
  intro l
  unfold walkStream
  split
  · exact ⟨fun _ _ h => by cases h; rfl, fun _ _ h => nomatch h⟩
  · exact ⟨fun _ _ h => (nomatch h), fun _ _ h => by cases h; rfl⟩

theorem blkLoop_keepsEob (src : List Byte) (T : HuffTable) (rounds k : Nat) : KeepsEob (blkLoop src T rounds k) := by
  induction rounds generalizing k with
  | zero => exact KeepsEob.pure ()
  | succ rounds ih =>
    unfold blkLoop
    split
    · exact KeepsEob.pure ()
    refine (KeepsEob.stream _).bind fun rs => ?_
    dsimp only
    split
    · split
      · exact KeepsEob.throw _
      · exact (KeepsEob.stream _).bind fun v => (KeepsEob.put _ _).bind fun _ => ih _
    · split
      · split
        · exact KeepsEob.throw _
        · exact ih _
      · exact KeepsEob.pure ()

/-! ### The bodies -/

section
variable {fs : List FaultCode} {ws : List Item}

theorem Framed.addPred (s : State) (comp : Fin 4) (d : Int) (h : .dcpred ∈ ws) : Framed ws s (s.addPred comp d) :=
  ⟨{ SameBut.refl ws s with dcpred := fun hn => absurd h hn }, rfl, rfl, rfl, rfl⟩

theorem Framed.setDc (s : State) (v : Word) (h : .coef ∈ ws) : Framed ws s (s.setDc v) :=
  ⟨{ SameBut.refl ws s with coef := fun hn => absurd h hn }, rfl, rfl, rfl, rfl⟩

theorem Framed.advance (s : State) (n : Nat) (h1 : .pos ∈ ws) (h2 : .nunrd ∈ ws) : Framed ws s (s.advance n) :=
  ⟨{ SameBut.refl ws s with pos := fun hn => absurd h1 hn, nunrd := fun hn => absurd h2 hn }, rfl, rfl, rfl, rfl⟩

theorem Framed.bitReset (s : State) (h : .bits ∈ ws) : Framed ws s { s with stream := s.stream.bitReset } :=
  ⟨{ SameBut.refl ws s with bits := fun hn => absurd h hn }, rfl, rfl, rfl, rfl⟩

theorem Framed.setTable (s : State) (tc : Fin 2) (th : Fin 4) (T : HuffTable) (h : .ht ∈ ws) : Framed ws s (s.setTable tc th T) :=
  ⟨{ SameBut.refl ws s with ht := fun hn => absurd h hn }, rfl, rfl, rfl, rfl⟩

theorem Framed.loadTable (s : State) (q : Vector QuantTable 4) (d : Vector Bool 4) (h : .qt ∈ ws) :
    Framed ws s { s with qt := q, qtdef := d } :=
  ⟨{ SameBut.refl ws s with qt := fun hn => absurd h hn }, rfl, rfl, rfl, rfl⟩

theorem Framed.transformed (s : State) (p : Vector Byte 64) (h : .samp ∈ ws) : Framed ws s { s with samp := p } :=
  ⟨{ SameBut.refl ws s with samp := fun hn => absurd h hn }, rfl, rfl, rfl, rfl⟩

theorem Framed.dequantized (s : State) (d : Vector Word 64) (g : DqTag) (h : .dqb ∈ ws) : Framed ws s { s with dqb := d, dqtag := g } :=
  ⟨{ SameBut.refl ws s with dqb := fun hn => absurd h hn }, rfl, rfl, rfl, rfl⟩

theorem Framed.restartReset (s : State) (h1 : .bits ∈ ws) (h2 : .dcpred ∈ ws) (h3 : .eobrun ∈ ws) (h4 : .rstexp ∈ ws) :
    Framed ws s s.restartReset :=
  ⟨{ SameBut.refl ws s with
      bits := fun hn => absurd h1 hn, dcpred := fun hn => absurd h2 hn, eobrun := fun hn => absurd h3 hn
      rstexp := fun hn => absurd h4 hn }, rfl, rfl, rfl, rfl⟩

/-- One completing run of a body. -/
theorem touches_ok {α : Type} {a : α} {s t : State} (h : Framed ws s t) :
    (∀ b u, (EStateM.Result.ok a t : EStateM.Result FaultCode State α) = .ok b u → Framed ws s u) ∧
      ∀ f u, (EStateM.Result.ok a t : EStateM.Result FaultCode State α) = .error f u → f ∈ fs ∧ Framed ws s u :=
  ⟨fun _ _ e => by injection e with _ e; exact e ▸ h, fun _ _ e => nomatch e⟩

/-- One failing run of a body, before it has written anything. -/
theorem touches_error {α : Type} {f : FaultCode} (s : State) (h : f ∈ fs) :
    (∀ b u, (EStateM.Result.error f s : EStateM.Result FaultCode State α) = .ok b u → Framed ws s u) ∧
      ∀ g u, (EStateM.Result.error f s : EStateM.Result FaultCode State α) = .error g u → g ∈ fs ∧ Framed ws s u :=
  ⟨fun _ _ e => (nomatch e), fun _ _ e => by injection e with e1 e2; exact ⟨e1 ▸ h, e2 ▸ Framed.refl ws s⟩⟩

theorem Touches.ok {α : Type} {a : α} {u : State → State} (h : ∀ s, Framed ws s (u s)) : Touches ws fs (fun s => .ok a (u s) : Cmd α) :=
  fun s => ⟨fun _ _ e => by cases e; exact h s, fun _ _ e => nomatch e⟩

theorem Touches.ite {α : Type} {c : Prop} [Decidable c] {p q : Cmd α} (hp : c → Touches ws fs p) (hq : ¬c → Touches ws fs q) :
    Touches ws fs (if c then p else q) := by
  split
  · exact hp ‹_›
  · exact hq ‹_›

end

theorem readByte_touches {ws : List Item} {fs : List FaultCode} (h1 : .pos ∈ ws) (h2 : .nunrd ∈ ws) (h3 : .unexpectedEndOfStream ∈ fs) :
    Touches ws fs (onStream readByte) := by
  intro s
  unfold onStream readByte
  cases s.src[s.stream.pos]? with
  | none => exact touches_error s h3
  | some b => exact touches_ok (Framed.advance s 1 h1 h2)

theorem bsRdb_touches : Touches (writes .bsRdb) (listedFaults .bsRdb) bsRdb :=
  (readByte_touches (by decide) (by decide) (by decide)).bind fun _ => Touches.pure _

theorem bsUnrd_touches : Touches (writes .bsUnrd) (listedFaults .bsUnrd) bsUnrd :=
  (Touches.onStream (fun _ => returnOvershoot_fails _) (by decide) (by decide) (by decide)).bind fun _ => Touches.pure _

theorem bsRdx_touches (n : Nat) : Touches (writes (.bsRdx n)) (listedFaults (.bsRdx n)) (bsRdx n) := by
  intro s
  unfold bsRdx
  split
  · exact touches_error s (by simp [listedFaults])
  · split
    · exact touches_error s (by simp [listedFaults])
    · refine touches_ok ?_
      exact Framed.trans (t := { s with pram := s.pram.store 0 ((s.src.drop s.stream.pos).take n) })
        ⟨{ SameBut.refl _ s with pram := fun h => absurd (by simp [writes]) h }, rfl, rfl, rfl, rfl⟩
        (Framed.advance _ n (by simp [writes]) (by simp [writes]))

theorem bsSkip_touches (n : Nat) : Touches (writes (.bsSkip n)) (listedFaults (.bsSkip n)) (bsSkip n) := by
  intro s
  unfold bsSkip
  split
  · exact touches_error s (by simp [listedFaults])
  · exact touches_ok (Framed.advance s n (by simp [writes]) (by simp [writes]))

theorem baEns_touches (n : Nat) : Touches (writes (.baEns n)) (listedFaults (.baEns n)) (baEns n) :=
  Touches.ite (fun _ => Touches.throw (by simp [listedFaults])) fun _ =>
    (Touches.onStream (fun src => (ensureLoop_fails src n n).mono (by simp [listedFaults])) (by simp [writes]) (by simp [writes])
      (by simp [writes])).bind fun _ => Touches.pure _

theorem baRdbit_touches : Touches (writes .baRdbit) (listedFaults .baRdbit) baRdbit :=
  (Touches.onStream (fun src => (readBits_fails src 1).mono (by decide)) (by decide) (by decide) (by decide)).bind fun _ => Touches.pure _

theorem baRdbits_touches (n : Nat) : Touches (writes (.baRdbits n)) (listedFaults (.baRdbits n)) (baRdbits n) :=
  Touches.ite (fun _ => Touches.throw (by simp [listedFaults])) fun _ =>
    (Touches.onStream (fun src => (readBits_fails src n).mono (by simp [listedFaults])) (by simp [writes]) (by simp [writes])
      (by simp [writes])).bind fun _ => Touches.pure _

theorem baRcvx_touches (n : Nat) : Touches (writes (.baRcvx n)) (listedFaults (.baRcvx n)) (baRcvx n) :=
  Touches.ite (fun _ => Touches.throw (by simp [listedFaults])) fun _ =>
    (Touches.onStream (fun src => (receiveExtend_fails src n).mono (by simp [listedFaults])) (by simp [writes]) (by simp [writes])
      (by simp [writes])).bind fun _ => Touches.pure _

theorem baRst_touches : Touches (writes .baRst) (listedFaults .baRst) baRst := Touches.ok fun s => Framed.bitReset s (by decide)

theorem htBuild_touches (tc th : Nat) : Touches (writes (.htBuild tc th)) (listedFaults (.htBuild tc th)) (htBuild tc th) := by
  intro s
  unfold htBuild
  split
  · split
    · exact touches_ok (Framed.setTable s _ _ _ (by simp [writes]))
    · exact touches_error s (by simp [listedFaults])
  · exact touches_error s (by simp [listedFaults])

theorem htDec_touches (tc th : Nat) : Touches (writes (.htDec tc th)) (listedFaults (.htDec tc th)) (htDec tc th) := by
  unfold htDec
  split
  · refine Touches.get_bind fun s0 => ?_
    exact (Touches.onStream (fun src => (huffDecode_fails src _).mono (by simp [listedFaults])) (by simp [writes]) (by simp [writes])
      (by simp [writes])).bind fun _ => Touches.pure _
  · exact Touches.throw (by simp [listedFaults])

theorem clClr_touches : Touches (writes .clClr) (listedFaults .clClr) clClr :=
  Touches.ok fun s => ⟨{ SameBut.refl _ s with coef := fun h => absurd (by decide) h }, rfl, rfl, rfl, rfl⟩

theorem clBlk_touches (comp : Fin 4) (td ta : Nat) :
    Touches (writes (.clBlk comp td ta)) (listedFaults (.clBlk comp td ta)) (clBlk comp td ta) := by
  unfold clBlk
  split
  · refine Touches.get_bind fun s0 => ?_
    refine Touches.bind (Touches.modify fun s =>
      ⟨{ SameBut.refl _ s with coef := fun h => absurd (by simp [writes]) h }, rfl, rfl, rfl, rfl⟩) fun _ => ?_
    refine (Touches.onStream (fun src => (decodeDcDiff_fails src _).mono (by simp [listedFaults])) (by simp [writes]) (by simp [writes])
      (by simp [writes])).bind fun diff => ?_
    refine (Touches.modify fun s => Framed.addPred s comp diff (by simp [writes])).bind fun _ => ?_
    refine (Touches.modify fun s => Framed.setDc s _ (by simp [writes])).bind fun _ => ?_
    exact (Touches.onLoad (fun src => (blkLoop_fails src _ 64 1).mono (by simp [listedFaults])) (by simp [writes]) (by simp [writes])
      (by simp [writes]) (by simp [writes]) (.inr fun src l => blkLoop_keepsEob src _ 64 1 l)).bind fun _ => Touches.pure _
  · exact Touches.throw (by simp [listedFaults])

theorem clDcf_touches (comp : Fin 4) (slot al : Nat) :
    Touches (writes (.clDcf comp slot al)) (listedFaults (.clDcf comp slot al)) (clDcf comp slot al) := by
  unfold clDcf
  split
  · refine Touches.get_bind fun s0 => ?_
    refine (Touches.onStream (fun src => (decodeDcDiff_fails src _).mono (by simp [listedFaults])) (by simp [writes]) (by simp [writes])
      (by simp [writes])).bind fun diff => ?_
    exact (Touches.modify fun s => Framed.addPred s comp diff (by simp [writes])).bind fun _ =>
      (Touches.modify fun s => Framed.setDc s _ (by simp [writes])).bind fun _ => Touches.pure _
  · exact Touches.throw (by simp [listedFaults])

theorem clDcr_touches (al : Nat) : Touches (writes (.clDcr al)) (listedFaults (.clDcr al)) (clDcr al) := by
  refine Touches.ite (fun _ => ?_) fun _ => Touches.throw (by simp [listedFaults])
  refine (Touches.onStream (fun src => (readBits_fails src 1).mono (by simp [listedFaults])) (by simp [writes]) (by simp [writes])
    (by simp [writes])).bind fun b => ?_
  refine (Touches.modify fun s => ?_).bind fun _ => Touches.pure _
  split
  · exact Framed.setDc s _ (by simp [writes])
  · exact Framed.refl _ s

theorem clAcf_touches (slot ss se al : Nat) :
    Touches (writes (.clAcf slot ss se al)) (listedFaults (.clAcf slot ss se al)) (clAcf slot ss se al) := by
  unfold clAcf
  split
  · refine Touches.get_bind fun s0 => ?_
    exact (Touches.onLoad (fun src => (acfWalk_fails src _ ss se al).mono (by simp [listedFaults])) (by simp [writes]) (by simp [writes])
      (by simp [writes]) (by simp [writes]) (.inl (by simp [writes]))).bind fun _ => Touches.pure _
  · exact Touches.throw (by simp [listedFaults])

theorem clAcr_touches (slot ss se al : Nat) :
    Touches (writes (.clAcr slot ss se al)) (listedFaults (.clAcr slot ss se al)) (clAcr slot ss se al) := by
  unfold clAcr
  split
  · refine Touches.get_bind fun s0 => ?_
    exact (Touches.onLoad (fun src => (acrWalk_fails src _ ss se al).mono (by simp [listedFaults])) (by simp [writes]) (by simp [writes])
      (by simp [writes]) (by simp [writes]) (.inl (by simp [writes]))).bind fun _ => Touches.pure _
  · exact Touches.throw (by simp [listedFaults])

theorem clRstm_touches : Touches (writes .clRstm) (listedFaults .clRstm) clRstm := by
  refine (Touches.onStream (fun _ => returnOvershoot_fails _) (by decide) (by decide) (by decide)).bind fun _ => ?_
  refine (readByte_touches (by decide) (by decide) (by decide)).bind fun b0 => ?_
  refine (readByte_touches (by decide) (by decide) (by decide)).bind fun b1 => ?_
  refine Touches.get_bind fun s0 => Touches.ite (fun _ => Touches.throw (by decide)) fun _ => ?_
  exact (Touches.modify fun s => Framed.restartReset s (by decide) (by decide) (by decide) (by decide)).bind fun _ => Touches.pure _

theorem clScan_touches : Touches (writes .clScan) (listedFaults .clScan) clScan :=
  Touches.ok fun s => ⟨{ SameBut.refl _ s with
    nunrd := fun h => absurd (by decide) h, bits := fun h => absurd (by decide) h, dcpred := fun h => absurd (by decide) h
    eobrun := fun h => absurd (by decide) h, rstexp := fun h => absurd (by decide) h }, rfl, rfl, rfl, rfl⟩

theorem qtLoad_touches (pq tq : Nat) : Touches (writes (.qtLoad pq tq)) (listedFaults (.qtLoad pq tq)) (qtLoad pq tq) := by
  intro s
  unfold qtLoad
  split
  · exact touches_ok (Framed.loadTable s _ _ (by simp [writes]))
  · exact touches_error s (by simp [listedFaults])

theorem xfCfg_touches (comp : Fin 4) (v : Nat) : Touches (writes (.xfCfg comp v)) (listedFaults (.xfCfg comp v)) (xfCfg comp v) := by
  intro s
  unfold xfCfg
  split
  · exact touches_ok ⟨{ SameBut.refl _ s with xcfg := fun h => absurd (by simp [writes]) h }, rfl, rfl, rfl, rfl⟩
  · exact touches_error s (by simp [listedFaults])

/-- The steps of XF.DQ, alone or inside XF.RUN. -/
theorem xfDq_touches {ws : List Item} {fs : List FaultCode} (comp : Fin 4) (tq : Nat) (h1 : .dqb ∈ ws) (h2 : .illegalOperand ∈ fs)
    (h3 : .missingQuantTable ∈ fs) : Touches ws fs (xfDq comp tq) := by
  intro s
  unfold xfDq
  split
  · exact touches_error s h2
  · split
    · refine touches_ok ?_
      exact Framed.dequantized s _ _ h1
    · exact touches_error s h3

theorem xfIdct_touches (comp : Fin 4) : Touches (writes (.xfIdct comp)) (listedFaults (.xfIdct comp)) (xfIdct comp) := by
  intro s
  unfold xfIdct
  dsimp only
  split
  · exact touches_ok (Framed.transformed s _ (by simp [writes]))
  · exact touches_error s (by simp [listedFaults])

/-- XF.DQ leaves a tag that fits the component's variant. -/
theorem xfDq_tag {comp : Fin 4} {tq : Nat} {s t : State} {r : Word} (h : xfDq comp tq s = .ok r t) :
    r = 0 ∧ t.dqtag = ⟨true, t.xcfg[comp].kind⟩ := by
  unfold xfDq at h
  split at h
  · nomatch h
  · split at h
    · injection h with h1 h2; subst h2; exact ⟨h1.symm, rfl⟩
    · nomatch h

/-- XF.IDCT runs on a block whose tag fits. -/
theorem xfIdct_ok {comp : Fin 4} {s : State} (h : s.dqtag = ⟨true, s.xcfg[comp].kind⟩) :
    xfIdct comp s = .ok 0 { s with samp := transformed s.xcfg[comp] s.dqb s.samp } := by
  unfold xfIdct
  dsimp only
  rw [if_pos]; rw [h]; exact ⟨rfl, rfl⟩

theorem xfRun_touches (comp : Fin 4) (tq : Nat) : Touches (writes (.xfRun comp tq)) (listedFaults (.xfRun comp tq)) (xfRun comp tq) := by
  intro s
  have h1 := xfDq_touches (ws := writes (.xfRun comp tq)) (fs := listedFaults (.xfRun comp tq)) comp tq (by simp [writes])
    (by simp [listedFaults]) (by simp [listedFaults]) s
  refine ⟨fun b u h => ?_, fun f u h => ?_⟩
  · obtain ⟨a, t, hd, hi⟩ := bind_eq_ok.mp h
    rw [xfIdct_ok (xfDq_tag hd).2] at hi
    injection hi with _ hi
    exact (h1.1 a t hd).trans (hi ▸ Framed.transformed t _ (by simp [writes]))
  · rcases bind_eq_error.mp h with h | ⟨a, t, hd, hi⟩
    · exact h1.2 f u h
    · rw [xfIdct_ok (xfDq_tag hd).2] at hi; nomatch hi

/-- Every command but SS.INIT is a body that touches only what it is said to write and fails only with faults its rule lists. -/
theorem exec_touches {i : Instr} (hi : i ≠ .ssInit) :
    ∃ body, (∀ s, exec i s = .next (s.runCommand body)) ∧ Touches (writes i) (listedFaults i) body := by
  cases i with
  | nop => exact ⟨_, fun _ => rfl, Touches.pure 0⟩
  | ssInit => exact absurd rfl hi
  | bsRdb => exact ⟨_, fun _ => rfl, bsRdb_touches⟩
  | bsUnrd => exact ⟨_, fun _ => rfl, bsUnrd_touches⟩
  | bsRdx n => exact ⟨_, fun _ => rfl, bsRdx_touches n⟩
  | bsSkip n => exact ⟨_, fun _ => rfl, bsSkip_touches n⟩
  | baEns n => exact ⟨_, fun _ => rfl, baEns_touches n⟩
  | baRdbit => exact ⟨_, fun _ => rfl, baRdbit_touches⟩
  | baRdbits n => exact ⟨_, fun _ => rfl, baRdbits_touches n⟩
  | baRcvx t => exact ⟨_, fun _ => rfl, baRcvx_touches t⟩
  | baRst => exact ⟨_, fun _ => rfl, baRst_touches⟩
  | htBuild tc th => exact ⟨_, fun _ => rfl, htBuild_touches tc th⟩
  | htDec tc th => exact ⟨_, fun _ => rfl, htDec_touches tc th⟩
  | clClr => exact ⟨_, fun _ => rfl, clClr_touches⟩
  | clBlk comp td ta => exact ⟨_, fun _ => rfl, clBlk_touches comp td ta⟩
  | clDcf comp slot al => exact ⟨_, fun _ => rfl, clDcf_touches comp slot al⟩
  | clDcr al => exact ⟨_, fun _ => rfl, clDcr_touches al⟩
  | clAcf slot ss se al => exact ⟨_, fun _ => rfl, clAcf_touches slot ss se al⟩
  | clAcr slot ss se al => exact ⟨_, fun _ => rfl, clAcr_touches slot ss se al⟩
  | clRstm => exact ⟨_, fun _ => rfl, clRstm_touches⟩
  | clScan => exact ⟨_, fun _ => rfl, clScan_touches⟩
  | qtLoad pq tq => exact ⟨_, fun _ => rfl, qtLoad_touches pq tq⟩
  | xfCfg comp v => exact ⟨_, fun _ => rfl, xfCfg_touches comp v⟩
  | xfDq comp tq => exact ⟨_, fun _ => rfl, xfDq_touches comp tq (by simp [writes]) (by simp [listedFaults]) (by simp [listedFaults])⟩
  | xfIdct comp => exact ⟨_, fun _ => rfl, xfIdct_touches comp⟩
  | xfRun comp tq => exact ⟨_, fun _ => rfl, xfRun_touches comp tq⟩

end Sys2Proof.Machine
end

