-- ==== Sys2Proof/Laws/PerInstr.lean ====
section
/-! SUPPORT. The encoding round trip of each command, one lemma a constructor (`30_encoding.md` R81 to R83). -/

namespace Sys2Proof.Laws.RoundTrip

/-- Decoding the encoding of a well-formed command gives the command back. -/
def Statement (i : Instr) : Prop := i.wf = true → decode (encode i) = .ok i

/-- The number of a command word. -/
theorem toNat_commandWord {op operands : Nat} (ho : operands < 2 ^ 24) (hop : op < 2 ^ 8) :
    (commandWord op operands).toNat = op * 2 ^ 24 + operands := by
  rw [commandWord, BitVec.toNat_ofNat, Nat.mod_eq_of_lt]; omega

/-- Reading a field of a word whose number is known. -/
theorem bitField_of_toNat {w : Word} {v : Nat} (e : w.toNat = v) (hi lo : Nat) : bitField w hi lo = v / 2 ^ lo % 2 ^ (hi + 1 - lo) := by
  rw [bitField, e, Nat.shiftRight_eq_div_pow]

theorem nop : Statement .nop := fun _ => by decide

theorem ssInit : Statement .ssInit := fun _ => by decide

theorem bsRdb : Statement .bsRdb := fun _ => by decide

theorem bsUnrd : Statement .bsUnrd := fun _ => by decide

theorem bsRdx (n : Nat) : Statement (.bsRdx n) := by
  intro h
  simp only [Instr.wf, fitsField, decide_eq_true_eq] at h
  have e : (encode (.bsRdx n)).toNat = 0x13 * 2 ^ 24 + (n) := by
    rw [encode, toNat_commandWord] <;> omega
  generalize encode (.bsRdx n) = w at e ⊢
  have o : bitField w 31 24 = 0x13 := by rw [bitField_of_toNat e]; omega
  have f0 : bitField w 23 16 = 0 := by rw [bitField_of_toNat e]; omega
  have f1 : bitField w 15 0 = n := by rw [bitField_of_toNat e]; omega
  simp [decode, decodeN, whenZero, o, f0, f1]

theorem bsSkip (n : Nat) : Statement (.bsSkip n) := by
  intro h
  simp only [Instr.wf, fitsField, decide_eq_true_eq] at h
  have e : (encode (.bsSkip n)).toNat = 0x14 * 2 ^ 24 + (n) := by
    rw [encode, toNat_commandWord] <;> omega
  generalize encode (.bsSkip n) = w at e ⊢
  have o : bitField w 31 24 = 0x14 := by rw [bitField_of_toNat e]; omega
  have f0 : bitField w 23 16 = 0 := by rw [bitField_of_toNat e]; omega
  have f1 : bitField w 15 0 = n := by rw [bitField_of_toNat e]; omega
  simp [decode, decodeN, whenZero, o, f0, f1]

theorem baEns (n : Nat) : Statement (.baEns n) := by
  intro h
  simp only [Instr.wf, fitsField, decide_eq_true_eq] at h
  have e : (encode (.baEns n)).toNat = 0x20 * 2 ^ 24 + (n) := by
    rw [encode, toNat_commandWord] <;> omega
  generalize encode (.baEns n) = w at e ⊢
  have o : bitField w 31 24 = 0x20 := by rw [bitField_of_toNat e]; omega
  have f0 : bitField w 23 5 = 0 := by rw [bitField_of_toNat e]; omega
  have f1 : bitField w 4 0 = n := by rw [bitField_of_toNat e]; omega
  simp [decode, decodeB, whenZero, o, f0, f1]

theorem baRdbit : Statement .baRdbit := fun _ => by decide

theorem baRdbits (n : Nat) : Statement (.baRdbits n) := by
  intro h
  simp only [Instr.wf, fitsField, decide_eq_true_eq] at h
  have e : (encode (.baRdbits n)).toNat = 0x22 * 2 ^ 24 + (n) := by
    rw [encode, toNat_commandWord] <;> omega
  generalize encode (.baRdbits n) = w at e ⊢
  have o : bitField w 31 24 = 0x22 := by rw [bitField_of_toNat e]; omega
  have f0 : bitField w 23 5 = 0 := by rw [bitField_of_toNat e]; omega
  have f1 : bitField w 4 0 = n := by rw [bitField_of_toNat e]; omega
  simp [decode, decodeB, whenZero, o, f0, f1]

theorem baRcvx (t : Nat) : Statement (.baRcvx t) := by
  intro h
  simp only [Instr.wf, fitsField, decide_eq_true_eq] at h
  have e : (encode (.baRcvx t)).toNat = 0x23 * 2 ^ 24 + (t) := by
    rw [encode, toNat_commandWord] <;> omega
  generalize encode (.baRcvx t) = w at e ⊢
  have o : bitField w 31 24 = 0x23 := by rw [bitField_of_toNat e]; omega
  have f0 : bitField w 23 5 = 0 := by rw [bitField_of_toNat e]; omega
  have f1 : bitField w 4 0 = t := by rw [bitField_of_toNat e]; omega
  simp [decode, decodeB, whenZero, o, f0, f1]

theorem baRst : Statement .baRst := fun _ => by decide

theorem htBuild (tc th : Nat) : Statement (.htBuild tc th) := by
  intro h
  simp only [Instr.wf, fitsField, Bool.and_eq_true, decide_eq_true_eq] at h
  have e : (encode (.htBuild tc th)).toNat = 0x30 * 2 ^ 24 + (tc * 2 ^ 4 + th) := by
    rw [encode, toNat_commandWord] <;> omega
  generalize encode (.htBuild tc th) = w at e ⊢
  have o : bitField w 31 24 = 0x30 := by rw [bitField_of_toNat e]; omega
  have f0 : bitField w 23 8 = 0 := by rw [bitField_of_toNat e]; omega
  have f1 : bitField w 7 4 = tc := by rw [bitField_of_toNat e]; omega
  have f2 : bitField w 3 0 = th := by rw [bitField_of_toNat e]; omega
  simp [decode, decodeT, whenZero, o, f0, f1, f2]

theorem htDec (tc th : Nat) : Statement (.htDec tc th) := by
  intro h
  simp only [Instr.wf, fitsField, Bool.and_eq_true, decide_eq_true_eq] at h
  have e : (encode (.htDec tc th)).toNat = 0x31 * 2 ^ 24 + (tc * 2 ^ 4 + th) := by
    rw [encode, toNat_commandWord] <;> omega
  generalize encode (.htDec tc th) = w at e ⊢
  have o : bitField w 31 24 = 0x31 := by rw [bitField_of_toNat e]; omega
  have f0 : bitField w 23 8 = 0 := by rw [bitField_of_toNat e]; omega
  have f1 : bitField w 7 4 = tc := by rw [bitField_of_toNat e]; omega
  have f2 : bitField w 3 0 = th := by rw [bitField_of_toNat e]; omega
  simp [decode, decodeT, whenZero, o, f0, f1, f2]

theorem clClr : Statement .clClr := fun _ => by decide

theorem clBlk (comp : Fin 4) (td ta : Nat) : Statement (.clBlk comp td ta) := by
  intro h
  simp only [Instr.wf, fitsField, Bool.and_eq_true, decide_eq_true_eq] at h
  have e : (encode (.clBlk comp td ta)).toNat = 0x41 * 2 ^ 24 + (comp.val * 2 ^ 8 + td * 2 ^ 4 + ta) := by
    rw [encode, toNat_commandWord] <;> omega
  generalize encode (.clBlk comp td ta) = w at e ⊢
  have o : bitField w 31 24 = 0x41 := by rw [bitField_of_toNat e]; omega
  have f0 : bitField w 23 10 = 0 := by rw [bitField_of_toNat e]; omega
  have f1 : compField w = comp := by
    simp only [compField, bitField_of_toNat e]; apply Fin.ext; simp only [Fin.ofNat]; omega
  have f2 : bitField w 7 4 = td := by rw [bitField_of_toNat e]; omega
  have f3 : bitField w 3 0 = ta := by rw [bitField_of_toNat e]; omega
  simp [decode, decodeK, whenZero, o, f0, f1, f2, f3]

theorem clDcf (comp : Fin 4) (slot al : Nat) : Statement (.clDcf comp slot al) := by
  intro h
  simp only [Instr.wf, fitsField, Bool.and_eq_true, decide_eq_true_eq] at h
  have e : (encode (.clDcf comp slot al)).toNat = 0x42 * 2 ^ 24 + (comp.val * 2 ^ 8 + slot * 2 ^ 4 + al) := by
    rw [encode, toNat_commandWord] <;> omega
  generalize encode (.clDcf comp slot al) = w at e ⊢
  have o : bitField w 31 24 = 0x42 := by rw [bitField_of_toNat e]; omega
  have f0 : bitField w 23 22 = 0 := by rw [bitField_of_toNat e]; omega
  have f1 : bitField w 21 16 = 0 := by rw [bitField_of_toNat e]; omega
  have f2 : bitField w 15 10 = 0 := by rw [bitField_of_toNat e]; omega
  have f3 : compField w = comp := by
    simp only [compField, bitField_of_toNat e]; apply Fin.ext; simp only [Fin.ofNat]; omega
  have f4 : bitField w 7 4 = slot := by rw [bitField_of_toNat e]; omega
  have f5 : bitField w 3 0 = al := by rw [bitField_of_toNat e]; omega
  simp [decode, decodePDc, whenZero, o, f0, f1, f2, f3, f4, f5]

theorem clDcr (al : Nat) : Statement (.clDcr al) := by
  intro h
  simp only [Instr.wf, fitsField, decide_eq_true_eq] at h
  have e : (encode (.clDcr al)).toNat = 0x43 * 2 ^ 24 + (al) := by
    rw [encode, toNat_commandWord] <;> omega
  generalize encode (.clDcr al) = w at e ⊢
  have o : bitField w 31 24 = 0x43 := by rw [bitField_of_toNat e]; omega
  have f0 : bitField w 23 22 = 0 := by rw [bitField_of_toNat e]; omega
  have f1 : bitField w 21 16 = 0 := by rw [bitField_of_toNat e]; omega
  have f2 : bitField w 15 10 = 0 := by rw [bitField_of_toNat e]; omega
  have f3 : bitField w 9 8 = 0 := by rw [bitField_of_toNat e]; omega
  have f4 : bitField w 7 4 = 0 := by rw [bitField_of_toNat e]; omega
  have f5 : bitField w 3 0 = al := by rw [bitField_of_toNat e]; omega
  simp [decode, decodePRefine, whenZero, o, f0, f1, f2, f3, f4, f5]

theorem clAcf (slot ss se al : Nat) : Statement (.clAcf slot ss se al) := by
  intro h
  simp only [Instr.wf, fitsField, Bool.and_eq_true, decide_eq_true_eq] at h
  have e : (encode (.clAcf slot ss se al)).toNat = 0x44 * 2 ^ 24 + (se * 2 ^ 16 + ss * 2 ^ 10 + slot * 2 ^ 4 + al) := by
    rw [encode, toNat_commandWord] <;> omega
  generalize encode (.clAcf slot ss se al) = w at e ⊢
  have o : bitField w 31 24 = 0x44 := by rw [bitField_of_toNat e]; omega
  have f0 : bitField w 23 22 = 0 := by rw [bitField_of_toNat e]; omega
  have f1 : bitField w 9 8 = 0 := by rw [bitField_of_toNat e]; omega
  have f2 : bitField w 21 16 = se := by rw [bitField_of_toNat e]; omega
  have f3 : bitField w 15 10 = ss := by rw [bitField_of_toNat e]; omega
  have f4 : bitField w 7 4 = slot := by rw [bitField_of_toNat e]; omega
  have f5 : bitField w 3 0 = al := by rw [bitField_of_toNat e]; omega
  simp [decode, decodePAc, whenZero, o, f0, f1, f2, f3, f4, f5]

theorem clAcr (slot ss se al : Nat) : Statement (.clAcr slot ss se al) := by
  intro h
  simp only [Instr.wf, fitsField, Bool.and_eq_true, decide_eq_true_eq] at h
  have e : (encode (.clAcr slot ss se al)).toNat = 0x45 * 2 ^ 24 + (se * 2 ^ 16 + ss * 2 ^ 10 + slot * 2 ^ 4 + al) := by
    rw [encode, toNat_commandWord] <;> omega
  generalize encode (.clAcr slot ss se al) = w at e ⊢
  have o : bitField w 31 24 = 0x45 := by rw [bitField_of_toNat e]; omega
  have f0 : bitField w 23 22 = 0 := by rw [bitField_of_toNat e]; omega
  have f1 : bitField w 9 8 = 0 := by rw [bitField_of_toNat e]; omega
  have f2 : bitField w 21 16 = se := by rw [bitField_of_toNat e]; omega
  have f3 : bitField w 15 10 = ss := by rw [bitField_of_toNat e]; omega
  have f4 : bitField w 7 4 = slot := by rw [bitField_of_toNat e]; omega
  have f5 : bitField w 3 0 = al := by rw [bitField_of_toNat e]; omega
  simp [decode, decodePAc, whenZero, o, f0, f1, f2, f3, f4, f5]

theorem clRstm : Statement .clRstm := fun _ => by decide

theorem clScan : Statement .clScan := fun _ => by decide

theorem qtLoad (pq tq : Nat) : Statement (.qtLoad pq tq) := by
  intro h
  simp only [Instr.wf, fitsField, Bool.and_eq_true, decide_eq_true_eq] at h
  have e : (encode (.qtLoad pq tq)).toNat = 0x50 * 2 ^ 24 + (pq * 2 ^ 4 + tq) := by
    rw [encode, toNat_commandWord] <;> omega
  generalize encode (.qtLoad pq tq) = w at e ⊢
  have o : bitField w 31 24 = 0x50 := by rw [bitField_of_toNat e]; omega
  have f0 : bitField w 23 8 = 0 := by rw [bitField_of_toNat e]; omega
  have f1 : bitField w 7 4 = pq := by rw [bitField_of_toNat e]; omega
  have f2 : bitField w 3 0 = tq := by rw [bitField_of_toNat e]; omega
  simp [decode, decodeT, whenZero, o, f0, f1, f2]

theorem xfCfg (comp : Fin 4) (variant : Nat) : Statement (.xfCfg comp variant) := by
  intro h
  simp only [Instr.wf, fitsField, decide_eq_true_eq] at h
  have e : (encode (.xfCfg comp variant)).toNat = 0x51 * 2 ^ 24 + (comp.val * 2 ^ 8 + variant) := by
    rw [encode, toNat_commandWord] <;> omega
  generalize encode (.xfCfg comp variant) = w at e ⊢
  have o : bitField w 31 24 = 0x51 := by rw [bitField_of_toNat e]; omega
  have f0 : bitField w 23 10 = 0 := by rw [bitField_of_toNat e]; omega
  have f1 : bitField w 7 4 = 0 := by rw [bitField_of_toNat e]; omega
  have f2 : bitField w 3 3 = 0 := by rw [bitField_of_toNat e]; omega
  have f3 : compField w = comp := by
    simp only [compField, bitField_of_toNat e]; apply Fin.ext; simp only [Fin.ofNat]; omega
  have f4 : bitField w 2 0 = variant := by rw [bitField_of_toNat e]; omega
  simp [decode, decodeXVariant, whenZero, o, f0, f1, f2, f3, f4]

theorem xfDq (comp : Fin 4) (tq : Nat) : Statement (.xfDq comp tq) := by
  intro h
  simp only [Instr.wf, fitsField, decide_eq_true_eq] at h
  have e : (encode (.xfDq comp tq)).toNat = 0x52 * 2 ^ 24 + (comp.val * 2 ^ 8 + tq) := by
    rw [encode, toNat_commandWord] <;> omega
  generalize encode (.xfDq comp tq) = w at e ⊢
  have o : bitField w 31 24 = 0x52 := by rw [bitField_of_toNat e]; omega
  have f0 : bitField w 23 10 = 0 := by rw [bitField_of_toNat e]; omega
  have f1 : bitField w 7 4 = 0 := by rw [bitField_of_toNat e]; omega
  have f2 : compField w = comp := by
    simp only [compField, bitField_of_toNat e]; apply Fin.ext; simp only [Fin.ofNat]; omega
  have f3 : bitField w 3 0 = tq := by rw [bitField_of_toNat e]; omega
  simp [decode, decodeX, whenZero, o, f0, f1, f2, f3]

theorem xfIdct (comp : Fin 4) : Statement (.xfIdct comp) := by
  intro _
  have e : (encode (.xfIdct comp)).toNat = 0x53 * 2 ^ 24 + (comp.val * 2 ^ 8) := by
    rw [encode, toNat_commandWord] <;> omega
  generalize encode (.xfIdct comp) = w at e ⊢
  have o : bitField w 31 24 = 0x53 := by rw [bitField_of_toNat e]; omega
  have f0 : bitField w 23 10 = 0 := by rw [bitField_of_toNat e]; omega
  have f1 : bitField w 7 4 = 0 := by rw [bitField_of_toNat e]; omega
  have f2 : compField w = comp := by
    simp only [compField, bitField_of_toNat e]; apply Fin.ext; simp only [Fin.ofNat]; omega
  have f3 : bitField w 3 0 = 0 := by rw [bitField_of_toNat e]; omega
  simp [decode, decodeXNoArg, whenZero, o, f0, f1, f2, f3]

theorem xfRun (comp : Fin 4) (tq : Nat) : Statement (.xfRun comp tq) := by
  intro h
  simp only [Instr.wf, fitsField, decide_eq_true_eq] at h
  have e : (encode (.xfRun comp tq)).toNat = 0x54 * 2 ^ 24 + (comp.val * 2 ^ 8 + tq) := by
    rw [encode, toNat_commandWord] <;> omega
  generalize encode (.xfRun comp tq) = w at e ⊢
  have o : bitField w 31 24 = 0x54 := by rw [bitField_of_toNat e]; omega
  have f0 : bitField w 23 10 = 0 := by rw [bitField_of_toNat e]; omega
  have f1 : bitField w 7 4 = 0 := by rw [bitField_of_toNat e]; omega
  have f2 : compField w = comp := by
    simp only [compField, bitField_of_toNat e]; apply Fin.ext; simp only [Fin.ofNat]; omega
  have f3 : bitField w 3 0 = tq := by rw [bitField_of_toNat e]; omega
  simp [decode, decodeX, whenZero, o, f0, f1, f2, f3]

end Sys2Proof.Laws.RoundTrip
end

