-- ==== Sys2Proof/Tests/Slice0.lean ====
section
/-! SUPPORT. Tests with expected results from the spec (its encodings, the examples in its rules, `95_test_vectors.md`), and for every obligation
with hypotheses a state and operands that meet them together. -/

namespace Sys2Proof.Tests

set_option Elab.async false

open Sys2Proof Sys2Proof.Machine Sys2Proof.Reference

/-! ### Small states -/

/-- What a field of the next state is, if there is a next state. -/
def after {α : Type} (o : Host.Outcome State Fault Refusal) (f : State → α) : Option α :=
  match o with
  | .next t => some (f t)
  | .fault _ => none
  | .refused _ => none

/-- STATUS and FINFO of the next state, as the host reads them. -/
def faultOf (o : Host.Outcome State Fault Refusal) : Option (Word × Word) := after o fun t => (t.status.word, t.finfo)

/-- An idle block with source `src` and zeros where reset leaves free values. -/
def idle (src : List Byte) : State :=
  { State.afterReset 0 src [] [] 0 with
    coef := Vector.replicate 64 0, dqb := Vector.replicate 64 0, samp := Vector.replicate 64 0
    pram := (List.range 512).map fun a => (a, 0) }

/-- PRAM[0..] as given, the rest 0. -/
def withPram (bs : List Byte) (s : State) : State := { s with pram := (List.range 512).map fun a => (a, bs[a]?.getD 0) }

/-- COEF as given by natural index, the rest 0. -/
def withCoef (cs : List (Nat × Int)) (s : State) : State :=
  { s with coef := Vector.ofFn fun n => w32 ((cs.lookup n.val).getD 0) }

def tdcCounts : Vector Byte 16 := #v[0, 1, 5, 1, 1, 1, 1, 1, 1, 0, 0, 0, 0, 0, 0, 0]

def tacCounts : Vector Byte 16 := #v[0, 2, 2, 3, 0, 0, 0, 0, 0, 0, 0, 0, 0, 0, 0, 0]

def tacSymbols : List Byte := [0x00, 0x01, 0x11, 0x02, 0xF0, 0x21, 0x10]

/-- The table TDC of the vectors. -/
def tdc : HuffTable := buildTable tdcCounts fun i => BitVec.ofNat 8 i

/-- The table TAC of the vectors. -/
def tac : HuffTable := buildTable tacCounts fun i => tacSymbols[i]?.getD 0

/-- "tables loaded": TDC in HT[0][0], TAC in HT[1][0]. -/
def loaded (src : List Byte) : State := ((idle src).setTable 0 0 tdc).setTable 1 0 tac

/-- The block of `46_idct.md` R243 with all quantizers 8 in slot 1. -/
def sample : State :=
  withCoef [(0, 10), (1, -4), (8, 3), (9, 2)]
    { idle [] with qt := Vector.ofFn fun _ => Vector.ofFn fun _ => 8, qtdef := #v[false, true, false, false] }

/-- A faulted block that can only be told by its record. -/
def faulted : State := { (idle [1]) with cmd := 0x99000000 }.raise .illegalCommand

/-! ### Well-formedness refuses what fits no field -/

theorem test_wf_bsRdx : (Instr.bsRdx 65536).wf = false := by decide

theorem test_wf_bsSkip : (Instr.bsSkip 65536).wf = false := by decide

theorem test_wf_baEns : (Instr.baEns 32).wf = false := by decide

theorem test_wf_baRdbits : (Instr.baRdbits 32).wf = false := by decide

theorem test_wf_baRcvx : (Instr.baRcvx 32).wf = false := by decide

theorem test_wf_htBuild : (Instr.htBuild 16 0).wf = false ∧ (Instr.htBuild 0 16).wf = false := by decide

theorem test_wf_htDec : (Instr.htDec 16 0).wf = false ∧ (Instr.htDec 0 16).wf = false := by decide

theorem test_wf_clBlk : (Instr.clBlk 0 16 0).wf = false ∧ (Instr.clBlk 0 0 16).wf = false := by decide

theorem test_wf_clDcf : (Instr.clDcf 0 16 0).wf = false ∧ (Instr.clDcf 0 0 16).wf = false := by decide

theorem test_wf_clDcr : (Instr.clDcr 16).wf = false := by decide

theorem test_wf_clAcf : (Instr.clAcf 16 1 1 0).wf = false ∧ (Instr.clAcf 0 64 1 0).wf = false ∧ (Instr.clAcf 0 1 64 0).wf = false ∧
    (Instr.clAcf 0 1 1 16).wf = false := by decide

theorem test_wf_clAcr : (Instr.clAcr 16 1 1 0).wf = false ∧ (Instr.clAcr 0 64 1 0).wf = false ∧ (Instr.clAcr 0 1 64 0).wf = false ∧
    (Instr.clAcr 0 1 1 16).wf = false := by decide

theorem test_wf_qtLoad : (Instr.qtLoad 16 0).wf = false ∧ (Instr.qtLoad 0 16).wf = false := by decide

theorem test_wf_xfCfg : (Instr.xfCfg 0 8).wf = false := by decide

theorem test_wf_xfDq : (Instr.xfDq 0 16).wf = false := by decide

theorem test_wf_xfRun : (Instr.xfRun 0 16).wf = false := by decide

/-! ### Decoding, each word written out from the format of R81 and the opcode of R83 -/

theorem test_decode_nop : decode 0b00000000000000000000000000000000 = .ok .nop := by decide

theorem test_decode_ssInit : decode 0b00000001000000000000000000000000 = .ok .ssInit := by decide

theorem test_decode_bsRdb : decode 0b00010000000000000000000000000000 = .ok .bsRdb := by decide

theorem test_decode_bsUnrd : decode 0b00010010000000000000000000000000 = .ok .bsUnrd := by decide

theorem test_decode_bsRdx : decode 0b00010011000000001000000000000001 = .ok (.bsRdx 0x8001) := by decide

theorem test_decode_bsSkip : decode 0b00010100000000000000000100000010 = .ok (.bsSkip 0x102) := by decide

theorem test_decode_baEns : decode 0b00100000000000000000000000010001 = .ok (.baEns 17) := by decide

theorem test_decode_baRdbit : decode 0b00100001000000000000000000000000 = .ok .baRdbit := by decide

theorem test_decode_baRdbits : decode 0b00100010000000000000000000001100 = .ok (.baRdbits 12) := by decide

theorem test_decode_baRcvx : decode 0b00100011000000000000000000010000 = .ok (.baRcvx 16) := by decide

theorem test_decode_baRst : decode 0b00100100000000000000000000000000 = .ok .baRst := by decide

theorem test_decode_htBuild : decode 0b00110000000000000000000000010011 = .ok (.htBuild 1 3) := by decide

theorem test_decode_htDec : decode 0b00110001000000000000000000100000 = .ok (.htDec 2 0) := by decide

theorem test_decode_clClr : decode 0b01000000000000000000000000000000 = .ok .clClr := by decide

theorem test_decode_clBlk : decode 0b01000001000000000000001101000101 = .ok (.clBlk 3 4 5) := by decide

theorem test_decode_clDcf : decode 0b01000010000000000000000100100011 = .ok (.clDcf 1 2 3) := by decide

theorem test_decode_clDcr : decode 0b01000011000000000000000000001110 = .ok (.clDcr 14) := by decide

theorem test_decode_clAcf : decode 0b01000100001111110000010000010010 = .ok (.clAcf 1 1 63 2) := by decide

theorem test_decode_clAcr : decode 0b01000101000001010000100000110001 = .ok (.clAcr 3 2 5 1) := by decide

theorem test_decode_clRstm : decode 0b01000110000000000000000000000000 = .ok .clRstm := by decide

theorem test_decode_clScan : decode 0b01000111000000000000000000000000 = .ok .clScan := by decide

theorem test_decode_qtLoad : decode 0b01010000000000000000000000010010 = .ok (.qtLoad 1 2) := by decide

theorem test_decode_xfCfg : decode 0b01010001000000000000001100000101 = .ok (.xfCfg 3 5) := by decide

theorem test_decode_xfDq : decode 0b01010010000000000000000100000100 = .ok (.xfDq 1 4) := by decide

theorem test_decode_xfIdct : decode 0b01010011000000000000001000000000 = .ok (.xfIdct 2) := by decide

theorem test_decode_xfRun : decode 0b01010100000000000000000100000001 = .ok (.xfRun 1 1) := by decide

/-- V-SS2 and V-SS3: unassigned opcodes and set must-be-zero bits. -/
theorem test_decode_illegal :
    ([0x02000000, 0x0F000000, 0x11000000, 0x15000000, 0x99000000, 0xFF000000] : List Word).all
        (fun w => decode w matches .error .unassignedOpcode) = true ∧
      ([0x13010000, 0x22000025, 0x30000100, 0x41000400, 0x42000400, 0x42400000, 0x43000100, 0x44050500, 0x51000008, 0x51000010, 0x52000400,
        0x53000001, 0x54000010, 0x01000001] : List Word).all (fun w => decode w matches .error .mustBeZeroBit) = true := by decide

theorem test_decodeTableWord : decodeTableWord 32 0x41000211 = some (.clBlk 2 1 1) ∧ decodeTableWord 32 0x02000000 = none := by decide

/-- The word placed by `withFetchWord` runs as the first command after reset: BS.RDB meets the end of the empty source. -/
theorem test_withFetchWord : faultOf (step (State.reset.withFetchWord 32 0x10000000)) = some (0x102, 0x10000000) := by decide +kernel

/-! ### Session, issue, faults -/

/-- V-SS1. -/
theorem test_nop : after (exec .nop (idle [])) (fun t => (t.result, t.ccnt)) = some (0, 1) := by decide +kernel

/-- V-SS1: CCNT is 0, not 3. -/
theorem test_ssInit : after (exec .ssInit { idle [1, 2, 3] with result := 1, ccnt := 2, nextSrc := [9] })
    (fun t => (t.result, t.ccnt, t.stream.pos, t.src)) = some (0, 0, 0, [9]) := by decide +kernel

/-- V-SS3: the must-be-zero check comes before the operand check. -/
theorem test_issue_illegal : faultOf (issue 0x22000100 (idle [1])) = some (0x4002, 0x22000100) := by decide +kernel

/-- V-SS5: another word than 0x01000000 is ignored while FAULT = 1. -/
theorem test_issue_faulted : faultOf (issue 0x01000001 faulted) = some (0x4002, 0x99000000) := by decide +kernel

/-- R40: a store to COEF and the load that follows it. -/
theorem test_window : after (hostWrite 0x104 4 7 (idle [])) (fun t => after (hostRead 0x104 4 t) fun u => u.rdata) = some (some 7) := by
  decide +kernel

/-! ### Byte stream -/

/-- V-BS1. -/
theorem test_bsRdb : after (exec .bsRdb (idle [0xFF, 0xD8, 0xAA])) (fun t => (t.result, t.stream, t.ccnt)) =
    some (0xFF, ⟨1, 0, 0, 0⟩, 1) := by decide +kernel

/-- V-BS5: a stuffed pair goes back as two raw bytes. -/
theorem test_bsUnrd : after (exec .bsUnrd { idle [0xFF, 0x00, 0x34] with stream := ⟨2, 2, 0xFF, 8⟩ }) (fun t => (t.result, t.stream)) =
    some (2, ⟨0, 0, 0, 0⟩) := by decide +kernel

/-- V-BS5: a partly consumed byte stays. -/
theorem test_bsUnrd_none : after (exec .bsUnrd { idle [0x12, 0x34] with stream := ⟨1, 1, 2, 4⟩ }) (fun t => (t.result, t.stream)) =
    some (0, ⟨1, 0, 2, 4⟩) := by decide +kernel

/-- V-BS2. -/
theorem test_bsRdx : after (exec (.bsRdx 4) (idle [1, 2, 3, 4, 5, 6])) (fun t => (t.stream.pos, (List.range 5).map t.pram.byte)) =
    some (4, [1, 2, 3, 4, 0]) := by decide +kernel

/-- V-BS4: the bound on n comes before the length of the source. -/
theorem test_bsRdx_bound : faultOf (issue 0x13000201 (idle [1, 2, 3])) = some (0x4102, 0x13000201) := by decide +kernel

/-- V-BS3: skipping to the exact end. -/
theorem test_bsSkip : after (exec (.bsSkip 6) (idle [1, 2, 3, 4, 5, 6])) (fun t => (t.stream.pos, t.ccnt)) = some (6, 1) := by
  decide +kernel

/-! ### Bit accumulator -/

/-- V-BA3. -/
theorem test_baEns : after (exec (.baEns 9) (idle [0xAB, 0xCD, 0xEF])) (fun t => (t.result, t.stream)) = some (0, ⟨2, 1, 0xABCD, 16⟩) := by
  decide +kernel

/-- V-BS7: a marker. -/
theorem test_baRdbit_marker : faultOf (issue 0x21000000 (idle [0xFF, 0xD9])) = some (0x1002, 0x21000000) := by decide +kernel

/-- V-BS6. -/
theorem test_baRdbit : after (exec .baRdbit (idle [0xA5, 0xFF, 0x00, 0x3C])) (fun t => (t.result, t.stream)) =
    some (1, ⟨1, 1, 0x25, 7⟩) := by decide +kernel

/-- V-BS6: across a stuffed pair. -/
theorem test_baRdbits : after (exec (.baRdbits 8) { idle [0xA5, 0xFF, 0x00, 0x3C] with stream := ⟨1, 1, 5, 4⟩ })
    (fun t => (t.result, t.stream)) = some (0x5F, ⟨3, 2, 0xF, 4⟩) := by decide +kernel

/-- V-BA4: a negative value. -/
theorem test_baRcvx : after (exec (.baRcvx 4) (idle [0x50])) (fun t => t.result) = some 0xFFFFFFF6 := by decide +kernel

/-- V-BA4: sixteen bits across a stuffed pair. -/
theorem test_baRcvx_wide : after (exec (.baRcvx 16) { idle [0x80, 0x00, 0x7F, 0xFF, 0x00] with stream := ⟨2, 1, 0, 0⟩ })
    (fun t => (t.result, t.stream)) = some (0xFFFF8000, ⟨5, 2, 0, 0⟩) := by decide +kernel

/-- V-BA3. -/
theorem test_baRst : after (exec .baRst { idle [0xAB, 0xCD, 0xEF] with stream := ⟨2, 1, 0xABCD, 16⟩ }) (fun t => t.stream) =
    some ⟨2, 1, 0, 0⟩ := by decide +kernel

/-! ### Huffman tables -/

/-- R156, some fields of the table built from the PRAM contents of TDC. -/
theorem test_htBuild : after (exec (.htBuild 0 0)
      (withPram [0, 1, 5, 1, 1, 1, 1, 1, 1, 0, 0, 0, 0, 0, 0, 0, 0, 1, 2, 3, 4, 5, 6, 7, 8, 9, 10, 11] (idle [])))
    (fun t => let T := t.ht[0][0]
      (t.result, [T.minCode[2], T.maxCode[2], T.valsIndex[2], T.maxCode[0], T.minCode[8]], [T.lut[0x00], T.lut[0xFE], T.lut[0xFF]])) =
    some (12, [2, 6, 1, -1, 510], [0x0003, 0x0A09, 0]) := by decide +kernel

/-- V-HT2 (e): over-subscribed. -/
theorem test_htBuild_over : faultOf (issue 0x30000000 (withPram [1, 2, 1] (idle []))) = some (0x1102, 0x30000000) := by decide +kernel

/-- V-HT3 row 2: the fast path. -/
theorem test_htDec_fast : after (exec (.htDec 0 0) { loaded [0x58, 0xEF, 0xF7, 0xF7] with stream := ⟨1, 1, 0x18, 5⟩ })
    (fun t => (t.result, t.stream)) = some (5, ⟨2, 1, 0xEF, 10⟩) := by decide +kernel

/-- V-HT7: the load that fails under the peek is caught. -/
theorem test_htDec_caught : after (exec (.htDec 0 0) { loaded [0x1B, 0xFF, 0xD9] with stream := ⟨1, 1, 3, 3⟩ })
    (fun t => (t.result, t.stream)) = some (2, ⟨1, 0, 0, 0⟩) := by decide +kernel

/-! ### Coefficient load -/

/-- R175. -/
theorem test_clClr : after (exec .clClr (withCoef [(0, 5), (63, 1)] (idle []))) (fun t => (t.coef[0], t.coef[63])) = some (0, 0) := by
  decide +kernel

/-- V-CL1, block A. -/
theorem test_clBlk : after (exec (.clBlk 0 0 0) (loaded [0x95, 0xC6, 0x5C, 0x68, 0x77]))
    (fun t => (t.stream, [t.coef[0], t.coef[1], t.coef[16], t.coef[40], t.coef[8]], t.dcpred[0])) =
    some (⟨4, 1, 0x68, 8⟩, [5, 1, -1, 3, 0], 5) := by decide +kernel

/-- V-CL3 (b): the fourth ZRL overruns. -/
theorem test_clBlk_overrun : faultOf (issue 0x41000000 (loaded [0x33, 0x33, 0x3F])) = some (0x1802, 0x41000000) := by decide +kernel

/-- V-CL7, second CL.DCF. -/
theorem test_clDcf : after (exec (.clDcf 0 0 2) { loaded [0x95, 0x97] with stream := ⟨1, 1, 1, 2⟩, dcpred := #v[5, 0, 0, 0] })
    (fun t => (t.stream.acc, t.stream.cnt, t.coef[0], t.dcpred[0])) = some (0x17, 5, 8, 2) := by decide +kernel

/-- V-CL7. -/
theorem test_clDcr : after (exec (.clDcr 1) (withCoef [(0, 8)] { loaded [0x95, 0x97] with stream := ⟨2, 1, 0x17, 5⟩ }))
    (fun t => (t.coef[0], t.stream.acc, t.stream.cnt)) = some (10, 7, 4) := by decide +kernel

/-- V-CL8, block A. -/
theorem test_clAcf : after (exec (.clAcf 0 1 5 1) (loaded [0x7A, 0xED, 0x0F]))
    (fun t => (t.stream, t.coef[1], t.coef[9], t.eobrun)) = some (⟨2, 1, 5, 3⟩, 2, -2, 2) := by decide +kernel

/-- V-CL10, command 1. -/
theorem test_clAcr : after (exec (.clAcr 0 1 5 0) (withCoef [(1, 2), (9, -2)] (loaded [0x99, 0xE3, 0x7F])))
    (fun t => (t.stream.pos, t.stream.acc, t.stream.cnt, [t.coef[1], t.coef[9], t.coef[16]], t.eobrun)) =
    some (2, 0xE3, 8, [3, -3, 1], 0) := by decide +kernel

/-- V-CL11 (c): a ZRL walk that runs off the band. -/
theorem test_clAcr_overrun : faultOf (issue 0x45100402 (withCoef [(16, 4)] (loaded [0xCF]))) = some (0x1802, 0x45100402) := by
  decide +kernel

/-- V-CL12. -/
theorem test_clRstm : after (exec .clRstm { idle [0xA5, 0xFF, 0xD0, 0x3C] with
      stream := ⟨1, 1, 5, 5⟩, dcpred := #v[7, 8, 9, 10], eobrun := 5 }) (fun t => (t.stream, t.rstexp, t.dcpred, t.eobrun)) =
    some (⟨3, 0, 0, 0⟩, 1, #v[0, 0, 0, 0], 0) := by decide +kernel

/-- V-CL12: the overshoot byte goes back and is not the marker. -/
theorem test_clRstm_bad : faultOf (issue 0x46000000 { idle [0xA5, 0x77, 0xFF, 0xD0] with stream := ⟨2, 1, 0x577, 13⟩ }) =
    some (0x1402, 0x46000000) := by decide +kernel

/-- V-CL13. -/
theorem test_clScan : after (exec .clScan { idle [0xA5, 0x77] with
      stream := ⟨1, 1, 5, 5⟩, dcpred := #v[7, 8, 9, 10], eobrun := 5, rstexp := 3 }) (fun t => (t.stream, t.rstexp, t.dcpred, t.eobrun)) =
    some (⟨1, 0, 0, 0⟩, 0, #v[0, 0, 0, 0], 0) := by decide +kernel

/-! ### Quantization and transform -/

/-- V-QT2: 16-bit entries, high byte first. -/
theorem test_qtLoad : after (exec (.qtLoad 1 2) (withPram [0, 0xFF, 1, 0xFE, 2, 0xFD] (idle [])))
    (fun t => (t.qt[2][0], t.qt[2][1], t.qt[2][2], t.qtdef)) = some (0xFF, 0x1FE, 0x2FD, #v[false, false, true, false]) := by decide +kernel

/-- V-XF1. -/
theorem test_xfCfg : after (exec (.xfCfg 3 5) { idle [] with xcfg := #v[.flt, .acc, .acc, .acc] }) (fun t => t.xcfg) =
    some #v[.flt, .acc, .acc, .red1] := by decide +kernel

/-- V-XF2, kind 1. -/
theorem test_xfDq_scaled : after (exec (.xfDq 1 1) { sample with xcfg := #v[.acc, .fast, .acc, .acc] })
    (fun t => (t.dqtag.word, [t.dqb[0], t.dqb[1], t.dqb[8], t.dqb[9]])) = some (5, [320, -176, 132, 124]) := by decide +kernel

/-- V-XF2, kind 2. -/
theorem test_xfDq_float : after (exec (.xfDq 0 1) { sample with xcfg := #v[.flt, .acc, .acc, .acc] })
    (fun t => (t.dqtag.word, [t.dqb[0], t.dqb[1], t.dqb[8], t.dqb[9]])) = some (6, [0x42A00000, 0xC2318A86, 0x420527E4, 0x41F641AF]) := by
  decide +kernel

/-- V-XF4: RED2 writes four samples and keeps the rest. -/
theorem test_xfIdct : after (exec (.xfIdct 0) { sample with
      xcfg := #v[.red2, .acc, .acc, .acc], dqtag := ⟨true, .plain⟩, samp := Vector.replicate 64 7
      dqb := Vector.ofFn fun n => w32 ((([(0, 80), (1, -32), (8, 24), (9, 16)] : List (Nat × Int)).lookup n.val).getD 0) })
    (fun t => [t.samp[0], t.samp[1], t.samp[2], t.samp[3], t.samp[4]]) = some [139, 143, 130, 141, 7] := by decide +kernel

/-- V-XF5 (b): a block prepared for another kind. -/
theorem test_xfIdct_sequence : faultOf (issue 0x53000000 { sample with xcfg := #v[.fast, .acc, .acc, .acc], dqtag := ⟨true, .plain⟩ }) =
    some (0x4202, 0x53000000) := by decide +kernel

/-- V-XF3: rows 0 and 7 of ACC at both ends. -/
theorem test_xfRun_acc : after (exec (.xfRun 0 1) sample) (fun t => [t.samp[0], t.samp[7], t.samp[56], t.samp[63]]) =
    some [140, 144, 124, 143] := by decide +kernel

/-- V-XF3: row 4 of FLT, where it differs from ACC at its last sample. -/
theorem test_xfRun_flt : after (exec (.xfRun 0 1) { sample with xcfg := #v[.flt, .acc, .acc, .acc] })
    (fun t => [t.samp[32], t.samp[39]]) = some [131, 143] := by decide +kernel

/-! ### States that meet the invariant -/

theorem idle_stream_inv (src : List Byte) : (⟨0, 0, 0, 0⟩ : Stream).Inv src.length := ⟨Nat.zero_le _, Nat.le_refl _, by decide, by decide⟩

theorem tdc_built : tdc.built := ⟨tdcCounts, fun i => BitVec.ofNat 8 i, by decide, rfl⟩

theorem tac_built : tac.built := ⟨tacCounts, fun i => tacSymbols[i]?.getD 0, by decide, rfl⟩

theorem cells_wf (f : Nat → Byte) : Memory.wf ((List.range 512).map fun a => (a, f a)) := by
  simp [Memory.wf, Function.comp_def, Config.pramSize]

theorem idle_pram_wf (src : List Byte) : (idle src).pram.wf := by
  simp only [idle]
  exact cells_wf fun _ => 0

/-- The loaded block with any stream, coefficients, predictors, end-of-band run and pending operations that meet the invariant. -/
theorem loaded_inv (src : List Byte) (t : Stream) (c : Vector Word 64) (p : Vector Word 4) (e : Half) (q : List HostOp) (h : src.length < Config.srcLimit)
    (ht : t.Inv src.length) (he : e.toNat ≤ 32767) :
    { loaded src with stream := t, coef := c, dcpred := p, eobrun := e, inputs := q }.Inv where
  idle := rfl
  clean _ := ⟨rfl, rfl⟩
  coded h := nomatch h
  stream := ht
  src_lt := h
  nextSrc_lt := by show 0 < _; decide
  eobrun_le := he
  tables tc th := by
    match tc, th with
    | 0, 0 => exact .inr tdc_built
    | 0, 1 | 0, 2 | 0, 3 => exact .inl rfl
    | 1, 0 => exact .inr tac_built
    | 1, 1 | 1, 2 | 1, 3 => exact .inl rfl
  pram := by
    simp only [loaded, State.setTable, idle]
    exact cells_wf fun _ => 0

/-- The loaded block as it stands. -/
theorem loaded_inv' (src : List Byte) (h : src.length < Config.srcLimit) : (loaded src).Inv := by
  have hi := loaded_inv src ⟨0, 0, 0, 0⟩ (Vector.replicate 64 0) #v[0, 0, 0, 0] 0 [] h (idle_stream_inv src) (by decide)
  simp only [loaded, State.setTable, idle, State.afterReset] at hi ⊢
  exact hi

/-- A table whose only codes are `0`, the size 17, and `1`, the size 16 (V-CL5). -/
def bigSizes : HuffTable := buildTable (#v[2, 0, 0, 0, 0, 0, 0, 0, 0, 0, 0, 0, 0, 0, 0, 0]) fun i => BitVec.ofNat 8 (0x11 - i)

/-- The block of R243 with a table in PRAM, ready for every command that may be repeated. -/
def repeatable : State := withPram [2, 0, 0, 0, 0, 0, 0, 0, 0, 0, 0, 0, 0, 0, 0, 0, 7, 9] { sample with dqtag := ⟨true, .plain⟩ }

/-! ### Witnesses: a state and operands that meet the hypotheses of each obligation, clause by clause -/

theorem witness_DecodeEncodeRoundTrip : (Instr.bsRdx 65535).wf = true ∧ (Instr.clAcf 15 63 63 15).wf = true ∧ (Instr.xfCfg 3 7).wf = true ∧
    Instr.nop.wf = true := by decide

theorem witness_EncodeDecodeRoundTrip : decode 0x443FFCFF = .ok (.clAcf 15 63 63 15) ∧ decode 0 = .ok .nop := by decide

theorem witness_CommandWordsFollowTheirFormats :
    ([0x00, 0x01, 0x10, 0x12, 0x13, 0x14, 0x20, 0x21, 0x22, 0x23, 0x24, 0x30, 0x31, 0x40, 0x41, 0x42, 0x43, 0x44, 0x45, 0x46, 0x47, 0x50, 0x51,
      0x52, 0x53, 0x54] : List Nat).all (fun op => fieldOf (BitVec.ofNat 32 (op * 2 ^ 24)) 31 24 == op) = true ∧
    fieldOf 0x44000100 31 24 = 0x44 ∧ fieldOf 0x44000100 9 8 ≠ 0 := by decide

theorem witness_OpcodeTableAgreesWithDecode : (⟨"CL.DCR", 0x43000000, 0xFFFFFFF0⟩ : OpcodeRow) ∈ opcodeTable ∧
    (0x4300000F : Word) &&& 0xFFFFFFF0 = 0x43000000 ∧ (0x43000010 : Word) &&& 0xFFFFFFF0 ≠ 0x43000000 := by decide

theorem witness_IllegalWordsRaiseIllegalCommand :
    (idle []).status.busy = false ∧ (idle []).status.fault = false ∧ (∀ row ∈ opcodeTable, (0x01000001 : Word) &&& row.mask ≠ row.pattern) ∧
    fieldOf 0x02000000 31 24 ∈ List.range' 0x02 14 ∧ fieldOf 0xFF000000 31 24 ∈ List.range' 0x55 171 := by decide

theorem witness_StepRunsTheCommandWritten :
    (idle []).inputs = [] ∧
    (∃ (s : State) (w : Word) (rest : List HostOp), s.inputs = cmdWrite w :: rest ∧ s.status.busy = false ∧ s.status.fault = false ∧
      decode w = .ok .nop) ∧
    (∃ (s : State) (w : Word) (rest : List HostOp), s.inputs = cmdWrite w :: rest ∧ s.status.busy = false ∧ s.status.fault = false ∧
      decode w = .error .unassignedOpcode) ∧
    (∃ (s : State) (w : Word) (rest : List HostOp), s.inputs = cmdWrite w :: rest ∧ s.status.busy = false ∧ s.status.fault = true ∧
      w ≠ 0x01000000) ∧
    ∃ (s : State) (w : Word) (rest : List HostOp), s.inputs = cmdWrite w :: rest ∧ s.status.busy = false ∧ s.status.fault = true ∧
      w = 0x01000000 :=
  ⟨rfl, ⟨{ idle [] with inputs := [cmdWrite 0] }, 0, [], rfl, rfl, rfl, by decide⟩,
    ⟨{ idle [] with inputs := [cmdWrite 0xFF000000] }, 0xFF000000, [], rfl, rfl, rfl, by decide⟩,
    ⟨{ faulted with inputs := [cmdWrite 0] }, 0, [], rfl, rfl, rfl, by decide⟩,
    ⟨{ faulted with inputs := [cmdWrite 0x01000000, .reset] }, 0x01000000, [.reset], rfl, rfl, rfl, rfl⟩⟩

theorem witness_NopOnlyCounts : fieldOf 0 31 24 = 0x00 ∧ (idle []).status.fault = false ∧ faulted.status.fault = true := by decide

theorem witness_SsInitStartsANewSession :
    fieldOf 0x01000000 31 24 = 0x01 ∧ faulted.status.busy = false ∧ faulted.status.fault = true ∧
    ∃ s t : State, s ≠ t ∧ s.nextSrc = t.nextSrc ∧ s.inputs = t.inputs ∧ s.rdata = t.rdata ∧ s.free = t.free :=
  ⟨by decide, rfl, rfl, idle [1], idle [2], fun h => absurd (congrArg State.src h) (by decide), rfl, rfl, rfl, rfl⟩

theorem witness_NothingRunsWhileFaulted : faulted.status.fault = true ∧ faulted.status.busy = false ∧ Instr.nop ≠ .ssInit ∧
    (0x01000001 : Word) ≠ 0x01000000 := by decide

theorem witness_EveryCommandCompletesOrFaults : Instr.clBlk 0 0 0 ≠ .ssInit ∧ (loaded []).status.fault = false := by decide

theorem witness_FaultIsSticky :
    let s : State := { faulted with inputs := [.read 0x008 4, cmdWrite 0x01000001, .bind [7], .write 0x100 4 5] }
    s.status.fault = true ∧ (∀ op ∈ s.inputs, op ≠ .reset ∧ ∀ off size, op ≠ .write off size 0x01000000) ∧
    ∃ t, Host.Core.run Sys2Proof.core 4 s = .next t :=
  ⟨rfl, by simp [cmdWrite], _, rfl⟩

theorem witness_FaultedBlockShowsOnlyItsRecord : FaultedAlike faulted { faulted with result := 5, src := [2] } :=
  ⟨rfl, rfl, rfl, rfl, rfl, rfl, rfl, rfl⟩

theorem witness_CommandsWriteOnlyTheirItems : Instr.clScan ≠ .ssInit ∧ (loaded [1]).status.fault = false ∧
    ∃ t, exec .clScan (loaded [1]) = .next t ∧ t.status.fault = false := ⟨by decide, rfl, _, rfl, rfl⟩

theorem witness_IdempotentCommands : repeatable.status.fault = false ∧
    ([.nop, .baRst, .clClr, .clScan, .xfCfg 1 3, .htBuild 1 3, .qtLoad 1 2, .xfDq 0 1, .xfIdct 0, .xfRun 0 1] : List Instr).all (fun i =>
      ["NOP", "BA.RST", "CL.CLR", "CL.SCAN", "XF.CFG", "HT.BUILD", "QT.LOAD", "XF.DQ", "XF.IDCT", "XF.RUN"].contains i.mnemonic &&
        after (exec i repeatable) (fun t => t.status.fault) == some false) = true := by decide +kernel

theorem witness_StepKeepsTheInvariant : ∃ s t : State, s.Inv ∧ step s = .next t ∧ t.inputs ≠ s.inputs :=
  ⟨_, _, loaded_inv [0x95] ⟨0, 0, 0, 0⟩ (Vector.replicate 64 0) #v[0, 0, 0, 0] 0 [cmdWrite 0x10000000] (by decide) (idle_stream_inv _)
    (by decide), rfl, by decide +kernel⟩

theorem witness_SourceIsFixedForTheSession :
    (∃ t, step { idle [1] with inputs := [.bind [2]] } = .next t ∧ t.src = [1]) ∧
    ∃ t, step { idle [1] with nextSrc := [2], inputs := [.reset] } = .next t ∧ t.src = [2] := ⟨⟨_, rfl, rfl⟩, ⟨_, rfl, rfl⟩⟩

theorem witness_WindowReadsTheRegisters : sample.status.fault = false := rfl

theorem witness_WindowRefusesOtherAccesses :
    (¬ listedOffset 0x050 ∧ ¬ listedOffset 0x0FC ∧ ¬ listedOffset 0x340 ∧ ¬ listedOffset 0x3FC ∧ ¬ listedOffset 0x600 ∧ ¬ listedOffset 0x002) ∧
    listedOffset 0x000 ∧ listedOffset 0x04C ∧ listedOffset 0x100 ∧ listedOffset 0x33C ∧ listedOffset 0x400 ∧ listedOffset 0x5FC := by
  unfold listedOffset; omega

theorem witness_HostWritesStoreTheirValue : (idle []).pram.wf ∧ (idle []).status.fault = false ∧
    (listedOffset 0x04C ∧ ¬ (0x100 ≤ 0x04C ∧ 0x04C ≤ 0x1FC) ∧ ¬ (0x400 ≤ 0x04C ∧ 0x04C ≤ 0x5FC)) ∧ listedOffset 0x200 := by
  refine ⟨idle_pram_wf [], rfl, ?_⟩; unfold listedOffset; omega

theorem witness_FaultedReads : faulted.status.fault = true ∧ listedOffset 0x008 ∧ listedOffset 0x000 ∧ listedOffset 0x5FC := by
  refine ⟨rfl, ?_⟩; unfold listedOffset; omega

theorem witness_BsRdbReadsOneRawByte : (idle [5]).status.fault = false ∧ (idle [5]).src[(idle [5]).stream.pos]? = some 5 ∧
    (idle []).src.length ≤ (idle []).stream.pos := by decide

theorem witness_BsUnrdReturnsTheOvershoot :
    let s : State := { idle [0x12] with stream := ⟨1, 1, 0x12, 8⟩ }
    let u : State := { idle [0x12] with stream := ⟨1, 1, 0x12, 7⟩ }
    s.status.fault = false ∧ s.stream.nunrd ≠ 0 ∧ 8 ≤ s.stream.cnt ∧ u.stream.nunrd ≠ 0 ∧ u.stream.cnt < 8 ∧ (idle []).stream.nunrd = 0 := by
  decide

theorem witness_BsRdxFillsPram : (idle []).pram.wf ∧ (idle []).status.fault = false ∧
    (idle (List.replicate 512 7)).stream.pos + 512 ≤ (idle (List.replicate 512 7)).src.length ∧
    (idle (List.replicate 511 7)).src.length < (idle (List.replicate 511 7)).stream.pos + 512 := by
  exact ⟨idle_pram_wf [], rfl, by decide +kernel, by decide +kernel⟩

theorem witness_BsSkipAdvances : (idle [1]).status.fault = false ∧ (idle [1]).stream.pos + 1 ≤ (idle [1]).src.length ∧
    (idle [1]).src.length < (idle [1]).stream.pos + 2 := by decide

theorem witness_BaEnsPullsStuffedBytes :
    (loaded []).status.fault = false ∧ (idle [0x12]).stream.cnt < 1 ∧ 1 ≤ 16 ∧
    16 ≤ ({ idle [] with stream := ⟨0, 0, 0xFFFF, 16⟩ } : State).stream.cnt ∧
    (idle [0x12]).src[0]? = some 0x12 ∧ (0x12 : Byte) ≠ 0xFF ∧
    ((idle [0xFF, 0x00]).src[0]? = some 0xFF ∧ (idle [0xFF, 0x00]).src[1]? = some 0x00) ∧
    ((idle [0xFF, 0xD9]).src[0]? = some 0xFF ∧ (idle [0xFF, 0xD9]).src[1]? = some 0xD9) ∧
    (idle []).src[0]? = none ∧ (idle [0xFF]).src[0]? = some 0xFF ∧ (idle [0xFF]).src[1]? = none := by decide

theorem witness_BitReadsFromTheAccumulator :
    (idle [0xA5, 0x5A]).status.fault = false ∧
    (∃ u, exec (.baEns 1) (idle [0xA5]) = .next u ∧ u.status.fault = false) ∧
    (∃ u, exec (.baEns 16) (idle [0xA5]) = .next u ∧ u.status.fault = true) ∧
    (∃ u, exec (.baRdbits 16) (idle [0xA5, 0x5A]) = .next u ∧ u.status.fault = false) ∧
    ∃ u, exec (.baRdbits 1) (idle []) = .next u ∧ u.status.fault = true :=
  ⟨rfl, ⟨_, rfl, by decide +kernel⟩, ⟨_, rfl, by decide +kernel⟩, ⟨_, rfl, by decide +kernel⟩, ⟨_, rfl, by decide +kernel⟩⟩

theorem witness_BitReadsServeTheDestuffedStream :
    (loaded [0xA5, 0xFF, 0x00]).Inv ∧ 16 ≤ (pending (loaded [0xA5, 0xFF, 0x00]).src (loaded [0xA5, 0xFF, 0x00]).stream).length ∧
    (loaded [0xFF, 0xD9]).Inv ∧ (pending (loaded [0xFF, 0xD9]).src (loaded [0xFF, 0xD9]).stream).length < 1 :=
  ⟨loaded_inv' _ (by decide), by decide, loaded_inv' _ (by decide), by decide⟩

theorem witness_BaRstEmptiesTheAccumulator : fieldOf 0x24000000 31 24 = 0x24 ∧ (idle []).status.fault = false := by decide

theorem witness_HtBuildMakesTheCanonicalTable :
    let legal := [0, 1, 5, 1, 1, 1, 1, 1, 1, 0, 0, 0, 0, 0, 0, 0]
    (legal.sum ≠ 0 ∧ legal.sum ≤ 256 ∧ overfull legal 1 0 = false) ∧ overfull [1, 2, 1] 1 0 = true ∧
    overfull [0, 0, 0, 0, 0, 0, 0, 255, 1, 0, 0, 0, 0, 0, 0, 0] 1 0 = false ∧
    (List.range 16).map (fun i => ((withPram [0, 1, 5, 1, 1, 1, 1, 1, 1] (idle [])).pram.byte i).toNat) = legal := by decide +kernel

theorem witness_BuiltTablesAreConsistent : tdc.built ∧ tac.built := ⟨tdc_built, tac_built⟩

theorem witness_BuiltCodesArePrefixFree :
    tdc.built ∧ tdc.counts[2] ≠ 0 ∧ tdc.minCode[2] ≤ (6 : Int) ∧ (6 : Int) ≤ tdc.maxCode[2] ∧ (6 : Int) / 2 ^ (2 - 2) = 6 :=
  ⟨tdc_built, by decide +kernel⟩

theorem witness_HtDecServesOneCode :
    (loaded [0xFF, 0x00, 0x12]).status.fault = false ∧ (loaded [0xFF, 0x00, 0x12]).Inv ∧ tdc.nCodes ≠ 0 ∧ (loaded []).ht[0][0].nCodes ≠ 0 ∧
    (loaded []).ht[1][3].nCodes = 0 ∧
    (symbol .unexpectedEndOfStream tdc (pending [0xFF, 0x00, 0x12] ⟨0, 0, 0, 0⟩) matches .ok (11, _)) = true ∧
    (symbol .unexpectedEndOfStream tdc (pending [0xFF, 0x00, 0xFF, 0x00] ⟨0, 0, 0, 0⟩) matches .error .badHuffmanCode) = true ∧
    (symbol .unexpectedEndOfStream tdc (pending [0xFF, 0x00] ⟨0, 0, 0, 0⟩) matches .error .unexpectedEndOfStream) = true :=
  ⟨rfl, loaded_inv' _ (by decide), by decide +kernel, by decide +kernel, rfl, by decide +kernel, by decide +kernel, by decide +kernel⟩

theorem witness_HtDecReturnsTheEmittedSymbol :
    (loaded [0xFF, 0x00, 0x12]).Inv ∧ tdc.nCodes ≠ 0 ∧
    (0 < tdc.counts[8].toNat ∧ natBits 9 (tdc.minCode[8].toNat + 0) <+: pending [0xFF, 0x00, 0x12] ⟨0, 0, 0, 0⟩) ∧
    (4 < tdc.counts[2].toNat ∧ natBits 3 (tdc.minCode[2].toNat + 4) <+: pending [0xDF] ⟨0, 0, 0, 0⟩) :=
  ⟨loaded_inv' _ (by decide), by decide +kernel, by decide +kernel, by decide +kernel⟩

theorem witness_ClClrClearsTheBlock : fieldOf 0x40000000 31 24 = 0x40 ∧ sample.status.fault = false := by decide

theorem witness_ClScanStartsAScan : fieldOf 0x47000000 31 24 = 0x47 ∧ sample.status.fault = false := by decide

theorem witness_ClRstmTakesTheExpectedMarker :
    ((idle [0xFF, 0xD0]).status.fault = false ∧ (idle [0xFF, 0xD0]).src[0]? = some 0xFF ∧
      (idle [0xFF, 0xD0]).src[1]? = some (0xD0 + BitVec.ofNat 8 (idle [0xFF, 0xD0]).rstexp.val)) ∧
    (let s : State := { idle [0xFF, 0xD7, 0x12] with rstexp := 7, stream := ⟨3, 1, 0x12, 8⟩ };
      s.stream.nunrd ≠ 0 ∧ 8 ≤ s.stream.cnt ∧ s.src[s.stream.pos - s.stream.nunrd.val]? = some 0x12) ∧
    ((idle [0xFF, 0xD1]).src[1]? = some 0xD1 ∧ (0xD1 : Byte) ≠ 0xD0 + BitVec.ofNat 8 (idle [0xFF, 0xD1]).rstexp.val) ∧
    (idle [0xFF]).src.length ≤ 0 + 1 := by decide

theorem witness_ClBlkDecodesABaselineBlock :
    (loaded [0x95, 0xC6, 0x5C, 0x68, 0x77]).status.fault = false ∧ (loaded [0x95, 0xC6, 0x5C, 0x68, 0x77]).Inv ∧
    (block .unexpectedEndOfStream tdc tac 0 (pending [0x95, 0xC6, 0x5C, 0x68, 0x77] ⟨0, 0, 0, 0⟩) matches .ok ((5, _), _)) = true ∧
    (block .unexpectedEndOfStream tdc tac 0 (pending [0x33, 0x33, 0x3F] ⟨0, 0, 0, 0⟩) matches .error .coefficientOverrun) = true :=
  ⟨rfl, loaded_inv' _ (by decide), by decide +kernel, by decide +kernel⟩

theorem witness_ClDcfAccumulatesTheDifference :
    (∃ u, exec (.htDec 0 0) (loaded [0x95, 0x97]) = .next u ∧ u.status.fault = false ∧ u.result.toNat ≤ 16 ∧
      ∃ v, exec (.baRcvx u.result.toNat) u = .next v ∧ v.status.fault = false) ∧
    (∃ u, exec (.htDec 0 0) (loaded [0xFE]) = .next u ∧ u.status.fault = false ∧
      ∃ v, exec (.baRcvx u.result.toNat) u = .next v ∧ v.status.fault = true) ∧
    (∃ u, exec (.htDec 0 0) (loaded []) = .next u ∧ u.status.fault = true) ∧
    ∃ u, exec (.htDec 0 0) ((idle [0x00]).setTable 0 0 bigSizes) = .next u ∧ u.status.fault = false ∧ 16 < u.result.toNat :=
  ⟨⟨_, rfl, by decide +kernel, by decide +kernel, _, rfl, by decide +kernel⟩, ⟨_, rfl, by decide +kernel, _, rfl, by decide +kernel⟩,
    ⟨_, rfl, by decide +kernel⟩, ⟨_, rfl, by decide +kernel, by decide +kernel⟩⟩

theorem witness_DcCommandsComplete :
    (loaded [0x95, 0x97]).status.fault = false ∧ (loaded [0x95, 0x97]).Inv ∧
    (dcDiff .unexpectedEndOfStream tdc (pending [0x95, 0x97] ⟨0, 0, 0, 0⟩) matches .ok (5, _)) = true ∧
    (dcDiff .unexpectedEndOfStream tdc (pending [] ⟨0, 0, 0, 0⟩) matches .error .unexpectedEndOfStream) = true ∧
    (pending [0x95, 0x97] ⟨0, 0, 0, 0⟩).head? = some true :=
  ⟨rfl, loaded_inv' _ (by decide), by decide +kernel, by decide +kernel, by decide⟩

theorem witness_ClDcrSetsOneBit : (idle [0x80]).status.fault = false ∧ 13 < 14 ∧
    (∃ u, exec .baRdbit (idle [0x80]) = .next u ∧ u.status.fault = false) ∧ ∃ u, exec .baRdbit (idle []) = .next u ∧ u.status.fault = true :=
  ⟨rfl, by decide, ⟨_, rfl, by decide +kernel⟩, ⟨_, rfl, by decide +kernel⟩⟩

theorem witness_ClAcfDecodesABand :
    (loaded [0x7A, 0xED, 0x0F]).Inv ∧ (loaded [0x7A, 0xED, 0x0F]).eobrun = 0 ∧ ({ loaded [] with eobrun := 5 } : State).eobrun ≠ 0 ∧
    (bandFirst .unexpectedEndOfStream tac 5 1 64 1 (Vector.replicate 64 0) (pending [0x7A, 0xED, 0x0F] ⟨0, 0, 0, 0⟩)
      matches .ok ((_, 2), _)) = true ∧
    (bandFirst .unexpectedEndOfStream tac 3 0 64 1 (Vector.replicate 64 0) (pending [0x99] ⟨0, 0, 0, 0⟩)
      matches .error .coefficientOverrun) = true ∧
    (bandFirst .unexpectedEndOfStream tac 63 13 64 63 (Vector.replicate 64 0) (pending [0x7A] ⟨0, 0, 0, 0⟩) matches .ok _) = true :=
  ⟨loaded_inv' _ (by decide), rfl, by decide, by decide +kernel, by decide +kernel, by decide +kernel⟩

theorem witness_ClAcrRefinesABand :
    ({ loaded [0x99, 0xE3, 0x7F] with
        stream := ⟨0, 0, 0, 0⟩, coef := (withCoef [(1, 2), (9, -2)] (idle [])).coef, dcpred := #v[0, 0, 0, 0], eobrun := 1
        inputs := [] } : State).Inv ∧
    (blockRefine .unexpectedEndOfStream tac 1 5 0 0 (withCoef [(1, 2), (9, -2)] (idle [])).coef (pending [0x99, 0xE3, 0x7F] ⟨0, 0, 0, 0⟩)
      matches .ok ((_, 0), _)) = true ∧
    (blockRefine .unexpectedEndOfStream tac 1 5 0 1 (withCoef [(1, 2), (9, -2)] (idle [])).coef (pending [0x99, 0xE3, 0x7F] ⟨0, 0, 0, 0⟩)
      matches .ok ((_, 0), _)) = true ∧
    (blockRefine .unexpectedEndOfStream tac 1 20 2 0 (Vector.replicate 64 0) (pending [0xBF] ⟨0, 0, 0, 0⟩)
      matches .error .badRefinementSymbol) = true :=
  ⟨loaded_inv _ _ _ _ _ _ (by decide) (idle_stream_inv _) (by decide), by decide +kernel, by decide +kernel, by decide +kernel⟩

theorem witness_ProgressiveCommandsStayInTheirBand :
    (loaded [0x95, 0x97]).status.fault = false ∧
    (∃ t, exec (.clDcf 0 0 2) (loaded [0x95, 0x97]) = .next t ∧ t.status.fault = false) ∧
    (∃ t, exec (.clDcr 13) (loaded [0x95, 0x97]) = .next t ∧ t.status.fault = false) ∧
    (∃ t, exec (.clAcf 0 1 5 1) (loaded [0x7A, 0xED, 0x0F]) = .next t ∧ t.status.fault = false) ∧
    (∃ t, exec (.clAcr 0 63 63 0) (loaded [0x00]) = .next t ∧ t.status.fault = false) ∧ ((0 : Fin 64).val < 1 ∧ 5 < (6 : Fin 64).val) :=
  ⟨rfl, ⟨_, rfl, by decide +kernel⟩, ⟨_, rfl, by decide +kernel⟩, ⟨_, rfl, by decide +kernel⟩, ⟨_, rfl, by decide +kernel⟩, by decide⟩

theorem witness_QtLoadReadsPram : fieldOf 0x50000012 31 24 = 0x50 ∧ (idle []).status.fault = false ∧ (1 < 2 ∨ 3 < 0) ∧ 1 ≤ 1 := by decide

theorem witness_XfCfgSelectsTheVariant : fieldOf 0x51000305 31 24 = 0x51 ∧ (idle []).status.fault = false ∧ 5 < 6 ∧ 5 ≤ 5 := by decide

theorem witness_XfDqDequantizes : fieldOf 0x52000001 31 24 = 0x52 ∧ sample.status.fault = false ∧ sample.qtdef[1] = true ∧
    sample.qtdef[0] = false ∧ 3 < 4 := by decide

theorem witness_ZigZagWalksTheAntiDiagonals : (unzig 0).val = 0 ∧ (unzig 62).val = 62 := by decide

theorem witness_XfIdctTransforms :
    sample.status.fault = false ∧ sample.dqtag.valid = false ∧
    (let s : State := { sample with dqtag := ⟨true, .scaled⟩ }; s.dqtag.valid = true ∧ s.dqtag.kind ≠ s.xcfg[0].kind) ∧
    (let s : State := { sample with dqtag := ⟨true, .scaled⟩, xcfg := #v[.acc, .fast, .flt, .red4] }; s.dqtag.kind = s.xcfg[1].kind) ∧
    (let s : State := { sample with dqtag := ⟨true, .float⟩, xcfg := #v[.acc, .fast, .flt, .red4] }; s.dqtag.kind = s.xcfg[2].kind) ∧
    let s : State := { sample with dqtag := ⟨true, .plain⟩, xcfg := #v[.acc, .red1, .red2, .red4] }
    s.dqtag.kind = s.xcfg[0].kind ∧ s.dqtag.kind = s.xcfg[1].kind ∧ s.dqtag.kind = s.xcfg[2].kind ∧ s.dqtag.kind = s.xcfg[3].kind := by
  decide

theorem witness_XfRunIsDqThenIdct : sample.status.fault = false ∧
    (∃ u, exec (.xfDq 0 1) sample = .next u ∧ u.status.fault = false) ∧ ∃ u, exec (.xfDq 0 0) sample = .next u ∧ u.status.fault = true :=
  ⟨rfl, ⟨_, rfl, by decide +kernel⟩, ⟨_, rfl, by decide +kernel⟩⟩

theorem witness_XfRunCompletes : sample.status.fault = false ∧ sample.qtdef[1] = true := by decide

theorem witness_RangeLimitClamps :
    (BitVec.ofInt 32 (-129)).toInt + 128 < 0 ∧ 255 < (128 : Word).toInt + 128 ∧ 0 ≤ (BitVec.ofInt 32 (-128)).toInt + 128 ∧
    (127 : Word).toInt + 128 ≤ 255 := by decide

theorem witness_DcOnlyBlocksAreFlat :
    let s : State := { idle [] with
      dqtag := ⟨true, .float⟩, xcfg := #v[.flt, .acc, .acc, .acc], dqb := (Vector.replicate 64 (0 : Word)).set 0 0x42A00000 }
    s.status.fault = false ∧ s.dqtag.valid = true ∧ s.dqtag.kind = s.xcfg[0].kind ∧ (∀ n : Fin 64, n ≠ 0 → s.dqb[n] = 0) ∧
    F32.finite s.dqb[0] = true := by decide +kernel

theorem witness_ShortFormsEqualTheKernels :
    -2 ^ 18 ≤ (BitVec.ofInt 32 (-2 ^ 18)).toInt ∧ (BitVec.ofInt 32 (2 ^ 18 - 17)).toInt + 16 < 2 ^ 18 ∧
    -2 ^ 17 ≤ (BitVec.ofInt 32 (-2 ^ 17)).toInt ∧ (BitVec.ofInt 32 (2 ^ 17 - 17)).toInt + 16 < 2 ^ 17 ∧
    -2 ^ 16 ≤ (BitVec.ofInt 32 (-2 ^ 16)).toInt ∧ (BitVec.ofInt 32 (2 ^ 16 - 17)).toInt + 16 < 2 ^ 16 := by decide

/-- Two blocks that differ, but only in row 4 and column 4. -/
theorem witness_ReducedVariantsIgnoreTheUnusedTerms :
    let b : Vector Word 64 := Vector.replicate 64 0
    let b' : Vector Word 64 := (b.set 4 7).set 32 9
    b ≠ b' ∧ (∀ r c : Fin 8, r ≠ 4 → c ≠ 4 → b[8 * r.val + c.val] = b'[8 * r.val + c.val]) ∧
    ∀ r c : Fin 8, r ∉ [2, 4, 6] → c ∉ [2, 4, 6] → b[8 * r.val + c.val] = b'[8 * r.val + c.val] := by decide +kernel

theorem witness_RoundingIsToNearestEven :
    F32.roundMagnitude (3 * 2 ^ 148) = some 2 ∧ F32.roundMagnitude (2 ^ 148) = some 0 ∧ F32.roundMagnitude (2 ^ 298) = some 0x3F800000 ∧
    F32.roundMagnitude ((2 ^ 25 - 1) * 2 ^ 401 - 1) = some 0x7F7FFFFF ∧ F32.roundMagnitude ((2 ^ 25 - 1) * 2 ^ 401) = none := by
  decide +kernel

theorem witness_BinaryOperationsRoundTheExactResult :
    F32.finite 0x3F800000 = true ∧ F32.finite 0x7F7FFFFF = true ∧
    (F32.roundMagnitude ((F32.units 0x3F800000 + F32.units 0xBF800000).natAbs * 2 ^ 149) = some 0) ∧
    (F32.roundMagnitude ((F32.units 0x3F800000 - F32.units 0xBF800000).natAbs * 2 ^ 149) = some 0x40000000) ∧
    F32.roundMagnitude (F32.units 0x3F800000 * F32.units 0xBF800000).natAbs = some 0x3F800000 := by decide +kernel

end Sys2Proof.Tests
end

section
/-! The zig-zag order of R10. -/

namespace Sys2Proof.Machine

@[simp] theorem unzig_zigPos : ∀ n : Fin 64, unzig (zigPos n).val = n := by decide

@[simp] theorem zigPos_unzig : ∀ z : Fin 64, zigPos (unzig z.val) = z := by decide

/-- Settles O51: UNZIG and its inverse are tables of 64 entries, and each of the 63 walks to the next position is looked up. -/
theorem zigZagWalksTheAntiDiagonals : Obligations.ZigZagWalksTheAntiDiagonals := by
  refine ⟨by decide, by decide, unzig_zigPos, zigPos_unzig, ?_⟩
  decide

end Sys2Proof.Machine
end

section
/-! The binary32 patterns in the order of their values, and the rounding of R11 as a choice between the two patterns around the exact magnitude. -/

namespace Sys2Proof.Reference

/-- The pattern `e * 2^23 + m` has the value of `m` last places `2^(e + 149)`. With `m = 2^24` the significand carries into the exponent field, and
the value is the same. -/
theorem magnitude_pattern {e m : Nat} (hm : m ≤ 2 ^ 24) (he : e = 0 ∨ 2 ^ 23 ≤ m) :
    magnitude (e * 2 ^ 23 + m) = m * 2 ^ (e + 149) := by
  unfold magnitude
  rw [pow_add, ← mul_assoc]
  congr 1
  obtain h | h | h : m < 2 ^ 23 ∨ 2 ^ 23 ≤ m ∧ m < 2 ^ 24 ∨ m = 2 ^ 24 := by omega
  · obtain rfl : e = 0 := by omega
    have hd : (0 * 2 ^ 23 + m) / 2 ^ 23 = 0 := by omega
    have hr : (0 * 2 ^ 23 + m) % 2 ^ 23 = m := by omega
    rw [hd, hr, if_pos rfl]
  · have hd : (e * 2 ^ 23 + m) / 2 ^ 23 = e + 1 := by omega
    have hr : (e * 2 ^ 23 + m) % 2 ^ 23 + 2 ^ 23 = m := by omega
    rw [hd, hr, if_neg (by omega), Nat.add_sub_cancel]
  · have hd : (e * 2 ^ 23 + m) / 2 ^ 23 = e + 2 := by omega
    have hr : (e * 2 ^ 23 + m) % 2 ^ 23 = 0 := by omega
    rw [hd, hr, if_neg (by omega), h, show e + 2 - 1 = e + 1 from rfl]
    ring

/-- Every pattern has the form of `magnitude_pattern`. -/
theorem exists_pattern_form (p : Nat) : ∃ e m, p = e * 2 ^ 23 + m ∧ m < 2 ^ 24 ∧ (e = 0 ∨ 2 ^ 23 ≤ m) := by
  rcases Nat.lt_or_ge p (2 ^ 23) with h | h
  · exact ⟨0, p, by omega, by omega, .inl rfl⟩
  · exact ⟨p / 2 ^ 23 - 1, p % 2 ^ 23 + 2 ^ 23, by omega, by omega, .inr (by omega)⟩

theorem magnitude_strictMono : StrictMono magnitude := by
  refine strictMono_nat_of_lt_succ fun p => ?_
  obtain ⟨e, m, rfl, hm, he⟩ := exists_pattern_form p
  rw [Nat.add_assoc, magnitude_pattern (by omega) he, magnitude_pattern (by omega) (by omega)]
  exact Nat.mul_lt_mul_of_pos_right (by omega) (by positivity)

/-- The greatest finite value. -/
theorem magnitude_greatestFinite : magnitude 0x7F7FFFFF = (2 ^ 25 - 2) * 2 ^ 401 := by
  rw [show 0x7F7FFFFF = 253 * 2 ^ 23 + (2 ^ 24 - 1) by decide, magnitude_pattern (by decide) (.inr (by decide)),
    show 253 + 149 = 401 + 1 by decide, pow_succ]
  omega

/-- The value the next pattern, that of infinity, would have as a finite one. -/
theorem magnitude_greatestFinite_succ : magnitude (0x7F7FFFFF + 1) = 2 ^ 25 * 2 ^ 401 := by
  rw [show 0x7F7FFFFF + 1 = 253 * 2 ^ 23 + 2 ^ 24 by decide, magnitude_pattern (by decide) (.inr (by decide)),
    show 253 + 149 = 401 + 1 by decide, pow_succ]
  omega

/-! ### The nearest pattern -/

/-- The exact magnitude is in the upper half of the gap above pattern `P`, or in its middle and `P` is odd. -/
def roundsUp (n P : Nat) : Prop :=
  magnitude (P + 1) - n < n - magnitude P ∨ magnitude (P + 1) - n = n - magnitude P ∧ P % 2 = 1

/-- `p` is the one of the two patterns `P` and `P + 1` around `n` that is nearer to it, the even one at equal distances. -/
def NearestOfTwo (n P p : Nat) : Prop :=
  magnitude P ≤ n ∧ n < magnitude (P + 1) ∧ (p = P ∧ ¬ roundsUp n P ∨ p = P + 1 ∧ roundsUp n P)

/-- The nearer of the two patterns around `n` is nearest among all patterns, and no other odd one is as near. -/
theorem NearestOfTwo.nearest {n P p : Nat} (h : NearestOfTwo n P p) (q : Nat) :
    distance n (magnitude p) ≤ distance n (magnitude q) ∧ (q ≠ p → distance n (magnitude p) = distance n (magnitude q) → p % 2 = 0) := by
  obtain ⟨hlo, hhi, hp⟩ := h
  unfold roundsUp at hp
  unfold distance
  obtain hq | rfl | rfl | hq : q < P ∨ q = P ∨ q = P + 1 ∨ P + 1 < q := by omega
  · have := magnitude_strictMono hq
    obtain ⟨rfl, h⟩ | ⟨rfl, h⟩ := hp <;> omega
  · obtain ⟨rfl, h⟩ | ⟨rfl, h⟩ := hp <;> omega
  · obtain ⟨rfl, h⟩ | ⟨rfl, h⟩ := hp <;> omega
  · have := magnitude_strictMono hq
    obtain ⟨rfl, h⟩ | ⟨rfl, h⟩ := hp <;> omega

/-- The nearer pattern is finite exactly below the midpoint of the greatest finite value and the next one, whose pattern would be even. -/
theorem NearestOfTwo.lt_infinity_iff {n P p : Nat} (h : NearestOfTwo n P p) : p < 0x7F800000 ↔ n < (2 ^ 25 - 1) * 2 ^ 401 := by
  obtain ⟨hlo, hhi, hp⟩ := h
  unfold roundsUp at hp
  have hT : 0 < 2 ^ 401 := by positivity
  have hM := magnitude_greatestFinite
  have hI := magnitude_greatestFinite_succ
  generalize 2 ^ 401 = T at *
  obtain hP | rfl | hP : P + 1 ≤ 0x7F7FFFFF ∨ P = 0x7F7FFFFF ∨ 0x7F7FFFFF + 1 ≤ P := by omega
  · have := magnitude_strictMono.monotone hP
    omega
  · omega
  · have := magnitude_strictMono.monotone hP
    omega

end Sys2Proof.Reference

namespace Sys2Proof.Machine.F32

open Sys2Proof.Reference

/-- The exponent of the last place kept, in units of 2^-298. -/
def lastPlace (n : Nat) : Nat := max 149 (Nat.log2 n - 23)

/-- The pattern of the magnitude cut to its last place. -/
def patternBelow (n : Nat) : Nat := (lastPlace n - 149) * 2 ^ 23 + n / 2 ^ lastPlace n

theorem le_lastPlace (n : Nat) : 149 ≤ lastPlace n := Nat.le_max_left ..

theorem cut_lt (n : Nat) : n / 2 ^ lastPlace n < 2 ^ 24 := by
  rw [Nat.div_lt_iff_lt_mul (by positivity), ← pow_add]
  exact Nat.lt_log2_self.trans_le (Nat.pow_le_pow_right (by decide) (by unfold lastPlace; omega))

/-- A cut magnitude has 24 significant bits, or its last place is the least one. -/
theorem lastPlace_eq_or_le_cut (n : Nat) : lastPlace n - 149 = 0 ∨ 2 ^ 23 ≤ n / 2 ^ lastPlace n := by
  rcases Nat.lt_or_ge 172 (Nat.log2 n) with h | h
  · right
    have hn : n ≠ 0 := by rintro rfl; simp at h
    rw [Nat.le_div_iff_mul_le (by positivity), ← pow_add]
    exact (Nat.pow_le_pow_right (by decide) (by unfold lastPlace; omega)).trans (Nat.log2_self_le hn)
  · left; unfold lastPlace; omega

theorem magnitude_patternBelow (n : Nat) : magnitude (patternBelow n) = n / 2 ^ lastPlace n * 2 ^ lastPlace n := by
  rw [patternBelow, magnitude_pattern (cut_lt n).le (lastPlace_eq_or_le_cut n), Nat.sub_add_cancel (le_lastPlace n)]

theorem magnitude_patternBelow_succ (n : Nat) :
    magnitude (patternBelow n + 1) = (n / 2 ^ lastPlace n + 1) * 2 ^ lastPlace n := by
  rw [patternBelow, Nat.add_assoc, magnitude_pattern (cut_lt n) ((lastPlace_eq_or_le_cut n).imp_right Nat.le_succ_of_le),
    Nat.sub_add_cancel (le_lastPlace n)]

/-- What is cut off, compared with half a last place, decides between the two patterns. -/
theorem roundsUp_patternBelow_iff (n : Nat) :
    roundsUp n (patternBelow n) ↔ 2 ^ (lastPlace n - 1) < n % 2 ^ lastPlace n ∨
      n % 2 ^ lastPlace n = 2 ^ (lastPlace n - 1) ∧ n / 2 ^ lastPlace n % 2 = 1 := by
  have hhalf : 2 ^ lastPlace n = 2 * 2 ^ (lastPlace n - 1) := by
    rw [← pow_succ', Nat.sub_add_cancel (le_trans (by decide) (le_lastPlace n))]
  have hodd : patternBelow n % 2 = n / 2 ^ lastPlace n % 2 := by unfold patternBelow; omega
  have hcut := Nat.div_add_mod' n (2 ^ lastPlace n)
  have hrest := Nat.mod_lt n (Nat.two_pow_pos (lastPlace n))
  rw [roundsUp, hodd, magnitude_patternBelow, magnitude_patternBelow_succ, Nat.succ_mul]
  omega

/-- What `roundMagnitude` does: of the two patterns around the magnitude it gives the nearer one, if that is finite. -/
theorem roundMagnitude_spec (n : Nat) :
    ∃ p, NearestOfTwo n (patternBelow n) p ∧ roundMagnitude n = if p < 0x7F800000 then some p else none := by
  have hlo : magnitude (patternBelow n) ≤ n := by
    rw [magnitude_patternBelow]
    exact Nat.div_mul_le_self ..
  have hhi : n < magnitude (patternBelow n + 1) := by
    rw [magnitude_patternBelow_succ, mul_comm]
    exact Nat.lt_mul_div_succ n (Nat.two_pow_pos _)
  have hup := roundsUp_patternBelow_iff n
  simp only [roundMagnitude, show max 149 (Nat.log2 n - 23) = lastPlace n from rfl, Nat.shiftRight_eq_div_pow, Nat.shiftLeft_eq, Nat.one_mul,
    ← Nat.mod_eq_sub_div_mul]
  by_cases h : roundsUp n (patternBelow n)
  · refine ⟨_, ⟨hlo, hhi, .inr ⟨rfl, h⟩⟩, ?_⟩
    rw [if_pos (c := (_ || _) = true) (by simpa using hup.mp h), ← Nat.add_assoc, ← patternBelow]
  · refine ⟨_, ⟨hlo, hhi, .inl ⟨rfl, h⟩⟩, ?_⟩
    rw [if_neg (c := (_ || _) = true) (by simpa using mt hup.mpr h), ← patternBelow]

/-- Settles O59: the nearer of the two patterns around the magnitude is the nearest of all, and is finite exactly below the midpoint past the
greatest finite value. -/
theorem roundingIsToNearestEven : Obligations.RoundingIsToNearestEven := by
  intro n
  obtain ⟨p, hp, hr⟩ := roundMagnitude_spec n
  rw [hr, ← hp.lt_infinity_iff]
  refine ⟨by simp, fun p' h => ?_⟩
  obtain ⟨hlt, rfl⟩ : p < 0x7F800000 ∧ p = p' := by simpa using h
  exact ⟨hlt, fun q _ => hp.nearest q⟩

end Sys2Proof.Machine.F32
end

section
/-! The binary32 operations of R11 on finite operands: sign, magnitude and exact result of each. -/

namespace Sys2Proof.Machine.F32

open Sys2Proof.Reference

/-! ### Signed rounding -/

/-- A rounded pattern leaves the sign bit free. -/
theorem roundMagnitude_lt {n p : Nat} (h : roundMagnitude n = some p) : p < 2 ^ 31 :=
  ((roundingIsToNearestEven n).2 p h).1.trans (by decide)

/-- `round` puts the sign above the rounded magnitude; no free value is involved. -/
theorem round_getD {n p : Nat} (h : roundMagnitude n = some p) (negative : Bool) (d : Word) :
    ((round negative n).getD d).toNat % 2 ^ 31 = p ∧ ((round negative n).getD d).msb = negative := by
  have hp := roundMagnitude_lt h
  cases negative <;> simp [round, h, BitVec.msb_eq_decide] <;> omega

/-! ### The exact value of a pattern -/

theorem units_eq (a : Word) : units a = if a.msb then -((mant a * 2 ^ scale a : Nat) : Int) else (mant a * 2 ^ scale a : Nat) := by
  simp only [units, Nat.shiftLeft_eq]

@[simp] theorem natAbs_units (a : Word) : (units a).natAbs = mant a * 2 ^ scale a := by
  rw [units_eq]
  split <;> simp only [Int.natAbs_neg, Int.natAbs_natCast]

theorem neg_toNat_mod (a : Word) : (neg a).toNat % 2 ^ 31 = a.toNat % 2 ^ 31 := by
  rw [neg, BitVec.toNat_xor, Nat.xor_mod_two_pow, show (0x80000000 : Word).toNat % 2 ^ 31 = 0 by decide, Nat.xor_zero]

@[simp] theorem msb_neg (a : Word) : (neg a).msb = !a.msb := by
  rw [neg, BitVec.msb_xor, show (0x80000000 : Word).msb = true by decide, Bool.xor_true]

/-- `neg` keeps the exponent field and the fraction field. -/
theorem expField_neg (a : Word) : expField (neg a) = expField a := by
  have := neg_toNat_mod a
  unfold expField
  omega

theorem fracField_neg (a : Word) : fracField (neg a) = fracField a := by
  have := neg_toNat_mod a
  unfold fracField
  omega

@[simp] theorem finite_neg (a : Word) : finite (neg a) = finite a := by
  simp only [finite, expField_neg]

@[simp] theorem units_neg (a : Word) : units (neg a) = -units a := by
  simp only [units, mant, scale, expField_neg, fracField_neg, msb_neg]
  cases a.msb <;> simp

/-! ### The operations -/

theorem add_rounds {a b : Word} (ha : finite a = true) (hb : finite b = true) {p : Nat}
    (h : roundMagnitude ((units a + units b).natAbs * 2 ^ 149) = some p) :
    (add a b).toNat % 2 ^ 31 = p ∧ (units a + units b ≠ 0 → (add a b).msb = decide (units a + units b < 0)) := by
  rw [← Nat.shiftLeft_eq] at h
  simp only [add, ha, hb, Bool.and_self, if_true]
  have hr := round_getD h
  exact ⟨(hr _ _).1, fun hne => by rw [(hr _ _).2, if_neg hne]⟩

theorem sub_rounds {a b : Word} (ha : finite a = true) (hb : finite b = true) {p : Nat}
    (h : roundMagnitude ((units a - units b).natAbs * 2 ^ 149) = some p) :
    (sub a b).toNat % 2 ^ 31 = p ∧ (units a - units b ≠ 0 → (sub a b).msb = decide (units a - units b < 0)) := by
  rw [sub_eq_add_neg, ← units_neg] at h ⊢
  exact add_rounds ha ((finite_neg b).trans hb) h

theorem mul_rounds {a b : Word} (ha : finite a = true) (hb : finite b = true) {p : Nat}
    (h : roundMagnitude (units a * units b).natAbs = some p) :
    (mul a b).toNat % 2 ^ 31 = p ∧ (mul a b).msb = (a.msb != b.msb) := by
  have hexact : (units a * units b).natAbs = (mant a * mant b) <<< (scale a + scale b) := by
    rw [Int.natAbs_mul, natAbs_units, natAbs_units, Nat.shiftLeft_eq, pow_add]
    ring
  rw [hexact] at h
  simp only [mul, ha, hb, Bool.and_self, if_true]
  exact round_getD h _ _

/-- Every i32 is far below the greatest finite value, so its rounding is in range. -/
theorem i2f_rounds (x : Word) :
    ∃ p, roundMagnitude (x.toInt.natAbs * 2 ^ 298) = some p ∧ (i2f x).toNat % 2 ^ 31 = p ∧ (i2f x).msb = x.msb := by
  have hx : x.toInt.natAbs ≤ 2 ^ 31 := by
    have := BitVec.le_toInt x
    have := BitVec.toInt_lt (x := x)
    omega
  have hrange : x.toInt.natAbs * 2 ^ 298 < (2 ^ 25 - 1) * 2 ^ 401 := by
    rw [show 401 = 103 + 298 by decide, pow_add, ← mul_assoc]
    exact Nat.mul_lt_mul_of_pos_right (by omega) (by positivity)
  obtain ⟨p, hp⟩ := (roundingIsToNearestEven _).1.mpr hrange
  have hshift : ∀ k, x.toInt.natAbs <<< k = x.toInt.natAbs * 2 ^ k := Nat.shiftLeft_eq _
  rw [← hshift] at hp ⊢
  obtain ⟨hm, hs⟩ := round_getD hp (decide (x.toInt < 0)) 0
  exact ⟨p, hp, hm, hs.trans BitVec.msb_eq_toInt.symm⟩

theorem trunc_eq_tdiv {a : Word} (ha : finite a = true) : trunc a = Int.tdiv (units a) (2 ^ 149) := by
  simp only [trunc, ha, if_true, units, Nat.shiftRight_eq_div_pow]
  have hcut : ((mant a <<< scale a / 2 ^ 149 : Nat) : Int) = Int.tdiv (mant a <<< scale a : Nat) (2 ^ 149) := by
    rw [Int.ofNat_tdiv]
    norm_cast
  split
  · rw [hcut, Int.neg_tdiv]
  · exact hcut

/-- Settles O60: each operation is one rounding of its exact result, with that result's sign. -/
theorem binaryOperationsRoundTheExactResult : Obligations.BinaryOperationsRoundTheExactResult := fun _ _ ha hb =>
  ⟨fun _ => add_rounds ha hb, fun _ => sub_rounds ha hb, fun _ => mul_rounds ha hb, i2f_rounds, trunc_eq_tdiv ha⟩

end Sys2Proof.Machine.F32
end

section
/-! The register window (R65): which accesses reach a register, and what a host load and store of a reached register can answer. -/

namespace Sys2Proof.Machine

/-! ### Which offsets have a register -/

theorem indexedReg_eq_none_iff {base n off : Nat} : indexedReg base n off = none ↔ ¬ (base ≤ off ∧ (off - base) / 4 < n) := by
  simp [indexedReg]

theorem namedReg_eq_none_iff {off : Nat} (h : off % 4 = 0) : namedReg off = none ↔ 0x02C < off := by
  unfold namedReg
  split
  case h_13 => -- the default row: none of the twelve offsets
    simp only [imp_false] at *
    simp only [true_iff]
    omega
  all_goals simp

/-- The unmapped aligned offsets are those R40 does not list. -/
theorem regAt_eq_none_iff {off : Nat} (h : off % 4 = 0) : regAt off = none ↔ ¬ listedOffset off := by
  simp only [regAt, Option.orElse_eq_orElse, Option.orElse_eq_or, Option.or_eq_none_iff, Option.map_eq_none_iff, indexedReg_eq_none_iff,
    namedReg_eq_none_iff h, listedOffset]
  omega

/-- R65: an access reaches no register exactly when it is not 32 bits wide at a listed offset. -/
theorem accessed_eq_none_iff {off size : Nat} : accessed off size = none ↔ size ≠ 4 ∨ ¬ listedOffset off := by
  by_cases h : size = 4 ∧ off % 4 = 0
  · rw [accessed, if_pos h, regAt_eq_none_iff h.2]
    simp [h.1]
  · rw [accessed, if_neg h]
    simp only [listedOffset]
    tauto

/-! ### What a host access answers -/

theorem hostRead_of_accessed_none {off size : Nat} (h : accessed off size = none) (s : State) :
    hostRead off size s = .refused .windowAccess := by
  simp only [hostRead, h]

theorem hostWrite_of_accessed_none {off size : Nat} (h : accessed off size = none) (d : Word) (s : State) :
    hostWrite off size d s = .refused .windowAccess := by
  simp only [hostWrite, h]

/-- A load of a register is answered, whether FAULT is set or not. -/
theorem hostRead_next_of_accessed {off size : Nat} {r : Reg} (h : accessed off size = some r) (s : State) :
    ∃ t, hostRead off size s = .next t := by
  simp only [hostRead, h]
  split <;> exact ⟨_, rfl⟩

/-- Every decoded command has a next state. -/
theorem exec_next (i : Instr) (s : State) : ∃ t, exec i s = .next t := by
  by_cases hi : i = .ssInit
  · subst hi
    exact ⟨s.restart, rfl⟩
  · obtain ⟨body, hbody, -⟩ := exec_touches hi
    exact ⟨_, hbody s⟩

/-- A write to CMD is refused while BUSY = 1 and has a next state otherwise. -/
theorem issue_refused_or_next (w : Word) (s : State) :
    (s.status.busy = true ∧ issue w s = .refused .cmdWhileBusy) ∨ (s.status.busy = false ∧ ∃ t, issue w s = .next t) := by
  cases hb : s.status.busy with
  | true => exact .inl ⟨rfl, by simp [issue, hb]⟩
  | false =>
    refine .inr ⟨rfl, ?_⟩
    simp only [issue, hb, Bool.false_eq_true, if_false]
    split
    · exact ⟨s, rfl⟩
    · split
      · exact exec_next ..
      · exact ⟨_, rfl⟩

/-- A store to a register is a write to CMD or has a next state. -/
theorem hostWrite_of_accessed {off size : Nat} {r : Reg} (h : accessed off size = some r) (d : Word) (s : State) :
    hostWrite off size d s = issue d s ∨ ∃ t, hostWrite off size d s = .next t := by
  simp only [hostWrite, h]
  cases r with
  | cmd => exact .inl rfl
  | coef n => right; dsimp only; split <;> exact ⟨_, rfl⟩
  | pram k => right; dsimp only; split <;> exact ⟨_, rfl⟩
  | _ => exact .inr ⟨s, rfl⟩

theorem hostWrite_ne_windowAccess {off size : Nat} {r : Reg} (h : accessed off size = some r) (d : Word) (s : State) :
    hostWrite off size d s ≠ .refused .windowAccess := by
  rcases hostWrite_of_accessed h d s with hw | ⟨t, hw⟩
  · rcases issue_refused_or_next d s with ⟨-, hi⟩ | ⟨-, t, hi⟩ <;> simp [hw, hi]
  · simp [hw]

/-- Settles O21: an access reaches a register exactly when it is 32 bits wide at a listed offset; only one that reaches none is refused as a
window access. -/
theorem windowRefusesOtherAccesses : Obligations.WindowRefusesOtherAccesses := by
  intro off size d s
  rw [← accessed_eq_none_iff]
  refine ⟨fun h => ⟨hostRead_of_accessed_none h s, hostWrite_of_accessed_none h d s⟩, fun hsize hlisted => ?_⟩
  obtain ⟨r, hr⟩ : ∃ r, accessed off size = some r :=
    Option.ne_none_iff_exists'.mp fun h => (accessed_eq_none_iff.mp h).elim (· hsize) (· hlisted)
  exact ⟨hostRead_next_of_accessed hr s, hostWrite_ne_windowAccess hr d s⟩

end Sys2Proof.Machine
end

section
/-! The encoding of `30_encoding.md` R80 to R83: what each format makes of a word, and that a word it accepts is the encoding of its command. -/

namespace Sys2Proof.Machine

/-- Settles O1: the commands' round trips, put together. -/
theorem decodeEncodeRoundTrip : Obligations.DecodeEncodeRoundTrip := by
  intro i
  cases i with
  | nop => exact Laws.RoundTrip.nop
  | ssInit => exact Laws.RoundTrip.ssInit
  | bsRdb => exact Laws.RoundTrip.bsRdb
  | bsUnrd => exact Laws.RoundTrip.bsUnrd
  | bsRdx n => exact Laws.RoundTrip.bsRdx n
  | bsSkip n => exact Laws.RoundTrip.bsSkip n
  | baEns n => exact Laws.RoundTrip.baEns n
  | baRdbit => exact Laws.RoundTrip.baRdbit
  | baRdbits n => exact Laws.RoundTrip.baRdbits n
  | baRcvx t => exact Laws.RoundTrip.baRcvx t
  | baRst => exact Laws.RoundTrip.baRst
  | htBuild tc th => exact Laws.RoundTrip.htBuild tc th
  | htDec tc th => exact Laws.RoundTrip.htDec tc th
  | clClr => exact Laws.RoundTrip.clClr
  | clBlk comp td ta => exact Laws.RoundTrip.clBlk comp td ta
  | clDcf comp slot al => exact Laws.RoundTrip.clDcf comp slot al
  | clDcr al => exact Laws.RoundTrip.clDcr al
  | clAcf slot ss se al => exact Laws.RoundTrip.clAcf slot ss se al
  | clAcr slot ss se al => exact Laws.RoundTrip.clAcr slot ss se al
  | clRstm => exact Laws.RoundTrip.clRstm
  | clScan => exact Laws.RoundTrip.clScan
  | qtLoad pq tq => exact Laws.RoundTrip.qtLoad pq tq
  | xfCfg comp variant => exact Laws.RoundTrip.xfCfg comp variant
  | xfDq comp tq => exact Laws.RoundTrip.xfDq comp tq
  | xfIdct comp => exact Laws.RoundTrip.xfIdct comp
  | xfRun comp tq => exact Laws.RoundTrip.xfRun comp tq

/-! ### What a format makes of a word -/

/-- The answer of a format whose must-be-zero fields are `zero` (R81): the command, or the name of the rejection. -/
def acceptWhenZero (w : Word) (zero : List (Nat × Nat)) (i : Instr) : Except DecodeError Instr :=
  if ∀ p ∈ zero, fieldOf w p.1 p.2 = 0 then .ok i else .error .mustBeZeroBit

theorem acceptWhenZero_eq_ok {w : Word} {zero : List (Nat × Nat)} {i j : Instr} :
    acceptWhenZero w zero i = .ok j ↔ (∀ p ∈ zero, fieldOf w p.1 p.2 = 0) ∧ i = j := by
  unfold acceptWhenZero
  split <;> simp_all

section
variable (w : Word)

theorem compField_eq : compField w = Fin.ofNat 4 (fieldOf w 9 8) := by
  rw [compField, bitField_eq_fieldOf w (by decide)]

theorem decodeZ_eq (i : Instr) : decodeZ w i = acceptWhenZero w [(23, 0)] i := by
  simp [decodeZ, whenZero, acceptWhenZero, bitField_eq_fieldOf]

theorem decodeN_eq (mk : Nat → Instr) : decodeN w mk = acceptWhenZero w [(23, 16)] (mk (fieldOf w 15 0)) := by
  simp [decodeN, whenZero, acceptWhenZero, bitField_eq_fieldOf]

theorem decodeB_eq (mk : Nat → Instr) : decodeB w mk = acceptWhenZero w [(23, 5)] (mk (fieldOf w 4 0)) := by
  simp [decodeB, whenZero, acceptWhenZero, bitField_eq_fieldOf]

theorem decodeT_eq (mk : Nat → Nat → Instr) :
    decodeT w mk = acceptWhenZero w [(23, 8)] (mk (fieldOf w 7 4) (fieldOf w 3 0)) := by
  simp [decodeT, whenZero, acceptWhenZero, bitField_eq_fieldOf]

theorem decodeK_eq (mk : Fin 4 → Nat → Nat → Instr) :
    decodeK w mk = acceptWhenZero w [(23, 10)] (mk (Fin.ofNat 4 (fieldOf w 9 8)) (fieldOf w 7 4) (fieldOf w 3 0)) := by
  simp [decodeK, whenZero, acceptWhenZero, bitField_eq_fieldOf, compField_eq]

theorem decodePDc_eq (mk : Fin 4 → Nat → Nat → Instr) :
    decodePDc w mk =
      acceptWhenZero w [(23, 22), (21, 16), (15, 10)] (mk (Fin.ofNat 4 (fieldOf w 9 8)) (fieldOf w 7 4) (fieldOf w 3 0)) := by
  simp [decodePDc, whenZero, acceptWhenZero, bitField_eq_fieldOf, compField_eq, and_assoc]

theorem decodePRefine_eq (mk : Nat → Instr) :
    decodePRefine w mk = acceptWhenZero w [(23, 22), (21, 16), (15, 10), (9, 8), (7, 4)] (mk (fieldOf w 3 0)) := by
  simp [decodePRefine, whenZero, acceptWhenZero, bitField_eq_fieldOf, and_assoc]

theorem decodePAc_eq (mk : Nat → Nat → Nat → Nat → Instr) :
    decodePAc w mk =
      acceptWhenZero w [(23, 22), (9, 8)] (mk (fieldOf w 7 4) (fieldOf w 15 10) (fieldOf w 21 16) (fieldOf w 3 0)) := by
  simp [decodePAc, whenZero, acceptWhenZero, bitField_eq_fieldOf]

theorem decodeX_eq (mk : Fin 4 → Nat → Instr) :
    decodeX w mk = acceptWhenZero w [(23, 10), (7, 4)] (mk (Fin.ofNat 4 (fieldOf w 9 8)) (fieldOf w 3 0)) := by
  simp [decodeX, whenZero, acceptWhenZero, bitField_eq_fieldOf, compField_eq]

theorem decodeXVariant_eq (mk : Fin 4 → Nat → Instr) :
    decodeXVariant w mk = acceptWhenZero w [(23, 10), (7, 4), (3, 3)] (mk (Fin.ofNat 4 (fieldOf w 9 8)) (fieldOf w 2 0)) := by
  simp [decodeXVariant, whenZero, acceptWhenZero, bitField_eq_fieldOf, compField_eq, and_assoc]

theorem decodeXNoArg_eq (mk : Fin 4 → Instr) :
    decodeXNoArg w mk = acceptWhenZero w [(23, 10), (7, 4), (3, 0)] (mk (Fin.ofNat 4 (fieldOf w 9 8))) := by
  simp [decodeXNoArg, whenZero, acceptWhenZero, bitField_eq_fieldOf, compField_eq, and_assoc]

end

/-- Settles O3: the opcode selects the command's format, and the format's equation says the rest. -/
theorem commandWordsFollowTheirFormats : Obligations.CommandWordsFollowTheirFormats := by
  unfold Obligations.CommandWordsFollowTheirFormats
  and_intros
  all_goals
    intro w hop
    rw [← bitField_eq_fieldOf w (by decide)] at hop
    simp only [decode, hop]
  exacts [decodeZ_eq .., decodeZ_eq .., decodeZ_eq .., decodeZ_eq .., decodeN_eq .., decodeN_eq ..,
    decodeB_eq .., decodeZ_eq .., decodeB_eq .., decodeB_eq .., decodeZ_eq .., decodeT_eq .., decodeT_eq ..,
    decodeZ_eq .., decodeK_eq .., decodePDc_eq .., decodePRefine_eq .., decodePAc_eq .., decodePAc_eq .., decodeZ_eq .., decodeZ_eq ..,
    decodeT_eq .., decodeXVariant_eq .., decodeX_eq .., decodeXNoArg_eq .., decodeX_eq ..]

/-! ### A word a format accepts is an encoding -/

/-- `w` is the word of the well-formed command `i`. -/
def Encodes (w : Word) (i : Instr) : Prop := i.wf = true ∧ encode i = w

@[simp] theorem fitsField_fieldOf {hi lo k : Nat} (w : Word) (h : hi - lo + 1 = k) : fitsField k (fieldOf w hi lo) = true := by
  subst h
  exact decide_eq_true (Nat.mod_lt _ (by positivity))

/-- A word is its opcode and its operand field. -/
theorem commandWord_eq_of_fields {w : Word} {op v : Nat} (hop : bitField w 31 24 = op) (hv : v = fieldOf w 23 0) : commandWord op v = w := by
  apply BitVec.eq_of_toNat_eq
  rw [bitField_eq_fieldOf w (by decide)] at hop
  unfold fieldOf at hop hv
  rw [commandWord, BitVec.toNat_ofNat]
  omega

/-- A format accepts only encodings of its command: what its must-be-zero fields leave of the operand field is what the encoder writes. -/
theorem encodes_of_acceptWhenZero {w : Word} {op : Nat} (hop : bitField w 31 24 = op) {zero : List (Nat × Nat)} {i j : Instr}
    (h : acceptWhenZero w zero i = .ok j) (hwf : i.wf = true) {operands : Nat} (henc : encode i = commandWord op operands)
    (hops : (∀ p ∈ zero, fieldOf w p.1 p.2 = 0) → operands = fieldOf w 23 0) : Encodes w j := by
  obtain ⟨hzero, rfl⟩ := acceptWhenZero_eq_ok.mp h
  exact ⟨hwf, henc.trans (commandWord_eq_of_fields hop (hops hzero))⟩

section
variable {w : Word} {op : Nat} {j : Instr} (hop : bitField w 31 24 = op)
include hop

theorem encodes_of_decodeZ {i : Instr} (hwf : i.wf = true) (henc : encode i = commandWord op 0) (h : decodeZ w i = .ok j) :
    Encodes w j := by
  rw [decodeZ_eq] at h
  exact encodes_of_acceptWhenZero hop h hwf henc (by simp [fieldOf]; omega)

theorem encodes_of_decodeN {mk : Nat → Instr} (hwf : ∀ n, (mk n).wf = fitsField 16 n) (henc : ∀ n, encode (mk n) = commandWord op n)
    (h : decodeN w mk = .ok j) : Encodes w j := by
  rw [decodeN_eq] at h
  exact encodes_of_acceptWhenZero hop h (by simp [hwf]) (henc _) (by simp [fieldOf]; omega)

theorem encodes_of_decodeB {mk : Nat → Instr} (hwf : ∀ n, (mk n).wf = fitsField 5 n) (henc : ∀ n, encode (mk n) = commandWord op n)
    (h : decodeB w mk = .ok j) : Encodes w j := by
  rw [decodeB_eq] at h
  exact encodes_of_acceptWhenZero hop h (by simp [hwf]) (henc _) (by simp [fieldOf]; omega)

theorem encodes_of_decodeT {mk : Nat → Nat → Instr} (hwf : ∀ a b, (mk a b).wf = (fitsField 4 a && fitsField 4 b))
    (henc : ∀ a b, encode (mk a b) = commandWord op (a * 2 ^ 4 + b)) (h : decodeT w mk = .ok j) : Encodes w j := by
  rw [decodeT_eq] at h
  exact encodes_of_acceptWhenZero hop h (by simp [hwf]) (henc _ _) (by simp [fieldOf]; omega)

theorem encodes_of_decodeK {mk : Fin 4 → Nat → Nat → Instr} (hwf : ∀ c a b, (mk c a b).wf = (fitsField 4 a && fitsField 4 b))
    (henc : ∀ c a b, encode (mk c a b) = commandWord op (c.val * 2 ^ 8 + a * 2 ^ 4 + b)) (h : decodeK w mk = .ok j) : Encodes w j := by
  rw [decodeK_eq] at h
  exact encodes_of_acceptWhenZero hop h (by simp [hwf]) (henc _ _ _) (by simp [fieldOf]; omega)

theorem encodes_of_decodePDc {mk : Fin 4 → Nat → Nat → Instr} (hwf : ∀ c a b, (mk c a b).wf = (fitsField 4 a && fitsField 4 b))
    (henc : ∀ c a b, encode (mk c a b) = commandWord op (c.val * 2 ^ 8 + a * 2 ^ 4 + b)) (h : decodePDc w mk = .ok j) : Encodes w j := by
  rw [decodePDc_eq] at h
  exact encodes_of_acceptWhenZero hop h (by simp [hwf]) (henc _ _ _) (by simp [fieldOf]; omega)

theorem encodes_of_decodePRefine {mk : Nat → Instr} (hwf : ∀ n, (mk n).wf = fitsField 4 n)
    (henc : ∀ n, encode (mk n) = commandWord op n) (h : decodePRefine w mk = .ok j) : Encodes w j := by
  rw [decodePRefine_eq] at h
  exact encodes_of_acceptWhenZero hop h (by simp [hwf]) (henc _) (by simp [fieldOf]; omega)

theorem encodes_of_decodePAc {mk : Nat → Nat → Nat → Nat → Instr}
    (hwf : ∀ a b c d, (mk a b c d).wf = (fitsField 4 a && fitsField 6 b && fitsField 6 c && fitsField 4 d))
    (henc : ∀ a b c d, encode (mk a b c d) = commandWord op (c * 2 ^ 16 + b * 2 ^ 10 + a * 2 ^ 4 + d)) (h : decodePAc w mk = .ok j) :
    Encodes w j := by
  rw [decodePAc_eq] at h
  exact encodes_of_acceptWhenZero hop h (by simp [hwf]) (henc _ _ _ _) (by simp [fieldOf]; omega)

theorem encodes_of_decodeX {mk : Fin 4 → Nat → Instr} (hwf : ∀ c a, (mk c a).wf = fitsField 4 a)
    (henc : ∀ c a, encode (mk c a) = commandWord op (c.val * 2 ^ 8 + a)) (h : decodeX w mk = .ok j) : Encodes w j := by
  rw [decodeX_eq] at h
  exact encodes_of_acceptWhenZero hop h (by simp [hwf]) (henc _ _) (by simp [fieldOf]; omega)

theorem encodes_of_decodeXVariant {mk : Fin 4 → Nat → Instr} (hwf : ∀ c a, (mk c a).wf = fitsField 3 a)
    (henc : ∀ c a, encode (mk c a) = commandWord op (c.val * 2 ^ 8 + a)) (h : decodeXVariant w mk = .ok j) : Encodes w j := by
  rw [decodeXVariant_eq] at h
  exact encodes_of_acceptWhenZero hop h (by simp [hwf]) (henc _ _) (by simp [fieldOf]; omega)

theorem encodes_of_decodeXNoArg {mk : Fin 4 → Instr} (hwf : ∀ c, (mk c).wf = true)
    (henc : ∀ c, encode (mk c) = commandWord op (c.val * 2 ^ 8)) (h : decodeXNoArg w mk = .ok j) : Encodes w j := by
  rw [decodeXNoArg_eq] at h
  exact encodes_of_acceptWhenZero hop h (hwf _) (henc _) (by simp [fieldOf]; omega)

end

/-- Settles O2: by the opcode, then by the command's format. -/
theorem encodeDecodeRoundTrip : Obligations.EncodeDecodeRoundTrip := by
  intro w i h
  unfold decode at h
  split at h
  case h_1 hop | h_2 hop | h_3 hop | h_4 hop | h_8 hop | h_11 hop | h_14 hop | h_20 hop | h_21 hop =>
    exact encodes_of_decodeZ hop rfl rfl h
  case h_5 hop | h_6 hop => exact encodes_of_decodeN hop (fun _ => rfl) (fun _ => rfl) h
  case h_7 hop | h_9 hop | h_10 hop =>
    exact encodes_of_decodeB hop (fun _ => rfl) (fun _ => rfl) h
  case h_12 hop | h_13 hop | h_22 hop =>
    exact encodes_of_decodeT hop (fun _ _ => rfl) (fun _ _ => rfl) h
  case h_15 hop => exact encodes_of_decodeK hop (fun _ _ _ => rfl) (fun _ _ _ => rfl) h
  case h_16 hop => exact encodes_of_decodePDc hop (fun _ _ _ => rfl) (fun _ _ _ => rfl) h
  case h_17 hop => exact encodes_of_decodePRefine hop (fun _ => rfl) (fun _ => rfl) h
  case h_18 hop | h_19 hop => exact encodes_of_decodePAc hop (fun _ _ _ _ => rfl) (fun _ _ _ _ => rfl) h
  case h_23 hop => exact encodes_of_decodeXVariant hop (fun _ _ => rfl) (fun _ _ => rfl) h
  case h_24 hop | h_26 hop => exact encodes_of_decodeX hop (fun _ _ => rfl) (fun _ _ => rfl) h
  case h_25 hop => exact encodes_of_decodeXNoArg hop (fun _ => rfl) (fun _ => rfl) h
  case h_27 => nomatch h

end Sys2Proof.Machine
end

section
/-! The session commands (`40_session.md`): NOP. -/

namespace Sys2Proof.Machine

/-- NOP's body is `pure 0`: it reads nothing, changes nothing and cannot fail. -/
theorem exec_nop (s : State) : exec .nop s = .next (s.runCommand (pure 0)) := rfl

theorem exec_nop_of_fault {s : State} (h : s.status.fault = true) : exec .nop s = .next s := by
  rw [exec_nop, runCommand_faulted h]

theorem exec_nop_of_no_fault {s : State} (h : s.status.fault = false) : exec .nop s = .next (s.complete 0) := by
  rw [exec_nop, runCommand_ok (body := pure 0) h rfl]

/-- Settles O8: the word is the first of the formats of O3; the body completes with 0 on the state it was given. -/
theorem nopOnlyCounts : Obligations.NopOnlyCounts := by
  obtain ⟨hword, -⟩ := commandWordsFollowTheirFormats
  exact ⟨hword, fun _ => ⟨exec_nop_of_no_fault, exec_nop_of_fault⟩⟩

end Sys2Proof.Machine
end

section
/-! The cursor commands (`41_bytestream.md`): BS.RDB, BS.UNRD, BS.RDX, BS.SKIP. -/

namespace Sys2Proof.Machine

/-! ### The primitives -/

theorem readByte_of_some {src : List Byte} {t : Stream} {b : Byte} (h : src[t.pos]? = some b) :
    readByte src t = .ok b { t with pos := t.pos + 1, nunrd := 0 } := by
  simp only [readByte, h]

theorem readByte_of_end {src : List Byte} {t : Stream} (h : src.length ≤ t.pos) : readByte src t = .error .unexpectedEndOfStream t := by
  simp only [readByte, List.getElem?_eq_none h]

/-- The last stuffed read is whole in the accumulator and goes back. -/
theorem returnOvershoot_of_held {t : Stream} (hn : t.nunrd ≠ 0) (hc : 8 ≤ t.cnt) :
    returnOvershoot t = .ok t.nunrd ⟨t.pos - t.nunrd.val, 0, t.acc >>> 8, t.cnt - 8⟩ :=
  if_pos ⟨hn, hc⟩

/-- There is nothing to give back: no stuffed read is open, or some of its bits are consumed. -/
theorem returnOvershoot_of_not_held {t : Stream} (h : t.nunrd = 0 ∨ t.cnt < 8) : returnOvershoot t = .ok 0 { t with nunrd := 0 } := by
  rw [returnOvershoot, if_neg]
  rcases h with hn | hc
  · exact fun hheld => hheld.1 hn
  · omega

/-! ### The bodies -/

theorem bsRdb_of_some {s : State} {b : Byte} (h : s.src[s.stream.pos]? = some b) : bsRdb s = .ok (b.setWidth 32) (s.advance 1) :=
  bind_ok (onStream_ok (readByte_of_some h))

theorem bsRdb_of_end {s : State} (h : s.src.length ≤ s.stream.pos) : bsRdb s = .error .unexpectedEndOfStream s :=
  bind_error (onStream_error (readByte_of_end h))

theorem bsUnrd_of_held {s : State} (hn : s.stream.nunrd ≠ 0) (hc : 8 ≤ s.stream.cnt) :
    bsUnrd s = .ok (BitVec.ofNat 32 s.stream.nunrd.val)
      { s with stream := ⟨s.stream.pos - s.stream.nunrd.val, 0, s.stream.acc >>> 8, s.stream.cnt - 8⟩ } :=
  bind_ok (onStream_ok (returnOvershoot_of_held hn hc))

theorem bsUnrd_of_not_held {s : State} (h : s.stream.nunrd = 0 ∨ s.stream.cnt < 8) :
    bsUnrd s = .ok 0 { s with stream := { s.stream with nunrd := 0 } } := by
  rw [bsUnrd, bind_ok (onStream_ok (returnOvershoot_of_not_held h))]; rfl

/-- With NUNRD = 0 BS.UNRD does nothing and returns 0. -/
theorem bsUnrd_of_nunrd_eq_zero {s : State} (h : s.stream.nunrd = 0) : bsUnrd s = .ok 0 s := by
  rw [bsUnrd_of_not_held (.inl h), ← h]

/-- BS.UNRD cannot fail, and it leaves NUNRD = 0. -/
theorem bsUnrd_clears_nunrd (s : State) : ∃ r t, bsUnrd s = .ok r { s with stream := t } ∧ t.nunrd = 0 := by
  by_cases h : s.stream.nunrd = 0 ∨ s.stream.cnt < 8
  · exact ⟨_, _, bsUnrd_of_not_held h, rfl⟩
  · rw [not_or, Nat.not_lt] at h
    exact ⟨_, _, bsUnrd_of_held h.1 h.2, rfl⟩

theorem bsRdx_of_illegal {s : State} {n : Nat} (h : Config.pramSize < n) : bsRdx n s = .error .illegalOperand s := if_pos h

theorem bsRdx_of_short {s : State} {n : Nat} (hn : n ≤ Config.pramSize) (h : s.src.length < s.stream.pos + n) :
    bsRdx n s = .error .unexpectedEndOfStream s := by
  rw [bsRdx, if_neg (Nat.not_lt.mpr hn), if_pos h]

theorem bsRdx_of_enough {s : State} {n : Nat} (hn : n ≤ Config.pramSize) (h : s.stream.pos + n ≤ s.src.length) :
    bsRdx n s = .ok 0 ({ s with pram := s.pram.store 0 ((s.src.drop s.stream.pos).take n) }.advance n) := by
  rw [bsRdx, if_neg (Nat.not_lt.mpr hn), if_neg (Nat.not_lt.mpr h)]

theorem bsSkip_of_short {s : State} {n : Nat} (h : s.src.length < s.stream.pos + n) :
    bsSkip n s = .error .unexpectedEndOfStream s := if_pos h

theorem bsSkip_of_enough {s : State} {n : Nat} (h : s.stream.pos + n ≤ s.src.length) : bsSkip n s = .ok 0 (s.advance n) :=
  if_neg (Nat.not_lt.mpr h)

/-! ### The bytes BS.RDX moves -/

theorem length_take_drop_of_enough {src : List Byte} {pos n : Nat} (h : pos + n ≤ src.length) : ((src.drop pos).take n).length = n :=
  List.length_take_of_le (by rw [List.length_drop]; omega)

/-- PRAM[i] is source byte `pos + i`, for the bytes moved. -/
theorem byte_store_source {m : Memory} (hm : m.wf) {src : List Byte} {pos n i : Nat} (hn : n ≤ Config.pramSize) (h : pos + n ≤ src.length)
    (hi : i < n) : some ((m.store 0 ((src.drop pos).take n)).byte i) = src[pos + i]? := by
  have hlen := length_take_drop_of_enough h
  have hstored := Memory.byte_store_inside hm 0 _ (by rwa [hlen, Nat.zero_add]) (hlen.symm ▸ hi)
  rw [Nat.zero_add] at hstored
  rw [hstored, ← List.getElem?_eq_getElem, List.getElem?_take_of_lt hi, List.getElem?_drop]

/-- PRAM[n..] keeps its values. -/
theorem byte_store_source_of_le {m : Memory} (hm : m.wf) {src : List Byte} {pos n a : Nat} (hn : n ≤ Config.pramSize) (h : pos + n ≤ src.length)
    (ha : n ≤ a) : (m.store 0 ((src.drop pos).take n)).byte a = m.byte a := by
  have hlen := length_take_drop_of_enough h
  exact Memory.byte_store_outside hm 0 _ (by rwa [hlen, Nat.zero_add]) (.inr (by rwa [hlen, Nat.zero_add]))

/-! ### The claims -/

/-- Settles O26: the body checks `n`, then the source, and writes only when both hold. -/
theorem bsRdxFillsPram : Obligations.BsRdxFillsPram := by
  obtain ⟨-, -, -, -, hword, -⟩ := commandWordsFollowTheirFormats
  refine ⟨hword, fun s n hf hm => ⟨fun hn h => ?enough, fun hn => ?illegal, fun hn h => ?short⟩⟩
  case enough =>
    exact ⟨s.pram.store 0 ((s.src.drop s.stream.pos).take n), completes_of hf rfl (bsRdx_of_enough hn h), Memory.wf_store hm _ _,
      fun _ => byte_store_source hm hn h, fun _ => byte_store_source_of_le hm hn h⟩
  case illegal => exact refuses_of hf rfl (bsRdx_of_illegal hn)
  case short => exact refuses_of hf rfl (bsRdx_of_short hn h)

/-- Settles O25: the overshoot is held or not; either way NUNRD is 0 afterwards, so a second BS.UNRD has nothing to give back. -/
theorem bsUnrdReturnsTheOvershoot : Obligations.BsUnrdReturnsTheOvershoot := by
  obtain ⟨-, -, -, hword, -⟩ := commandWordsFollowTheirFormats
  refine ⟨hword, fun s hf => ⟨fun hn hc => ?held, fun h => ?notHeld, fun t ht => ?again⟩⟩
  case held => exact completes_of hf rfl (bsUnrd_of_held hn hc)
  case notHeld => exact completes_of hf rfl (bsUnrd_of_not_held h)
  case again =>
    obtain ⟨r, u, hbody, hu⟩ := bsUnrd_clears_nunrd s
    rw [completes_of hf rfl hbody] at ht
    cases ht
    exact completes_of hf rfl (bsUnrd_of_nunrd_eq_zero hu)

/-- Settles O24: there is a byte at `pos`, or the source ends there. -/
theorem bsRdbReadsOneRawByte : Obligations.BsRdbReadsOneRawByte := by
  obtain ⟨-, -, hword, -⟩ := commandWordsFollowTheirFormats
  exact ⟨hword, fun _ hf =>
    ⟨fun _ h => completes_of hf rfl (bsRdb_of_some h), fun h => refuses_of hf rfl (bsRdb_of_end h)⟩⟩

/-- Settles O27: the source is checked before the cursor moves. -/
theorem bsSkipAdvances : Obligations.BsSkipAdvances := by
  obtain ⟨-, -, -, -, -, hword, -⟩ := commandWordsFollowTheirFormats
  exact ⟨hword, fun _ _ hf =>
    ⟨fun h => completes_of hf rfl (bsSkip_of_enough h), fun h => refuses_of hf rfl (bsSkip_of_short h)⟩⟩

end Sys2Proof.Machine
end

section
/-! The accumulator commands (`42_bitaccum.md`): BA.ENS, BA.RDBIT, BA.RDBITS, BA.RCVX, BA.RST. No lemma here assumes the invariant. -/

namespace Sys2Proof.Machine

open Sys2Proof.Reference

/-! ### One stuffed byte, by what stands at the cursor (R111) -/

section
variable {src : List Byte} {t : Stream}

theorem readStuffedByte_of_plain {b : Byte} (h : src[t.pos]? = some b) (hb : b ≠ 0xFF) :
    readStuffedByte src t = .ok b { t with pos := t.pos + 1, nunrd := 1 } := by
  simp only [readStuffedByte, h, if_pos hb]

theorem readStuffedByte_of_pair (h : src[t.pos]? = some 0xFF) (hc : src[t.pos + 1]? = some 0x00) :
    readStuffedByte src t = .ok 0xFF { t with pos := t.pos + 2, nunrd := 2 } := by
  simp [readStuffedByte, h, hc]

theorem readStuffedByte_of_unstuffed {c : Byte} (h : src[t.pos]? = some 0xFF) (hc : src[t.pos + 1]? = some c) (hc0 : c ≠ 0x00) :
    readStuffedByte src t = .error .missingStuffingByte { t with nunrd := 0 } := by
  simp only [readStuffedByte, h, ne_eq, not_true_eq_false, if_false, hc, hc0, not_false_eq_true, if_true]

theorem readStuffedByte_of_end (h : src[t.pos]? = none ∨ (src[t.pos]? = some 0xFF ∧ src[t.pos + 1]? = none)) :
    readStuffedByte src t = .error .unexpectedEndOfStream { t with nunrd := 0 } := by
  rcases h with h | ⟨h, hc⟩
  · simp only [readStuffedByte, h]
  · simp only [readStuffedByte, h, ne_eq, not_true_eq_false, if_false, hc]

/-- A stuffed read moves the cursor only. -/
theorem readStuffedByte_keeps_cnt {b : Byte} {t' : Stream} (h : readStuffedByte src t = .ok b t') : t'.cnt = t.cnt := by
  unfold readStuffedByte at h
  split at h
  next => cases h
  next =>
    split at h
    next => cases h; rfl
    next =>
      split at h
      next => cases h
      next =>
        split at h
        next => cases h
        next => cases h; rfl

/-! ### EnsureBits, one round at a time (R130) -/

variable {n : Nat}

theorem ensureLoop_of_le (h : n ≤ t.cnt) (rounds : Nat) : ensureLoop src n rounds t = .ok () t := by
  cases rounds with
  | zero => rfl
  | succ rounds => exact if_neg (Nat.not_lt.mpr h)

theorem ensureLoop_of_read {b : Byte} {t' : Stream} (hc : t.cnt < n) (h : readStuffedByte src t = .ok b t') (rounds : Nat) :
    ensureLoop src n (rounds + 1) t = ensureLoop src n rounds (t'.push b) := by
  simp only [ensureLoop, if_pos hc, h]

theorem ensureLoop_of_error {f : FaultCode} {t' : Stream} (hc : t.cnt < n) (h : readStuffedByte src t = .error f t') (rounds : Nat) :
    ensureLoop src n (rounds + 1) t = .error f t' := by
  simp only [ensureLoop, if_pos hc, h]

/-- Once the rounds suffice, one more makes no difference: each adds 8 bits. -/
theorem ensureLoop_succ_of_enough {rounds : Nat} (h : n ≤ t.cnt + 8 * rounds) :
    ensureLoop src n (rounds + 1) t = ensureLoop src n rounds t := by
  induction rounds generalizing t with
  | zero => exact ensureLoop_of_le (by omega) 1
  | succ rounds ih =>
    rcases Nat.lt_or_ge t.cnt n with hc | hc
    · cases hr : readStuffedByte src t with
      | error f t' => rw [ensureLoop_of_error hc hr, ensureLoop_of_error hc hr]
      | ok b t' =>
        have hcnt := readStuffedByte_keeps_cnt hr
        rw [ensureLoop_of_read hc hr, ensureLoop_of_read hc hr, ih (by rw [Stream.push_cnt, hcnt]; omega)]
    · rw [ensureLoop_of_le hc, ensureLoop_of_le hc]

theorem ensureBits_of_le (h : n ≤ t.cnt) : ensureBits src n t = .ok () t := ensureLoop_of_le h n

/-- One round off EnsureBits leaves EnsureBits. -/
theorem ensureBits_of_read {b : Byte} {t' : Stream} (hc : t.cnt < n) (h : readStuffedByte src t = .ok b t') :
    ensureBits src n t = ensureBits src n (t'.push b) := by
  obtain ⟨rounds, rfl⟩ := Nat.exists_eq_succ_of_ne_zero (Nat.ne_zero_of_lt hc)
  have henough : rounds + 1 ≤ (t'.push b).cnt + 8 * rounds := by rw [Stream.push_cnt]; omega
  rw [ensureBits, ensureLoop_of_read hc h, ensureLoop_succ_of_enough henough]

theorem ensureBits_of_error {f : FaultCode} {t' : Stream} (hc : t.cnt < n) (h : readStuffedByte src t = .error f t') :
    ensureBits src n t = .error f t' := by
  obtain ⟨rounds, rfl⟩ := Nat.exists_eq_succ_of_ne_zero (Nat.ne_zero_of_lt hc)
  exact ensureLoop_of_error hc h rounds

/-! ### ReadBits and ReceiveExtend after EnsureBits (R131, R133) -/

/-- The low `k` bits as a remainder; a `k` above 32 keeps them all. -/
theorem lowBits_eq_ofNat (v : Word) (k : Nat) : lowBits v k = BitVec.ofNat 32 (v.toNat % 2 ^ k) := by
  rcases Nat.le_total k 32 with hk | hk
  · rw [← lowBits_toNat v hk, BitVec.ofNat_toNat, BitVec.setWidth_eq]
  · have hpow : 2 ^ k = 2 ^ 32 * 2 ^ (k - 32) := by rw [← pow_add, Nat.add_sub_cancel' hk]
    have hpos : 0 < 2 ^ (k - 32) := Nat.two_pow_pos _
    have hones : BitVec.ofNat 32 (2 ^ k - 1) = BitVec.allOnes 32 :=
      BitVec.eq_of_toNat_eq (by rw [BitVec.toNat_ofNat, BitVec.toNat_allOnes]; omega)
    have hlt : v.toNat < 2 ^ k := lt_of_lt_of_le v.isLt (Nat.pow_le_pow_right (by decide) hk)
    rw [lowBits, hones, BitVec.and_allOnes, Nat.mod_eq_of_lt hlt, BitVec.ofNat_toNat, BitVec.setWidth_eq]

theorem readBits_of_ensured {t' : Stream} (hn : 1 ≤ n) (hn' : n ≤ 16) (h : ensureBits src n t = .ok () t') :
    readBits src n t = .ok (t'.acc.toNat / 2 ^ (t'.cnt - n) % 2 ^ n) (t'.keep (t'.cnt - n)) := by
  have hv : (lowBits (t'.acc >>> (t'.cnt - n)) n).toNat = t'.acc.toNat / 2 ^ (t'.cnt - n) % 2 ^ n := by
    rw [lowBits_toNat _ (by omega), BitVec.toNat_ushiftRight, Nat.shiftRight_eq_div_pow]
  simp only [readBits, if_neg (Nat.one_le_iff_ne_zero.mp hn), h, hv]

theorem readBits_of_error {f : FaultCode} {t' : Stream} (hn : 1 ≤ n) (h : ensureBits src n t = .error f t') :
    readBits src n t = .error f t' := by
  simp only [readBits, if_neg (Nat.one_le_iff_ne_zero.mp hn), h]

theorem readBits_lt {v : Nat} {t' : Stream} (hn : 1 ≤ n) (hn' : n ≤ 16) (h : readBits src n t = .ok v t') : v < 2 ^ n := by
  cases he : ensureBits src n t with
  | ok _ t₁ =>
    rw [readBits_of_ensured hn hn' he] at h
    cases h
    exact Nat.mod_lt _ (Nat.two_pow_pos n)
  | error f t₁ => rw [readBits_of_error hn he] at h; cases h

theorem receiveExtend_of_read {v : Nat} {t' : Stream} (hn : 1 ≤ n) (h : readBits src n t = .ok v t') :
    receiveExtend src n t = .ok (extend n v) t' := by
  rw [receiveExtend, if_neg (Nat.one_le_iff_ne_zero.mp hn), bind_ok h, pure_apply]

theorem receiveExtend_of_error {f : FaultCode} {t' : Stream} (hn : 1 ≤ n) (h : readBits src n t = .error f t') :
    receiveExtend src n t = .error f t' := by
  rw [receiveExtend, if_neg (Nat.one_le_iff_ne_zero.mp hn), bind_error h]

end

/-- EXTEND in terms of the word that holds the field. -/
theorem w32_extend {n v : Nat} (hn : n ≤ 16) (hv : v < 2 ^ n) :
    w32 (extend n v) = if (BitVec.ofNat 32 v).toNat < 2 ^ (n - 1) then w32 ((BitVec.ofNat 32 v).toNat - 2 ^ n + 1) else BitVec.ofNat 32 v := by
  have hpow : 2 ^ n ≤ 2 ^ 16 := Nat.pow_le_pow_right (by decide) hn
  have hword : (BitVec.ofNat 32 v).toNat = v := by rw [BitVec.toNat_ofNat, Nat.mod_eq_of_lt (by omega)]
  rw [hword, extend, apply_ite w32]
  rfl

/-! ### The bodies -/

section
variable {s : State} {n : Nat}

theorem baEns_of_illegal (h : n < 1 ∨ 16 < n) : baEns n s = .error .illegalOperand s := by
  rw [baEns, if_pos h, throw_apply]

theorem baEns_of_ensured {t : Stream} (hn : 1 ≤ n) (hn' : n ≤ 16) (h : ensureBits s.src n s.stream = .ok () t) :
    baEns n s = .ok 0 { s with stream := t } := by
  rw [baEns, if_neg (by omega), bind_ok (onStream_ok h), pure_apply]

theorem baEns_of_error {f : FaultCode} {t : Stream} (hn : 1 ≤ n) (hn' : n ≤ 16) (h : ensureBits s.src n s.stream = .error f t) :
    baEns n s = .error f { s with stream := t } := by
  rw [baEns, if_neg (by omega), bind_error (onStream_error h)]

theorem baRdbits_of_illegal (h : n < 1 ∨ 16 < n) : baRdbits n s = .error .illegalOperand s := by
  rw [baRdbits, if_pos h, throw_apply]

theorem baRdbits_of_read {v : Nat} {t : Stream} (hn : 1 ≤ n) (hn' : n ≤ 16) (h : readBits s.src n s.stream = .ok v t) :
    baRdbits n s = .ok (BitVec.ofNat 32 v) { s with stream := t } := by
  rw [baRdbits, if_neg (by omega), bind_ok (onStream_ok h), pure_apply]

theorem baRdbits_of_error {f : FaultCode} {t : Stream} (hn : 1 ≤ n) (hn' : n ≤ 16) (h : readBits s.src n s.stream = .error f t) :
    baRdbits n s = .error f { s with stream := t } := by
  rw [baRdbits, if_neg (by omega), bind_error (onStream_error h)]

theorem baRdbits_one : baRdbits 1 = baRdbit := if_neg (by decide)

theorem baRcvx_of_illegal (h : 16 < n) : baRcvx n s = .error .illegalOperand s := by
  rw [baRcvx, if_pos h, throw_apply]

theorem baRcvx_zero (s : State) : baRcvx 0 s = .ok 0 s := rfl

theorem baRcvx_of_read {v : Nat} {t : Stream} (hn : 1 ≤ n) (hn' : n ≤ 16) (h : readBits s.src n s.stream = .ok v t) :
    baRcvx n s = .ok (w32 (extend n v)) { s with stream := t } := by
  rw [baRcvx, if_neg (Nat.not_lt.mpr hn'), bind_ok (onStream_ok (receiveExtend_of_read hn h)), pure_apply]

theorem baRcvx_of_error {f : FaultCode} {t : Stream} (hn : 1 ≤ n) (hn' : n ≤ 16) (h : readBits s.src n s.stream = .error f t) :
    baRcvx n s = .error f { s with stream := t } := by
  rw [baRcvx, if_neg (Nat.not_lt.mpr hn'), bind_error (onStream_error (receiveExtend_of_error hn h))]

/-! ### Running them -/

/-- A body that fails, having changed the state to `u`. -/
theorem faults_of {i : Instr} {u : State} {body : Cmd Word} {f : FaultCode} (hf : s.status.fault = false)
    (he : exec i s = .next (s.runCommand body)) (hb : body s = .error f u) : exec i s = .next (u.raise f) := by
  rw [he, runCommand_error hf hb]

/-- BA.ENS cannot tell two streams apart that EnsureBits does not. -/
theorem exec_baEns_congr {t : Stream} (hf : s.status.fault = false) (hn : 1 ≤ n) (hn' : n ≤ 16)
    (h : ensureBits s.src n s.stream = ensureBits s.src n t) : exec (.baEns n) s = exec (.baEns n) { s with stream := t } := by
  cases he : ensureBits s.src n t with
  | ok _ u =>
    rw [completes_of hf rfl (baEns_of_ensured hn hn' (h.trans he)),
      completes_of (s := { s with stream := t }) hf rfl (baEns_of_ensured hn hn' he)]
  | error f u =>
    rw [faults_of hf rfl (baEns_of_error hn hn' (h.trans he)),
      faults_of (s := { s with stream := t }) hf rfl (baEns_of_error hn hn' he)]

end

/-! ### The claims -/

/-- Settles O31: the body only resets the accumulator, and with no bits held only the source is pending. -/
theorem baRstEmptiesTheAccumulator : Obligations.BaRstEmptiesTheAccumulator := by
  obtain ⟨-, -, -, -, -, -, -, -, -, -, hword, -⟩ := commandWordsFollowTheirFormats
  exact ⟨hword, fun s hf => ⟨completes_of (body := baRst) hf rfl rfl, List.nil_append _⟩⟩

/-- Settles O28: what stands at the cursor decides the round, and the rounds left over never matter. -/
theorem baEnsPullsStuffedBytes : Obligations.BaEnsPullsStuffedBytes := by
  obtain ⟨-, -, -, -, -, -, hword, -⟩ := commandWordsFollowTheirFormats
  refine ⟨hword, fun s n hf => ⟨fun hn => ?illegal, fun hn hn' => ⟨fun hc => ?held, fun hc =>
    ⟨fun b hb hb' => ?plain, fun hb hb' => ?pair, fun c hb hb' hc0 => ?unstuffed, fun hend => ?ended⟩⟩⟩⟩
  case illegal => exact refuses_of hf rfl (baEns_of_illegal hn)
  case held => exact completes_of hf rfl (baEns_of_ensured hn hn' (ensureBits_of_le hc))
  case plain => exact exec_baEns_congr hf hn hn' (ensureBits_of_read hc (readStuffedByte_of_plain hb hb'))
  case pair => exact exec_baEns_congr hf hn hn' (ensureBits_of_read hc (readStuffedByte_of_pair hb hb'))
  case unstuffed =>
    exact faults_of hf rfl (baEns_of_error hn hn' (ensureBits_of_error hc (readStuffedByte_of_unstuffed hb hb' hc0)))
  case ended => exact faults_of hf rfl (baEns_of_error hn hn' (ensureBits_of_error hc (readStuffedByte_of_end hend)))

/-- BA.RDBITS after BA.ENS: the ensured stream gives up its top bits, or its fault is the fault. -/
theorem exec_baRdbits_of_baEns {s u : State} {n : Nat} (hf : s.status.fault = false) (hn : 1 ≤ n) (hn' : n ≤ 16)
    (hu : exec (.baEns n) s = .next u) :
    exec (.baRdbits n) s = .next (if u.status.fault then u else { u with
      stream := u.stream.keep (u.stream.cnt - n)
      result := BitVec.ofNat 32 (u.stream.acc.toNat / 2 ^ (u.stream.cnt - n) % 2 ^ n) }) := by
  cases he : ensureBits s.src n s.stream with
  | ok _ t =>
    rw [completes_of hf rfl (baEns_of_ensured hn hn' he)] at hu
    cases hu
    rw [if_neg (by simp [hf]), completes_of hf rfl (baRdbits_of_read hn hn' (readBits_of_ensured hn hn' he))]
    rfl
  | error f t =>
    rw [faults_of hf rfl (baEns_of_error hn hn' he)] at hu
    cases hu
    rw [if_pos (by rfl), faults_of hf rfl (baRdbits_of_error hn hn' (readBits_of_error hn he))]

/-- BA.RCVX after BA.RDBITS: the same stream, and EXTEND of the result, or the same fault. -/
theorem exec_baRcvx_of_baRdbits {s u : State} {n : Nat} (hf : s.status.fault = false) (hn : 1 ≤ n) (hn' : n ≤ 16)
    (hu : exec (.baRdbits n) s = .next u) :
    exec (.baRcvx n) s = .next (if u.status.fault then u else { u with
      result := if u.result.toNat < 2 ^ (n - 1) then w32 (u.result.toNat - 2 ^ n + 1) else u.result }) := by
  cases hr : readBits s.src n s.stream with
  | ok v t =>
    rw [completes_of hf rfl (baRdbits_of_read hn hn' hr)] at hu
    cases hu
    rw [if_neg (by simp [hf]), completes_of hf rfl (baRcvx_of_read hn hn' hr), w32_extend hn' (readBits_lt hn hn' hr)]
    rfl
  | error f t =>
    rw [faults_of hf rfl (baRdbits_of_error hn hn' hr)] at hu
    cases hu
    rw [if_pos (by rfl), faults_of hf rfl (baRcvx_of_error hn hn' hr)]

/-- Settles O29: ReadBits is EnsureBits and then a cut of the bits held, ReceiveExtend is ReadBits and then EXTEND. -/
theorem bitReadsFromTheAccumulator : Obligations.BitReadsFromTheAccumulator := by
  obtain ⟨-, -, -, -, -, -, -, hrdbit, hrdbits, hrcvx, -⟩ := commandWordsFollowTheirFormats
  refine ⟨hrdbit, hrdbits, hrcvx, fun s n hf => ⟨fun hn => ?illegalBits, fun hn => ?illegalExtend, ?oneBit, ?noBits,
    fun hn hn' => ⟨fun u hu => ?bits, fun u hu => ?extended⟩⟩⟩
  case illegalBits => exact refuses_of hf rfl (baRdbits_of_illegal hn)
  case illegalExtend => exact refuses_of hf rfl (baRcvx_of_illegal hn)
  case oneBit => exact congrArg (fun body => Host.Outcome.next (s.runCommand body)) baRdbits_one.symm
  case noBits => exact completes_of hf rfl (baRcvx_zero s)
  case bits => rw [exec_baRdbits_of_baEns hf hn hn' hu, Stream.keep, lowBits_eq_ofNat]
  case extended => exact exec_baRcvx_of_baRdbits hf hn hn' hu

end Sys2Proof.Machine
end

section
/-! The table build (`43_huffman.md`): the loops of R152 and R153 give the fields of the table HT.BUILD makes. -/

namespace Sys2Proof.Machine

open Sys2Proof.Reference

/-! ### The loop of R152 (numbering and check 3 of R151) -/

section
variable (counts : Vector Byte 16)

/-- minCode, maxCode and valsIndex of length `L` (R152). -/
def numberingRow (L : Nat) : Int × Int × Int :=
  (orAbsent counts L (codeAt counts L), orAbsent counts L (codeAt counts L + countOf counts L - 1),
    orAbsent counts L (countUpTo counts (L - 1)))

theorem numberingRow_of_codes {L : Nat} (h : countOf counts L ≠ 0) :
    numberingRow counts L = ((codeAt counts L : Int), (codeAt counts L : Int) + countOf counts L - 1, (countUpTo counts (L - 1) : Int)) := by
  simp only [numberingRow, orAbsent, if_neg h, Prod.mk.injEq, true_and, and_true]
  omega

theorem numberingRow_of_no_codes {L : Nat} (h : countOf counts L = 0) : numberingRow counts L = (-1, -1, -1) := by
  simp only [numberingRow, orAbsent, if_pos h]

/-- From length `L + 1` on, `code` is `codeAt (L + 1)` and `idx` is `countUpTo L`. -/
theorem numbering_countOf (L k : Nat) :
    numbering ((List.range' (L + 1) k).map (countOf counts)) (codeAt counts (L + 1)) (countUpTo counts L) =
      (List.range' (L + 1) k).map (numberingRow counts) := by
  induction k generalizing L with
  | zero => rfl
  | succ k ih =>
    rw [List.range'_succ, List.map_cons, List.map_cons, numbering]
    refine congrArg₂ List.cons ?_ (ih (L + 1))
    split
    · rw [numberingRow_of_no_codes _ ‹_›]
    · rw [numberingRow_of_codes _ ‹_›, Nat.add_sub_cancel]

theorem overfull_countOf (L k : Nat) :
    overfull ((List.range' L k).map (countOf counts)) L (codeAt counts L) = (List.range' L k).any (oversubscribedAt counts) := by
  induction k generalizing L with
  | zero => rfl
  | succ k ih =>
    rw [List.range'_succ, List.map_cons, List.any_cons, overfull]
    exact congrArg (oversubscribedAt counts L || ·) (ih (L + 1))

theorem countUpTo_add_sum (L k : Nat) :
    countUpTo counts L + ((List.range' (L + 1) k).map (countOf counts)).sum = countUpTo counts (L + k) := by
  induction k generalizing L with
  | zero => rfl
  | succ k ih =>
    rw [List.range'_succ, List.map_cons, List.sum_cons, ← Nat.add_assoc, ← countUpTo, ih, Nat.succ_add, Nat.add_succ]

/-- The counts of the lengths 1..16, as the loop of R152 takes them. -/
def countList : List Nat := (List.range' 1 16).map (countOf counts)

theorem sum_countList : (countList counts).sum = totalCodes counts :=
  (Nat.zero_add _).symm.trans (countUpTo_add_sum counts 0 16)

theorem overfull_countList : overfull (countList counts) 1 0 = oversubscribed counts := overfull_countOf counts 1 16

theorem numbering_countList : numbering (countList counts) 0 0 = (List.range' 1 16).map (numberingRow counts) :=
  numbering_countOf counts 0 16

/-- Entry `L - 1` of a list over the lengths 1..16 speaks of length `L`. -/
theorem getElem?_map_lengths {α : Type} (g : Nat → α) {L : Nat} (h : 1 ≤ L) (h' : L ≤ 16) :
    ((List.range' 1 16).map g)[L - 1]? = some (g L) := by
  rw [List.getElem?_map, List.getElem?_range' (by omega), Option.map_some, show 1 + 1 * (L - 1) = L by omega]

/-- Checks 2 and 3 of R151 on the list. -/
theorem countsLegal_iff_countList :
    countsLegal counts = true ↔
      (countList counts).sum ≠ 0 ∧ (countList counts).sum ≤ 256 ∧ overfull (countList counts) 1 0 = false := by
  rw [sum_countList, overfull_countList]
  simp [countsLegal, and_assoc]

end

theorem countList_buildCounts (m : Memory) : countList (buildCounts m) = (List.range 16).map fun i => (m.byte i).toNat := by
  rw [countList, List.range'_eq_map_range, List.map_map]
  refine List.map_congr_left fun i hi => ?_
  rw [Function.comp_apply, Nat.add_comm, countOf_succ (buildCounts m) ⟨i, List.mem_range.mp hi⟩]
  simp [buildCounts]

/-! ### The loops of R153 (the fast table) -/

/-- A loop of updates, seen at one place `a` that only the round `q - base` writes. -/
theorem foldl_range_update {α β : Type} {f : (α → β) → Nat → α → β} {a : α} {base q : Nat} {v : Nat → β}
    (hf : ∀ g k, f g k a = if q = base + k then v k else g a) (n : Nat) (g : α → β) :
    (List.range n).foldl f g a = if base ≤ q ∧ q < base + n then v (q - base) else g a := by
  induction n with
  | zero => rw [if_neg (by omega)]; rfl
  | succ n ih =>
    rw [List.range_succ, List.foldl_append, List.foldl_cons, List.foldl_nil, hf, ih]
    by_cases hq : q = base + n
    · rw [if_pos hq, if_pos (by omega), hq, Nat.add_sub_cancel_left]
    · rw [if_neg hq]
      exact if_congr (by omega) rfl rfl

/-- A loop of updates, seen at one place `a` that at most one round writes. -/
theorem foldl_update {α β ι : Type} {f : (α → β) → ι → α → β} {a : α} {P : ι → Bool} {v : ι → β}
    (hf : ∀ g x, f g x a = if P x then v x else g a) {xs : List ι} (hx : xs.Pairwise fun x y => P x = true → P y = false) (g : α → β) :
    xs.foldl f g a = ((xs.find? P).map v).getD (g a) := by
  induction xs generalizing g with
  | nil => rfl
  | cons x xs ih =>
    obtain ⟨hfirst, hrest⟩ := List.pairwise_cons.mp hx
    rw [List.foldl_cons, ih hrest, hf, List.find?_cons]
    cases hP : P x with
    | true =>
      have hnone : xs.find? P = none := List.find?_eq_none.mpr fun y hy => by simp [hfirst y hy hP]
      simp [hnone]
    | false => simp

section
variable (count first index : Nat → Nat)

/-- The loops of R153 for length `L` write the entry of `i`. -/
def fillsAt (i L : Nat) : Bool := decide (first L ≤ i >>> (8 - L) ∧ i >>> (8 - L) < first L + count L)

/-- What the loops of R153 leave at `i`, when no two lengths write there. -/
theorem lutFill_eq_find (symbol : Nat → Byte) {i : Nat}
    (hone : (List.range' 1 8).Pairwise fun L M => fillsAt count first i L = true → fillsAt count first i M = false) :
    lutFill count first index symbol i =
      (((List.range' 1 8).find? (fillsAt count first i)).map fun L =>
        symbol (index L + (i >>> (8 - L) - first L)) ++ BitVec.ofNat 8 (L + 1)).getD 0 := by
  refine foldl_update (fun lut L => ?_) hone _
  rw [fillsAt]
  simp only [decide_eq_true_eq]
  refine foldl_range_update (v := fun j => symbol (index L + j) ++ BitVec.ofNat 8 (L + 1)) (fun lut j => ?_) _ _
  rw [foldl_range_update (base := (first L + j) * 2 ^ (8 - L)) (q := i) (v := fun _ => symbol (index L + j) ++ BitVec.ofNat 8 (L + 1))
    fun _ _ => rfl]
  refine if_congr ?_ rfl rfl
  rw [Nat.shiftRight_eq_div_pow, Nat.div_eq_iff (Nat.two_pow_pos _)]
  have := Nat.two_pow_pos (8 - L)
  omega

end

/-! ### No two lengths write the same entry (R154 (a)) -/

/-- The codes of a longer length begin past the codes of a shorter one. -/
theorem codes_shiftLeft_le_codeAt (counts : Vector Byte 16) (L d : Nat) :
    (codeAt counts L + countOf counts L) * 2 ^ (d + 1) ≤ codeAt counts (L + (d + 1)) := by
  induction d with
  | zero => rw [codeAt_succ]; omega
  | succ d ih =>
    rw [← Nat.add_assoc L, codeAt_succ, pow_succ, ← Nat.mul_assoc]
    omega

/-- The leading bits of `i` are a code of at most one length. -/
theorem isCode_shiftRight_unique (counts : Vector Byte 16) (i : Nat) {L M : Nat} (hLM : L < M) (hM : M ≤ 8)
    (h : isCode counts L (i >>> (8 - L)) = true) : isCode counts M (i >>> (8 - M)) = false := by
  obtain ⟨d, rfl⟩ : ∃ d, M = L + (d + 1) := ⟨M - L - 1, by omega⟩
  have hle := codes_shiftLeft_le_codeAt counts L d
  have hshift : i >>> (8 - L) = i >>> (8 - (L + (d + 1))) / 2 ^ (d + 1) := by
    rw [← Nat.shiftRight_eq_div_pow, ← Nat.shiftRight_add]
    congr 1; omega
  rw [isCode_iff, hshift] at h
  rw [← Bool.not_eq_true, isCode_iff]
  have := Nat.lt_mul_of_div_lt h.2 (Nat.two_pow_pos _)
  omega

/-- With the first codes of R152 the rounds of R153 that write the entry of `i` are those for which it begins with a code. -/
theorem fillsAt_numberingRow (counts : Vector Byte 16) (i L : Nat) :
    fillsAt (countOf counts) (fun L => (numberingRow counts L).1.toNat) i L = isCode counts L (i >>> (8 - L)) := by
  rw [Bool.eq_iff_iff, isCode_iff, fillsAt, decide_eq_true_eq]
  by_cases hc : countOf counts L = 0
  · omega
  · rw [numberingRow_of_codes _ hc, Int.toNat_natCast]

/-- The loops of R153 look only at the lengths 1..8. -/
theorem lutFill_congr {count count' first first' index index' : Nat → Nat} (symbol : Nat → Byte)
    (h : ∀ L, 1 ≤ L → L ≤ 8 → count L = count' L ∧ first L = first' L ∧ index L = index' L) :
    lutFill count first index symbol = lutFill count' first' index' symbol := by
  refine List.foldl_ext _ _ _ fun lut L hL => ?_
  obtain ⟨hge, hlt⟩ := List.mem_range'_1.mp hL
  obtain ⟨hcount, hfirst, hindex⟩ := h L hge (by omega)
  rw [hcount, hfirst, hindex]

theorem pairwise_isCode_shiftRight (counts : Vector Byte 16) (i : Nat) :
    (List.range' 1 8).Pairwise fun L M => isCode counts L (i >>> (8 - L)) = true → isCode counts M (i >>> (8 - M)) = false := by
  refine List.Pairwise.imp_of_mem (fun _ hM hLM => ?_) List.pairwise_lt_range'
  rw [List.mem_range'_1] at hM
  exact isCode_shiftRight_unique counts i hLM (by omega)

/-- With the rows of R152 the loops of R153 leave the fast table of the built table. -/
theorem lutFill_numberingRow {counts : Vector Byte 16} (hl : countsLegal counts = true) (symbol : Nat → Byte) (i : Fin 256) :
    lutFill (countOf counts) (fun L => (numberingRow counts L).1.toNat) (fun L => (numberingRow counts L).2.2.toNat) symbol i.val =
      (buildTable counts symbol).lut[i] := by
  obtain ⟨-, htotal, -⟩ := (countsLegal_iff counts).mp hl
  rw [lutFill_eq_find _ _ _ _ (by simpa only [fillsAt_numberingRow] using pairwise_isCode_shiftRight counts i.val), buildTable_lut, lutEntry,
    funext (fillsAt_numberingRow counts i.val)]
  cases hfind : (List.range' 1 8).find? fun L => isCode counts L (i.val >>> (8 - L)) with
  | none => rfl
  | some L =>
    have hmem := List.mem_range'_1.mp (List.mem_of_find?_eq_some hfind)
    have hcode := List.find?_some hfind
    rw [isCode_iff] at hcode
    obtain ⟨K, rfl⟩ : ∃ K, L = K + 1 := ⟨L - 1, by omega⟩
    have hindex := index_lt_total (counts := counts) (L := K) (j := i.val >>> (8 - (K + 1)) - codeAt counts (K + 1)) (by omega) (by omega)
    have hval := buildTable_vals counts symbol ⟨_, hindex.trans_le htotal⟩
    rw [if_pos hindex, Fin.getElem_fin] at hval
    have hc : countOf counts (K + 1) ≠ 0 := by omega
    simp only [numberingRow_of_codes _ hc, Int.toNat_natCast, Nat.add_sub_cancel, Option.map_some, Option.getD_some,
      Vector.getElem?_eq_getElem (hindex.trans_le htotal), hval]

/-! ### HT.BUILD -/

theorem htBuild_of_illegal {tc th : Nat} {s : State} (h : 1 < tc ∨ 3 < th ∨ countsLegal (buildCounts s.pram) = false) :
    htBuild tc th s = .error .invalidTable s := by
  rw [htBuild]
  split
  next hc hh =>
    obtain htc | hth | hl := h
    · simp [classOf_eq_none htc] at hc
    · simp [slotOf_eq_none hth] at hh
    · rw [if_neg (by simp [hl])]
  next => rfl

theorem htBuild_of_legal {s : State} (tc : Fin 2) (th : Fin 4) (h : countsLegal (buildCounts s.pram) = true) :
    htBuild tc.val th.val s = .ok (BitVec.ofNat 32 (totalCodes (buildCounts s.pram))) (s.setTable tc th (tableOf s.pram)) := by
  simp only [htBuild, classOf_val, slotOf_val, if_pos h]

/-- Settles O32: the loops of the numbering and of the fast table, over the list of counts, give the fields of `tableOf`. -/
theorem htBuildMakesTheCanonicalTable : Obligations.HtBuildMakesTheCanonicalTable := by
  obtain ⟨-, -, -, -, -, -, -, -, -, -, -, hword, -⟩ := commandWordsFollowTheirFormats
  refine ⟨hword, fun s hf => ?_⟩
  rw [← countList_buildCounts]
  have hlegal := countsLegal_iff_countList (buildCounts s.pram)
  have hsum := sum_countList (buildCounts s.pram)
  have hentry : ∀ L, 1 ≤ L → L ≤ 16 →
      (numbering (countList (buildCounts s.pram)) 0 0)[L - 1]?.getD (-1, -1, -1) = numberingRow (buildCounts s.pram) L := fun L h h' => by
    rw [numbering_countList, getElem?_map_lengths _ h h', Option.getD_some]
  refine ⟨fun tc th hbad => ?refused, fun tc th hne hle hfull => ⟨tableOf s.pram, ?built, ?total, fun L => ⟨?counts, ?row⟩, fun i => ?vals,
    fun i => ?lut⟩⟩
  case refused =>
    refine refuses_of hf rfl (htBuild_of_illegal ?_)
    rwa [← Bool.not_eq_true, hlegal, not_and_or, not_and_or, not_ne_iff, not_le, Bool.not_eq_false]
  case built =>
    rw [completes_of hf rfl (htBuild_of_legal tc th (hlegal.mpr ⟨hne, hle, hfull⟩)), hsum]; rfl
  case total => exact hsum.symm
  case counts => simp [tableOf, buildCounts]
  case row =>
    refine Eq.trans ?_ (hentry (L.val + 1) (by omega) (by omega)).symm
    rw [tableOf, buildTable_minCode, buildTable_maxCode, buildTable_valsIndex]; rfl
  case vals => rw [tableOf, buildTable_vals, hsum]
  case lut =>
    rw [tableOf, ← lutFill_numberingRow (hlegal.mpr ⟨hne, hle, hfull⟩)]
    refine congrFun (lutFill_congr _ fun L hL hL8 => ?_) _
    have hrow := (hentry L hL (by omega)).symm
    refine ⟨?_, congrArg (·.1.toNat) hrow, congrArg (·.2.2.toNat) hrow⟩
    rw [countList, getElem?_map_lengths _ hL (by omega), Option.getD_some]

end Sys2Proof.Machine
end

section
/-! The coefficient load commands (`44_coefload.md`): CL.CLR, CL.BLK, CL.DCF, CL.DCR, CL.ACF, CL.ACR, CL.RSTM, CL.SCAN. -/

namespace Sys2Proof.Machine

open Sys2Proof.Reference

/-! ### The reference decoder's answer, taken apart -/

section
variable {src : List Byte} {α β : Type}

theorem Serves.of_ok {m : Bits α} {d : FaultCode → Dec α} (h : Serves src m d) {t : Stream} (ht : t.Inv src.length) {a : α}
    {rest : List Bool} (hd : d (shortage src t) (pending src t) = .ok (a, rest)) :
    ∃ t', m t = .ok a t' ∧ t'.Inv src.length ∧ pending src t' = rest ∧ shortage src t' = shortage src t := by
  have hserved := h t ht
  rwa [hd] at hserved

theorem Serves.of_error {m : Bits α} {d : FaultCode → Dec α} (h : Serves src m d) {t : Stream} (ht : t.Inv src.length) {f : FaultCode}
    (hd : d (shortage src t) (pending src t) = .error f) : ∃ t', m t = .error f t' := by
  have hserved := h t ht
  rw [hd] at hserved
  exact hserved.imp fun _ => And.left

variable {w : Walk α} {d : FaultCode → Dec β} {l : Load} {out : α → Load → β → Prop} {short : FaultCode} {bits : List Bool}

theorem WalkServes.of_ok (h : WalkServes src w d l out) (hs : shortage src l.stream = short) (hp : pending src l.stream = bits) {b : β}
    {rest : List Bool} (hd : d short bits = .ok (b, rest)) :
    ∃ a l', w l = .ok a l' ∧ out a l' b ∧ l'.stream.Inv src.length ∧ pending src l'.stream = rest := by
  unfold WalkServes at h
  rw [hs, hp, hd] at h
  obtain ⟨a, l', hw, hout, hinv, hrest, -⟩ := h
  exact ⟨a, l', hw, hout, hinv, hrest⟩

theorem WalkServes.of_error (h : WalkServes src w d l out) (hs : shortage src l.stream = short) (hp : pending src l.stream = bits)
    {f : FaultCode} (hd : d short bits = .error f) : ∃ l', w l = .error f l' := by
  unfold WalkServes at h
  rw [hs, hp, hd] at h
  exact h.imp fun _ => And.left

end

/-! ### Bodies -/

/-- A body that fails raises its fault, whatever it has written of the items it may write. -/
theorem raises_of_touches {i : Instr} {s u : State} {body : Cmd Word} {f : FaultCode} {ws : List Item} {fs : List FaultCode}
    (hf : s.status.fault = false) (he : exec i s = .next (s.runCommand body)) (ht : Touches ws fs body) (hb : body s = .error f u) :
    raises i s f := by
  obtain ⟨-, hframe⟩ := (ht s).2 f u hb
  exact raises_of hf he hb hframe.status hframe.same.cmd hframe.result hframe.ccnt

/-- A body that is one block walk. -/
def walkCommand (p : List Byte → Walk Unit) : Cmd Word := do
  onLoad p
  pure 0

section
variable {s : State} {p : List Byte → Walk Unit} {l : Load}

theorem walkCommand_of_ok (h : p s.src s.load = .ok () l) : walkCommand p s = .ok 0 (s.withLoad l) := by
  rw [walkCommand, bind_ok (onLoad_ok h), pure_apply]

theorem walkCommand_of_error {f : FaultCode} (h : p s.src s.load = .error f l) : walkCommand p s = .error f (s.withLoad l) :=
  bind_error (onLoad_error h)

/-- A command whose body is a walk over a band does what the decoder of that band does on the pending bits. -/
theorem exec_walkCommand {i : Instr} {body : Cmd Word} {d : FaultCode → Dec (Vector Word 64 × Nat)} {bound : Nat}
    (hf : s.status.fault = false) (he : exec i s = .next (s.runCommand body)) (hb : body s = walkCommand p s)
    (h : WalkServes s.src (p s.src) d s.load fun _ l r => l.coef = r.1 ∧ l.eobrun = BitVec.ofNat 16 r.2 ∧ r.2 ≤ bound) :
    (∀ c run rest, d (shortage s.src s.stream) (pending s.src s.stream) = .ok ((c, run), rest) → ∃ t,
        exec i s = .next { s with stream := t, coef := c, eobrun := BitVec.ofNat 16 run, result := 0, ccnt := s.ccnt + 1 } ∧
        pending s.src t = rest ∧ t.Inv s.src.length) ∧
      ∀ f, d (shortage s.src s.stream) (pending s.src s.stream) = .error f → raises i s f := by
  refine ⟨fun c run rest hd => ?_, fun f hd => ?_⟩
  · obtain ⟨⟨⟩, ⟨t, c', eob⟩, hw, ⟨hc, heob, -⟩, hinv, hrest⟩ := h.of_ok rfl rfl hd
    obtain rfl : c' = c := hc
    obtain rfl : eob = BitVec.ofNat 16 run := heob
    exact ⟨t, completes_of hf he (hb.trans (walkCommand_of_ok hw)), hrest, hinv⟩
  · obtain ⟨l, hw⟩ := h.of_error rfl rfl hd
    exact raises_of hf he (hb.trans (walkCommand_of_error hw)) rfl rfl rfl rfl

end

/-! ### Operands -/

theorem alLegal_of_le {al : Nat} (h : al ≤ 13) : alLegal al = true := decide_eq_true h

theorem alLegal_of_lt {al : Nat} (h : 13 < al) : alLegal al = false := decide_eq_false (Nat.not_le.mpr h)

/-- The operands of a band command that name no band or no slot. -/
theorem bandOperands_of_illegal {slot ss se al : Nat} (h : 13 < al ∨ 3 < slot ∨ ss = 0 ∨ se < ss) :
    (alLegal al && bandLegal ss se) = false ∨ slotOf slot = none := by
  obtain h | h | h | h := h
  · exact .inl (by rw [alLegal_of_lt h, Bool.false_and])
  · exact .inr (slotOf_eq_none h)
  · exact .inl (by simp [bandLegal, h])
  · exact .inl (by simp [bandLegal, h])

theorem bandOperands_of_legal {ss se al : Nat} (hal : al ≤ 13) (hss : 1 ≤ ss) (hse : ss ≤ se) (hse' : se ≤ 63) :
    (alLegal al && bandLegal ss se) = true := by
  simp [alLegal_of_le hal, bandLegal, hse, hse', Nat.ne_zero_of_lt hss]

/-! ### CL.BLK -/

section
variable {s : State} {comp : Fin 4}

theorem clBlk_of_illegal {td ta : Nat} (h : 3 < td ∨ 3 < ta) : clBlk comp td ta s = .error .illegalOperand s := by
  refine congrFun (?_ : clBlk comp td ta = throw .illegalOperand) s
  rw [clBlk]
  split
  next hd ha =>
    obtain h | h := h
    · simp [slotOf_eq_none h] at hd
    · simp [slotOf_eq_none h] at ha
  next => rfl

/-- Where the AC walk of CL.BLK starts: `diff` is decoded and `t` is the stream after it. -/
def State.blockStart (s : State) (comp : Fin 4) (diff : Int) (t : Stream) : State :=
  { s with stream := t, coef := clearedCoef.set 0 (s.dcpred[comp] + w32 diff), dcpred := s.dcpred.set comp (s.dcpred[comp] + w32 diff) }

variable {td ta : Fin 4} {t : Stream}

theorem clBlk_of_dcFault {f : FaultCode} (h : decodeDcDiff s.src s.ht[0][td] s.stream = .error f t) :
    clBlk comp td.val ta.val s = .error f { s with stream := t, coef := clearedCoef } := by
  simp only [clBlk, slotOf_val, bind_ok (get_apply _), bind_ok (modify_apply _ _)]
  exact bind_error (onStream_error h)

theorem clBlk_of_diff {diff : Int} (h : decodeDcDiff s.src s.ht[0][td] s.stream = .ok diff t) :
    clBlk comp td.val ta.val s = walkCommand (fun src => blkLoop src s.ht[1][ta] 64 1) (s.blockStart comp diff t) := by
  simp only [clBlk, slotOf_val, bind_ok (get_apply _), bind_ok (modify_apply _ _)]
  rw [bind_ok (onStream_ok h)]
  simp [bind_ok (modify_apply _ _), State.addPred, State.setDc, State.blockStart, walkCommand]

end

section
variable {short : FaultCode} {dc ac : HuffTable} {pred : Word} {bs bs' : List Bool}

theorem block_of_dcFault {f : FaultCode} (h : dcDiff short dc bs = .error f) : block short dc ac pred bs = .error f :=
  dec_bind_error h

theorem block_of_acFault {diff : Int} {f : FaultCode} (h : dcDiff short dc bs = .ok (diff, bs'))
    (h' : blockAc short ac 64 1 (clearedCoef.set 0 (pred + w32 diff)) bs' = .error f) : block short dc ac pred bs = .error f :=
  (dec_bind_ok h).trans (dec_bind_error h')

theorem block_of_ok {diff : Int} {c : Vector Word 64} {rest : List Bool} (h : dcDiff short dc bs = .ok (diff, bs'))
    (h' : blockAc short ac 64 1 (clearedCoef.set 0 (pred + w32 diff)) bs' = .ok (c, rest)) :
    block short dc ac pred bs = .ok ((pred + w32 diff, c), rest) :=
  (dec_bind_ok h).trans (dec_bind_ok h')

end

/-- Settles O40: the DC part, then the walk over the AC positions, each against its part of the block decoder. -/
theorem clBlkDecodesABaselineBlock : Obligations.ClBlkDecodesABaselineBlock := by
  refine ⟨fun s comp td ta hf h => refuses_of hf rfl (clBlk_of_illegal h), fun s comp td ta hf hi => ?_⟩
  have hdc := decodeDcDiff_serves s.src (hi.dcTable td)
  have htouches := clBlk_touches comp td.val ta.val
  cases hd : dcDiff (shortage s.src s.stream) s.ht[0][td] (pending s.src s.stream) with
  | error f =>
    obtain ⟨t, ht⟩ := hdc.of_error hi.stream hd
    rw [block_of_dcFault hd]
    exact raises_of_touches hf rfl htouches (clBlk_of_dcFault ht)
  | ok answer =>
    obtain ⟨diff, bits⟩ := answer
    obtain ⟨t, ht, hinv, hbits, hshort⟩ := hdc.of_ok hi.stream hd
    have hac := blkLoop_serves (hi.acTable ta) 64 1 (s.blockStart comp diff t).load hinv
    cases hc : blockAc (shortage s.src s.stream) s.ht[1][ta] 64 1 (clearedCoef.set 0 (s.dcpred[comp] + w32 diff)) bits with
    | error f =>
      obtain ⟨l, hl⟩ := hac.of_error hshort hbits hc
      rw [block_of_acFault hd hc]
      exact raises_of_touches hf rfl htouches ((clBlk_of_diff ht).trans (walkCommand_of_error hl))
    | ok answer =>
      obtain ⟨c, rest⟩ := answer
      obtain ⟨⟨⟩, ⟨u, c', eob⟩, hl, ⟨hcoef, heob⟩, hinv', hrest⟩ := hac.of_ok hshort hbits hc
      obtain rfl : c' = c := hcoef
      obtain rfl : eob = s.eobrun := heob
      rw [block_of_ok hd hc]
      exact ⟨u, completes_of hf rfl ((clBlk_of_diff ht).trans (walkCommand_of_ok hl)), hrest, hinv'⟩

/-! ### CL.ACF and CL.ACR -/

section
variable {s : State} {ss se al : Nat}

theorem clAcf_of_illegal {slot : Nat} (h : 13 < al ∨ 3 < slot ∨ ss = 0 ∨ se < ss) : clAcf slot ss se al s = .error .illegalOperand s := by
  refine congrFun (?_ : clAcf slot ss se al = throw .illegalOperand) s
  rw [clAcf]
  split
  next hband hslot => simpa [hband, hslot] using bandOperands_of_illegal h
  next => rfl

theorem clAcr_of_illegal {slot : Nat} (h : 13 < al ∨ 3 < slot ∨ ss = 0 ∨ se < ss) : clAcr slot ss se al s = .error .illegalOperand s := by
  refine congrFun (?_ : clAcr slot ss se al = throw .illegalOperand) s
  rw [clAcr]
  split
  next hband hslot => simpa [hband, hslot] using bandOperands_of_illegal h
  next => rfl

variable (slot : Fin 4) (hal : al ≤ 13) (hss : 1 ≤ ss) (hse : ss ≤ se) (hse' : se ≤ 63)
include hal hss hse hse'

theorem clAcf_of_legal : clAcf slot.val ss se al s = walkCommand (fun src => acfWalk src s.ht[1][slot] ss se al) s := by
  rw [clAcf, bandOperands_of_legal hal hss hse hse', slotOf_val]
  exact bind_ok (get_apply s)

theorem clAcr_of_legal : clAcr slot.val ss se al s = walkCommand (fun src => acrWalk src s.ht[1][slot] ss se al) s := by
  rw [clAcr, bandOperands_of_legal hal hss hse hse', slotOf_val]
  exact bind_ok (get_apply s)

end

theorem acfWalk_of_run {src : List Byte} {T : HuffTable} {ss se al : Nat} {l : Load} (h : l.eobrun ≠ 0) :
    acfWalk src T ss se al l = .ok () l.countEob := by
  rw [acfWalk, bind_ok (get_apply l), if_pos h, modify_apply]

/-- Settles O44: the body is one walk, which counts down a run that is on and follows the band decoder otherwise. -/
theorem clAcfDecodesABand : Obligations.ClAcfDecodesABand := by
  refine ⟨fun s slot ss se al hf h => refuses_of hf rfl (clAcf_of_illegal h), fun s slot ss se al hf hal hss hse hse' => ?_⟩
  have hbody := clAcf_of_legal (s := s) slot hal hss hse hse'
  refine ⟨fun hrun => completes_of hf rfl (hbody.trans (walkCommand_of_ok (acfWalk_of_run hrun))), fun hrun hi => ?_⟩
  obtain ⟨hok, herror⟩ := exec_walkCommand (i := .clAcf slot.val ss se al) hf rfl hbody
    (acfWalk_serves (hi.acTable slot) ss se al s.load hi.stream hrun)
  split
  next c run rest hd => exact hok c run rest hd
  next f hd => exact herror f hd

/-- Settles O45: the body is one walk, which follows the refinement decoder. -/
theorem clAcrRefinesABand : Obligations.ClAcrRefinesABand := by
  refine ⟨fun s slot ss se al hf h => refuses_of hf rfl (clAcr_of_illegal h), fun s slot ss se al hf hi hal hss hse hse' => ?_⟩
  have hbody := clAcr_of_legal (s := s) slot hal hss hse hse'
  obtain ⟨hok, herror⟩ := exec_walkCommand (i := .clAcr slot.val ss se al) hf rfl hbody
    (acrWalk_serves (hi.acTable slot) ss se hal s.load hi.stream hi.eobrun_le)
  split
  next c run rest hd => exact hok c run rest hd
  next f hd => exact herror f hd

/-! ### CL.DCF and CL.DCR -/

section
variable {s : State} {comp : Fin 4} {al : Nat}

theorem clDcf_of_illegal {slot : Nat} (h : 13 < al ∨ 3 < slot) : clDcf comp slot al s = .error .illegalOperand s := by
  refine congrFun (?_ : clDcf comp slot al = throw .illegalOperand) s
  rw [clDcf]
  split
  next hal hslot =>
    obtain h | h := h
    · simp [alLegal_of_lt h] at hal
    · simp [slotOf_eq_none h] at hslot
  next => rfl

variable {slot : Fin 4} {t : Stream} (hal : al ≤ 13)
include hal

theorem clDcf_of_dcFault {f : FaultCode} (h : decodeDcDiff s.src s.ht[0][slot] s.stream = .error f t) :
    clDcf comp slot.val al s = .error f { s with stream := t } := by
  simp only [clDcf, alLegal_of_le hal, slotOf_val, bind_ok (get_apply _)]
  exact bind_error (onStream_error h)

theorem clDcf_of_diff {diff : Int} (h : decodeDcDiff s.src s.ht[0][slot] s.stream = .ok diff t) :
    clDcf comp slot.val al s = .ok 0 { s with
      stream := t, dcpred := s.dcpred.set comp (s.dcpred[comp] + w32 diff)
      coef := s.coef.set 0 ((s.dcpred[comp] + w32 diff) <<< al) } := by
  simp only [clDcf, alLegal_of_le hal, slotOf_val, bind_ok (get_apply _)]
  rw [bind_ok (onStream_ok h)]
  simp only [bind_ok (modify_apply _ _), pure_apply]
  simp [State.addPred, State.setDc]

end

theorem clDcr_of_illegal {s : State} {al : Nat} (h : 13 < al) : clDcr al s = .error .illegalOperand s := by
  rw [clDcr, if_neg (by simp [alLegal_of_lt h]), throw_apply]

/-- 1 << al, as CL.DCR's claims write it. -/
theorem bitAt_eq_ofNat (al : Nat) : bitAt al = BitVec.ofNat 32 (2 ^ al) :=
  BitVec.eq_of_toNat_eq (by rw [bitAt, BitVec.toNat_twoPow, BitVec.toNat_ofNat])

section
variable {s : State} {al : Nat} {t : Stream} (hal : al ≤ 13)
include hal

theorem clDcr_of_error {f : FaultCode} (h : readBit s.src s.stream = .error f t) : clDcr al s = .error f { s with stream := t } := by
  rw [clDcr, if_pos (alLegal_of_le hal), bind_error (onStream_error h)]

theorem clDcr_of_bit {b : Nat} (h : readBit s.src s.stream = .ok b t) :
    clDcr al s = .ok 0 { s with
      stream := t, coef := if b = 1 then s.coef.set 0 (s.coef[0] ||| BitVec.ofNat 32 (2 ^ al)) else s.coef } := by
  rw [clDcr, if_pos (alLegal_of_le hal), bind_ok (onStream_ok h), bind_ok (modify_apply _ _), pure_apply, ← bitAt_eq_ofNat]
  split <;> rfl

end

/-! ### The parts of CL.DCF and CL.DCR as commands of their own -/

section
variable {s : State} {t : Stream}

theorem baRdbit_of_bit {b : Nat} (h : readBit s.src s.stream = .ok b t) : baRdbit s = .ok (BitVec.ofNat 32 b) { s with stream := t } := by
  rw [baRdbit, bind_ok (onStream_ok h), pure_apply]

theorem baRdbit_of_error {f : FaultCode} (h : readBit s.src s.stream = .error f t) : baRdbit s = .error f { s with stream := t } :=
  bind_error (onStream_error h)

theorem baRcvx_of_value {n : Nat} {v : Int} (hn : n ≤ 16) (h : receiveExtend s.src n s.stream = .ok v t) :
    baRcvx n s = .ok (w32 v) { s with stream := t } := by
  rw [baRcvx, if_neg (Nat.not_lt.mpr hn), bind_ok (onStream_ok h), pure_apply]

theorem baRcvx_of_fault {n : Nat} {f : FaultCode} (hn : n ≤ 16) (h : receiveExtend s.src n s.stream = .error f t) :
    baRcvx n s = .error f { s with stream := t } := by
  rw [baRcvx, if_neg (Nat.not_lt.mpr hn), bind_error (onStream_error h)]

variable {tc : Fin 2} {th : Fin 4}

theorem htDec_of_symbol {b : Byte} (h : huffDecode s.src s.ht[tc][th] s.stream = .ok b t) :
    htDec tc.val th.val s = .ok (b.setWidth 32) { s with stream := t } := by
  simp only [htDec, classOf_val, slotOf_val, bind_ok (get_apply _)]
  rw [bind_ok (onStream_ok h), pure_apply]

theorem htDec_of_fault {f : FaultCode} (h : huffDecode s.src s.ht[tc][th] s.stream = .error f t) :
    htDec tc.val th.val s = .error f { s with stream := t } := by
  simp only [htDec, classOf_val, slotOf_val, bind_ok (get_apply _)]
  exact bind_error (onStream_error h)

end

section
variable {src : List Byte} {T : HuffTable} {t t' : Stream} {b : Byte}

theorem decodeDcDiff_of_symbolFault {f : FaultCode} (h : huffDecode src T t = .error f t') : decodeDcDiff src T t = .error f t' :=
  bind_error h

theorem decodeDcDiff_of_bigSize (h : huffDecode src T t = .ok b t') (hb : 16 < b.toNat) :
    decodeDcDiff src T t = .error .badCoefficientSize t' := by
  rw [decodeDcDiff, bind_ok h, if_pos hb, throw_apply]

theorem decodeDcDiff_of_size (h : huffDecode src T t = .ok b t') (hb : b.toNat ≤ 16) :
    decodeDcDiff src T t = receiveExtend src b.toNat t' := by
  rw [decodeDcDiff, bind_ok h, if_neg (Nat.not_lt.mpr hb)]

end

/-- Settles O41: the size is decoded or not, is legal or not, and the field of that size is received or not. -/
theorem clDcfAccumulatesTheDifference : Obligations.ClDcfAccumulatesTheDifference := by
  obtain ⟨-, -, -, -, -, -, -, -, -, -, -, -, -, -, -, hword, -⟩ := commandWordsFollowTheirFormats
  refine ⟨hword, fun s comp slot al hf => ⟨fun h => refuses_of hf rfl (clDcf_of_illegal h), fun hal hslot u hu => ?_⟩⟩
  lift slot to Fin 4 using Nat.lt_succ_of_le hslot
  cases hsym : huffDecode s.src s.ht[0][slot] s.stream with
  | error f t =>
    cases hu.symm.trans (faults_of hf rfl (htDec_of_fault (tc := 0) hsym))
    exact ⟨fun _ => faults_of hf rfl (clDcf_of_dcFault hal (decodeDcDiff_of_symbolFault hsym)), fun h _ => (nomatch h), fun h _ => nomatch h⟩
  | ok b t =>
    cases hu.symm.trans (completes_of hf rfl (htDec_of_symbol (tc := 0) hsym))
    have hsize : (b.setWidth 32).toNat = b.toNat := BitVec.toNat_setWidth_of_le (by decide)
    refine ⟨fun h => by simp [hf] at h, fun _ hbig => ?_, fun _ hle v hv => ?_⟩
    · rw [State.complete_result, hsize] at hbig
      exact raises_of_touches hf rfl (clDcf_touches comp slot.val al) (clDcf_of_dcFault hal (decodeDcDiff_of_bigSize hsym hbig))
    · rw [State.complete_result, hsize] at hle hv
      have hdiff := decodeDcDiff_of_size hsym hle
      cases hrecv : receiveExtend s.src b.toNat t with
      | error f t' =>
        cases hv.symm.trans (faults_of hf rfl (baRcvx_of_fault hle hrecv))
        exact ⟨fun _ => faults_of hf rfl (clDcf_of_dcFault hal (hdiff.trans hrecv)), fun h => nomatch h⟩
      | ok diff t' =>
        cases hv.symm.trans (completes_of hf rfl (baRcvx_of_value hle hrecv))
        exact ⟨fun h => by simp [hf] at h, fun _ => completes_of hf rfl (clDcf_of_diff hal (hdiff.trans hrecv))⟩

/-- Settles O42: the DC decoder's answer decides CL.DCF, the first pending bit is the one CL.DCR reads. -/
theorem dcCommandsComplete : Obligations.DcCommandsComplete := by
  refine fun s comp slot al hf hi hal => ⟨?_, fun b rest hbits => ?_⟩
  · have hdc := decodeDcDiff_serves s.src (hi.dcTable slot)
    split
    next diff rest hd =>
      obtain ⟨t, ht, hinv, hrest, -⟩ := hdc.of_ok hi.stream hd
      exact ⟨t, completes_of hf rfl (clDcf_of_diff hal ht), hrest, hinv⟩
    next f hd =>
      obtain ⟨t, ht⟩ := hdc.of_error hi.stream hd
      exact raises_of_touches hf rfl (clDcf_touches comp slot.val al) (clDcf_of_dcFault hal ht)
  · have hone : takeBits (shortage s.src s.stream) 1 (pending s.src s.stream) = .ok (b.toNat, rest) := by
      simp [takeBits, hbits, bitsValue]
    obtain ⟨t, ht, hinv, hrest, -⟩ := (readBits_serves s.src (n := 1) (by decide)).of_ok hi.stream hone
    refine ⟨t, ?_, hrest, hinv⟩
    rw [completes_of hf rfl (clDcr_of_bit hal ht)]
    cases b <;> rfl

/-- Settles O43: the bit is read or not; a bit read is 0 or 1. -/
theorem clDcrSetsOneBit : Obligations.ClDcrSetsOneBit := by
  obtain ⟨-, -, -, -, -, -, -, -, -, -, -, -, -, -, -, -, hword, -⟩ := commandWordsFollowTheirFormats
  refine ⟨hword, fun s al hf => ⟨fun h => refuses_of hf rfl (clDcr_of_illegal h), fun hal u hu => ?_⟩⟩
  cases hbit : readBit s.src s.stream with
  | error f t =>
    cases hu.symm.trans (faults_of hf rfl (baRdbit_of_error hbit))
    rw [if_pos (by rfl), faults_of hf rfl (clDcr_of_error hal hbit)]
  | ok b t =>
    cases hu.symm.trans (completes_of hf rfl (baRdbit_of_bit hbit))
    have hb : b < 2 := readBits_lt (n := 1) le_rfl (by decide) hbit
    have hone : BitVec.ofNat 32 b = 1 ↔ b = 1 := by
      rw [← BitVec.toNat_inj, BitVec.toNat_ofNat, Nat.mod_eq_of_lt (by omega)]; rfl
    rw [if_neg (by simp [hf]), completes_of hf rfl (clDcr_of_bit hal hbit)]
    simp only [State.complete_result, hone]
    rfl

/-! ### CL.CLR, CL.SCAN and CL.RSTM -/

/-- Settles O37: the body writes 64 zeros. -/
theorem clClrClearsTheBlock : Obligations.ClClrClearsTheBlock := by
  obtain ⟨-, -, -, -, -, -, -, -, -, -, -, -, -, hword, -⟩ := commandWordsFollowTheirFormats
  exact ⟨hword, fun s hf => ⟨clearedCoef, completes_of (body := clClr) hf rfl rfl, fun n => Vector.getElem_replicate n.isLt⟩⟩

/-- Settles O38: the body writes the values R182 gives and keeps the rest. -/
theorem clScanStartsAScan : Obligations.ClScanStartsAScan := by
  obtain ⟨-, -, -, -, -, -, -, -, -, -, -, -, -, -, -, -, -, -, -, -, hword, -⟩ := commandWordsFollowTheirFormats
  exact ⟨hword, fun s hf => completes_of (body := clScan) hf rfl rfl⟩

/-- Where the cursor is after ReturnOvershoot (R113). -/
def Stream.returnedPos (t : Stream) : Nat := if t.nunrd ≠ 0 ∧ 8 ≤ t.cnt then t.pos - t.nunrd.val else t.pos

/-- ReturnOvershoot cannot fail, whether there is something to give back or not. -/
theorem returnOvershoot_ok (t : Stream) : ∃ m acc cnt, returnOvershoot t = .ok m ⟨t.returnedPos, 0, acc, cnt⟩ := by
  by_cases h : t.nunrd ≠ 0 ∧ 8 ≤ t.cnt
  · rw [Stream.returnedPos, if_pos h]
    exact ⟨_, _, _, returnOvershoot_of_held h.1 h.2⟩
  · rw [Stream.returnedPos, if_neg h]
    refine ⟨_, _, _, returnOvershoot_of_not_held ?_⟩
    rwa [not_and_or, not_ne_iff, not_le] at h

/-- The state once CL.RSTM has read its two raw bytes, with what ReturnOvershoot left in the accumulator. -/
def State.pastMarker (s : State) (acc : Word) (cnt : Nat) : State := { s with stream := ⟨s.stream.returnedPos + 2, 0, acc, cnt⟩ }

section
variable {s : State}

/-- With both bytes there CL.RSTM compares them, then resets or fails. -/
theorem clRstm_of_bytes {b c : Byte} (hb : s.src[s.stream.returnedPos]? = some b) (hc : s.src[s.stream.returnedPos + 1]? = some c) :
    ∃ acc cnt, clRstm s = if b ≠ 0xFF ∨ c ≠ rstMarker s.rstexp then .error .badRestartMarker (s.pastMarker acc cnt)
      else .ok 0 (s.pastMarker acc cnt).restartReset := by
  obtain ⟨m, acc, cnt, hret⟩ := returnOvershoot_ok s.stream
  refine ⟨acc, cnt, ?_⟩
  rw [clRstm, bind_ok (onStream_ok hret), bind_ok (onStream_ok (readByte_of_some hb)), bind_ok (onStream_ok (readByte_of_some hc)),
    bind_ok (get_apply _)]
  dsimp only
  split <;> rfl

theorem clRstm_of_end (h : s.src.length ≤ s.stream.returnedPos + 1) : ∃ u, clRstm s = .error .unexpectedEndOfStream u := by
  obtain ⟨m, acc, cnt, hret⟩ := returnOvershoot_ok s.stream
  rw [clRstm, bind_ok (onStream_ok hret)]
  cases hb : s.src[s.stream.returnedPos]? with
  | none => exact ⟨_, bind_error (onStream_error (readByte_of_end (List.getElem?_eq_none_iff.mp hb)))⟩
  | some b =>
    rw [bind_ok (onStream_ok (readByte_of_some hb))]
    exact ⟨_, bind_error (onStream_error (readByte_of_end h))⟩

end

/-- Settles O39: both raw bytes are there and are compared, or the source ends before them. -/
theorem clRstmTakesTheExpectedMarker : Obligations.ClRstmTakesTheExpectedMarker := by
  obtain ⟨-, -, -, -, -, -, -, -, -, -, -, -, -, -, -, -, -, -, -, hword, -⟩ := commandWordsFollowTheirFormats
  refine ⟨hword, fun s hf => ⟨fun hb hc => ?expected, fun b c hb hc hne => ?other, fun h => ?short⟩⟩
  case expected =>
    obtain ⟨acc, cnt, hbody⟩ := clRstm_of_bytes hb hc
    exact completes_of hf rfl (hbody.trans (if_neg (by simp [rstMarker])))
  case other =>
    obtain ⟨acc, cnt, hbody⟩ := clRstm_of_bytes hb hc
    exact raises_of_touches hf rfl clRstm_touches (hbody.trans (if_pos hne))
  case short =>
    obtain ⟨u, hbody⟩ := clRstm_of_end h
    exact raises_of_touches hf rfl clRstm_touches hbody

end Sys2Proof.Machine
end

section
/-! The dequantization commands (`45_dequant.md`): QT.LOAD, XF.CFG, XF.DQ. -/

namespace Sys2Proof.Machine

/-! ### QT.LOAD -/

/-- A 16-bit entry is two bytes, the high one first. -/
theorem loadedEntry_wide_toNat (m : Memory) (z : Nat) :
    (loadedEntry m true z).toNat = (m.byte (2 * z)).toNat * 2 ^ 8 + (m.byte (2 * z + 1)).toNat := by
  rw [loadedEntry, if_pos rfl, BitVec.toNat_append, ← Nat.shiftLeft_add_eq_or_of_lt (m.byte (2 * z + 1)).isLt, Nat.shiftLeft_eq]

/-- An 8-bit entry is one byte. -/
theorem loadedEntry_narrow_toNat (m : Memory) (z : Nat) : (loadedEntry m false z).toNat = (m.byte z).toNat := by
  rw [loadedEntry, if_neg (by decide), BitVec.toNat_setWidth_of_le (by decide)]

theorem loadedTable_getElem (m : Memory) (wide : Bool) (z : Fin 64) : (loadedTable m wide)[z] = loadedEntry m wide z.val :=
  Vector.getElem_ofFn z.isLt

theorem qtLoad_of_legal {pq : Nat} (tq : Fin 4) (s : State) (h : pq ≤ 1) :
    qtLoad pq tq.val s = .ok 0 { s with qt := s.qt.set tq (loadedTable s.pram (pq == 1)), qtdef := s.qtdef.set tq true } := by
  simp only [qtLoad, decide_eq_true h, slotOf_val]

theorem qtLoad_of_illegal {pq tq : Nat} (s : State) (h : 1 < pq ∨ 3 < tq) : qtLoad pq tq s = .error .invalidQuantTable s := by
  rcases h with hpq | htq
  · simp only [qtLoad, decide_eq_false (Nat.not_le.mpr hpq)]
  · simp only [qtLoad, slotOf_eq_none htq]
    cases decide (pq ≤ 1) <;> rfl

/-- Settles O47: the operands are checked first; a legal `pq` is 0 or 1 and says how wide the entries are. -/
theorem qtLoadReadsPram : Obligations.QtLoadReadsPram := by
  obtain ⟨-, -, -, -, -, -, -, -, -, -, -, -, -, -, -, -, -, -, -, -, -, hword, -⟩ := commandWordsFollowTheirFormats
  refine ⟨hword, fun s hf => ⟨fun pq tq h => refuses_of hf rfl (qtLoad_of_illegal s h), fun pq tq hpq =>
    ⟨loadedTable s.pram (pq == 1), completes_of hf rfl (qtLoad_of_legal tq s hpq), fun z => ?entry⟩⟩⟩
  rw [loadedTable_getElem]
  obtain rfl | rfl := Nat.le_one_iff_eq_zero_or_eq_one.mp hpq
  case inl => exact loadedEntry_narrow_toNat s.pram z
  case inr => exact loadedEntry_wide_toNat s.pram z

/-! ### XF.CFG -/

theorem xfCfg_of_variant (comp : Fin 4) (v : Variant) (s : State) :
    xfCfg comp v.code s = .ok 0 { s with xcfg := s.xcfg.set comp v } := by
  simp only [xfCfg, variantOf_code]

theorem xfCfg_of_illegal (comp : Fin 4) {v : Nat} (s : State) (h : 5 < v) : xfCfg comp v s = .error .illegalOperand s := by
  simp only [xfCfg, variantOf_eq_none h]

/-- The numbering of R35 leaves no number of 0..5 out. -/
theorem Variant.exists_code_eq {v : Nat} (h : v ≤ 5) : ∃ v' : Variant, v'.code = v :=
  match v, h with
  | 0, _ => ⟨.acc, rfl⟩
  | 1, _ => ⟨.fast, rfl⟩
  | 2, _ => ⟨.flt, rfl⟩
  | 3, _ => ⟨.red4, rfl⟩
  | 4, _ => ⟨.red2, rfl⟩
  | 5, _ => ⟨.red1, rfl⟩

/-- Settles O48: the operand numbers a variant or none. -/
theorem xfCfgSelectsTheVariant : Obligations.XfCfgSelectsTheVariant := by
  obtain ⟨-, -, -, -, -, -, -, -, -, -, -, -, -, -, -, -, -, -, -, -, -, -, hword, -⟩ := commandWordsFollowTheirFormats
  exact ⟨hword, fun s comp hf => ⟨fun v => completes_of hf rfl (xfCfg_of_variant comp v s), fun _ => Variant.exists_code_eq,
    fun _ hv => refuses_of hf rfl (xfCfg_of_illegal comp s hv)⟩⟩

/-! ### XF.DQ -/

theorem w32_toInt_mul (c : Word) (x : Int) : w32 (c.toInt * x) = c * w32 x := by
  rw [w32, BitVec.ofInt_mul, BitVec.ofInt_toInt, w32]

theorem w32_natCast (n : Nat) : w32 n = BitVec.ofNat 32 n := BitVec.ofInt_natCast 32 n

theorem dequantized_plain (c : Word) (q : Half) (n : Fin 64) : dequantized .plain c q n = w32 (c.toInt * q.toNat) := by
  rw [w32_toInt_mul, w32_natCast, BitVec.ofNat_toNat]; rfl

theorem dequantized_scaled (c : Word) (q : Half) (n : Fin 64) :
    dequantized .scaled c q n = w32 (c.toInt * ((q.toNat * aan14[n] + 2048) / 4096 : Nat)) := by
  rw [w32_toInt_mul, w32_natCast]; rfl

/-- A table entry is below `2^16`, so as an i32 it is not negative. -/
theorem i2f_setWidth (q : Half) : F32.i2f (q.setWidth 32) = F32.ofInt q.toNat := by
  have hq := q.isLt
  rw [F32.i2f, BitVec.toInt_setWidth, Int.bmod_eq_of_le (by omega) (by omega)]

theorem dequantized_float (c : Word) (q : Half) (n : Fin 64) :
    dequantized .float c q n = F32.mul (F32.i2f c) (F32.mul (F32.i2f (q.setWidth 32)) aanF32[n]) := by
  rw [i2f_setWidth]; rfl

/-- At `UNZIG[z]` the block is dequantized with table entry `z` (R202). -/
theorem dequantBlock_unzig (kind : Kind) (coef : Vector Word 64) (q : QuantTable) (z : Fin 64) :
    (dequantBlock kind coef q)[unzig z] = dequantized kind coef[unzig z] q[z] (unzig z) := by
  calc (dequantBlock kind coef q)[unzig z]
      = dequantized kind coef[unzig z] q[zigPos (unzig z)] (unzig z) := Vector.getElem_ofFn (unzig z).isLt
    _ = dequantized kind coef[unzig z] q[z] (unzig z) := by simp only [zigPos_unzig]

theorem xfDq_of_slot_gt (comp : Fin 4) {tq : Nat} (s : State) (h : 3 < tq) : xfDq comp tq s = .error .illegalOperand s := by
  simp only [xfDq, slotOf_eq_none h]

theorem xfDq_of_undefined (comp : Fin 4) {tq : Fin 4} {s : State} (h : s.qtdef[tq] = false) :
    xfDq comp tq.val s = .error .missingQuantTable s := by
  simp only [xfDq, slotOf_val, h, Bool.false_eq_true, if_false]

theorem xfDq_of_defined {comp tq : Fin 4} {s : State} {kind : Kind} (h : s.qtdef[tq] = true) (hkind : s.xcfg[comp].kind = kind) :
    xfDq comp tq.val s = .ok 0 { s with dqb := dequantBlock kind s.coef s.qt[tq], dqtag := ⟨true, kind⟩ } := by
  simp only [xfDq, slotOf_val, if_pos h, hkind]

/-- Settles O49: the slot is checked, then its table; entry `z` of a defined one meets the coefficient at `UNZIG[z]`, kind by kind. -/
theorem xfDqDequantizes : Obligations.XfDqDequantizes := by
  obtain ⟨-, -, -, -, -, -, -, -, -, -, -, -, -, -, -, -, -, -, -, -, -, -, -, hword, -⟩ := commandWordsFollowTheirFormats
  refine ⟨hword, fun s comp hf => ⟨fun tq h => refuses_of hf rfl (xfDq_of_slot_gt comp s h),
    fun tq h => refuses_of hf rfl (xfDq_of_undefined comp h), fun tq h => ?_⟩⟩
  intro kind
  have hkind : s.xcfg[comp].kind = kind := rfl
  clear_value kind
  have hexec := completes_of (i := .xfDq comp tq.val) hf rfl (xfDq_of_defined h hkind)
  refine ⟨dequantBlock kind s.coef s.qt[tq], hexec, fun z => ?_⟩
  refine (dequantBlock_unzig kind s.coef s.qt[tq] z).trans ?_
  cases kind with
  | plain => exact dequantized_plain _ _ _
  | scaled => exact dequantized_scaled _ _ _
  | float => exact dequantized_float _ _ _

end Sys2Proof.Machine
end

section
/-! The inverse transforms on words (`46_idct.md`): the range limit, and the short forms beside the kernels. -/

namespace Sys2Proof.Machine

/-- Settles O55: the clamped integer is 0, 255 or `x + 128` itself, and a byte holds each. -/
theorem rangeLimitClamps : Obligations.RangeLimitClamps := by
  intro x
  unfold rangeLimit
  refine ⟨fun h => ?below, fun h => ?above, fun h h' => ?inside⟩
  case below => rw [show max 0 (min 255 (x.toInt + 128)) = 0 by omega]; rfl
  case above => rw [show max 0 (min 255 (x.toInt + 128)) = 255 by omega]; rfl
  case inside => rw [show max 0 (min 255 (x.toInt + 128)) = x.toInt + 128 by omega, BitVec.toNat_ofInt]; omega

/-! ### Shifts and DESCALE where nothing wraps -/

theorem toInt_shiftLeft_of_range {x : Word} {k : Nat} (hk : k < 31) (hlo : -2 ^ 31 ≤ x.toInt * 2 ^ k) (hhi : x.toInt * 2 ^ k < 2 ^ 31) :
    (x <<< k).toInt = x.toInt * 2 ^ k := by
  rw [BitVec.shiftLeft_eq_mul_twoPow, BitVec.toInt_mul, BitVec.toInt_twoPow, if_neg (by omega), if_neg (by omega)]
  exact Int.bmod_eq_of_le hlo hhi

theorem toInt_descale_of_range {x : Word} {n : Nat} (hn : n < 32) (hhi : x.toInt + 2 ^ (n - 1) < 2 ^ 31) :
    (descale x n).toInt = (x.toInt + 2 ^ (n - 1)) / 2 ^ n := by
  have hlo := BitVec.le_toInt x
  have hpos : (0 : Int) < 2 ^ (n - 1) := by positivity
  have hle : (2 : Int) ^ (n - 1) ≤ 2 ^ 30 := pow_le_pow_right₀ (by decide) (by omega)
  have hhalf : (BitVec.ofNat 32 (2 ^ (n - 1))).toInt = 2 ^ (n - 1) := by
    rw [BitVec.toInt_ofNat', Nat.cast_pow, Nat.cast_ofNat, Int.bmod_eq_of_le (by omega) (by omega)]
  rw [descale, BitVec.toInt_sshiftRight, BitVec.toInt_add, hhalf, Int.bmod_eq_of_le (by omega) (by omega), Int.shiftRight_eq_div_pow]
  rfl

/-- A kernel output `x << (m + 2)` is descaled to the two short forms: the rounding bit of pass 1 falls below the last place, and that of pass 2
is the one DC2 adds. -/
theorem descale_eq_shortForms {x o : Word} {m : Nat} (ho : o = x <<< (m + 2)) (hm : 1 ≤ m) (hm' : m ≤ 24)
    (hlo : -2 ^ 31 ≤ x.toInt * 2 ^ (m + 2)) (hhi : (x.toInt + 16) * 2 ^ (m + 2) < 2 ^ 31) :
    descale o m = x <<< 2 ∧ descale o (m + 7) = descale x 5 := by
  subst ho
  have hpos : (0 : Int) < 2 ^ (m - 1) := by positivity
  have hpow : (2 : Int) ^ m = 2 * 2 ^ (m - 1) := by rw [← pow_succ', Nat.sub_add_cancel hm]
  have hpow2 : (2 : Int) ^ (m + 2) = 2 ^ m * 4 := pow_add ..
  have hpow6 : (2 : Int) ^ (m + 7 - 1) = 2 ^ (m + 2) * 16 := pow_add 2 (m + 2) 4
  have hpow7 : (2 : Int) ^ (m + 7) = 2 ^ (m + 2) * 32 := pow_add 2 (m + 2) 5
  have hlo' : -2 ^ 28 ≤ x.toInt := by nlinarith
  have hhi' : x.toInt + 16 < 2 ^ 28 := by nlinarith
  have hx : (x <<< (m + 2)).toInt = x.toInt * 2 ^ (m + 2) := toInt_shiftLeft_of_range (by omega) hlo (by nlinarith)
  constructor <;> apply BitVec.eq_of_toInt_eq
  · rw [toInt_descale_of_range (by omega) (by nlinarith), hx, toInt_shiftLeft_of_range (by decide) (by omega) (by omega)]
    calc (x.toInt * 2 ^ (m + 2) + 2 ^ (m - 1)) / 2 ^ m = (2 ^ (m - 1) + 2 ^ m * (x.toInt * 2 ^ 2)) / 2 ^ m := by
          congr 1; rw [hpow2]; ring
      _ = x.toInt * 2 ^ 2 := by rw [Int.add_mul_ediv_left _ _ (by omega), Int.ediv_eq_zero_of_lt (by omega) (by omega), zero_add]
  · rw [toInt_descale_of_range (by omega) (by nlinarith), hx, toInt_descale_of_range (by decide) (by omega)]
    calc (x.toInt * 2 ^ (m + 2) + 2 ^ (m + 7 - 1)) / 2 ^ (m + 7) = (2 ^ (m + 2) * (x.toInt + 2 ^ (5 - 1))) / (2 ^ (m + 2) * 2 ^ 5) := by
          rw [hpow6, hpow7]; congr 1; ring
      _ = (x.toInt + 2 ^ (5 - 1)) / 2 ^ 5 := Int.mul_ediv_mul_of_pos _ _ (by positivity)

/-! ### The integer kernels on a line whose AC terms are zero -/

/-- The line whose DC term is `x` and whose AC terms are zero. -/
def dcLine (x : Word) : Line := #v[x, 0, 0, 0, 0, 0, 0, 0]

theorem acc1D_dcLine (x : Word) : acc1D (dcLine x) = Vector.replicate 8 (x <<< 13) := by
  simp [acc1D, dcLine, Vector.replicate_succ]

theorem fast1D_dcLine (x : Word) : fast1D (dcLine x) = Vector.replicate 8 x := by
  simp [fast1D, fmul, dcLine, Vector.replicate_succ]

theorem red4OneD_dcLine (x : Word) : red4OneD (dcLine x) = Vector.replicate 4 (x <<< 14) := by
  simp [red4OneD, dcLine, Vector.replicate_succ]

theorem red2OneD_dcLine (x : Word) : red2OneD (dcLine x) = Vector.replicate 2 (x <<< 15) := by
  simp [red2OneD, dcLine, Vector.replicate_succ]

theorem getElem_of_eq_replicate {N : Nat} {l : Vector Word N} {y : Word} (h : l = Vector.replicate N y) (k : Fin N) : l[k] = y :=
  h ▸ Vector.getElem_replicate k.isLt

/-- Settles O57: on such a line ACC, RED4 and RED2 give `x << 13`, `x << 14` and `x << 15` at every index, FAST gives `x`. -/
theorem shortFormsEqualTheKernels : Obligations.ShortFormsEqualTheKernels :=
  ⟨fun x _ _ k => descale_eq_shortForms (getElem_of_eq_replicate (acc1D_dcLine x) k) (by decide) (by decide) (by omega) (by omega),
    fun x => getElem_of_eq_replicate (fast1D_dcLine x),
    fun x _ _ k => descale_eq_shortForms (getElem_of_eq_replicate (red4OneD_dcLine x) k) (by decide) (by decide) (by omega) (by omega),
    fun x _ _ k => descale_eq_shortForms (getElem_of_eq_replicate (red2OneD_dcLine x) k) (by decide) (by decide) (by omega) (by omega),
    by decide, by decide⟩

end Sys2Proof.Machine
end

section
/-! Binary32 operations whose exact result is a binary32 value (R11) give that value. -/

namespace Sys2Proof.Machine.F32

open Sys2Proof.Reference

/-- The pattern without its sign is that of the magnitude. -/
theorem magnitude_eq_natAbs_units (a : Word) : magnitude (a.toNat % 2 ^ 31) = (units a).natAbs * 2 ^ 149 := by
  have hexp : a.toNat % 2 ^ 31 / 2 ^ 23 = expField a := by unfold expField; omega
  have hfrac : a.toNat % 2 ^ 31 % 2 ^ 23 = fracField a := by unfold fracField; omega
  rw [natAbs_units, magnitude, hexp, hfrac]
  rfl

theorem finite_iff_lt (a : Word) : finite a = true ↔ a.toNat % 2 ^ 31 < 0x7F800000 := by
  simp only [finite, expField, bne_iff_ne]
  omega

/-- A finite value is nearest to itself. -/
theorem roundMagnitude_magnitude {q : Nat} (hq : q < 0x7F800000) : roundMagnitude (magnitude q) = some q := by
  obtain ⟨hsome, hnearest⟩ := roundingIsToNearestEven (magnitude q)
  have hbelow : magnitude q < (2 ^ 25 - 1) * 2 ^ 401 :=
    calc magnitude q ≤ magnitude 0x7F7FFFFF := magnitude_strictMono.monotone (Nat.le_of_lt_succ hq)
      _ = (2 ^ 25 - 2) * 2 ^ 401 := magnitude_greatestFinite
      _ < (2 ^ 25 - 1) * 2 ^ 401 := Nat.mul_lt_mul_of_pos_right (by decide) (by positivity)
  obtain ⟨p, hp⟩ := hsome.mpr hbelow
  have hdist := ((hnearest p hp).2 q hq).1
  have heq : magnitude p = magnitude q := by unfold distance at hdist; omega
  rw [hp, magnitude_strictMono.injective heq]

theorem msb_of_units_ne_zero {a : Word} (h : units a ≠ 0) : a.msb = decide (units a < 0) := by
  rw [units_eq] at h ⊢
  generalize mant a * 2 ^ scale a = n, a.msb = negative at h ⊢
  cases negative with
  | false => exact (decide_eq_false (Int.not_lt.mpr (Int.natCast_nonneg n))).symm
  | true => exact (decide_eq_true (by rw [if_pos rfl] at h ⊢; omega)).symm

/-- `a` is a finite pattern of the value `u`, in units of 2^-149; a zero may have either sign. -/
def HasValue (a : Word) (u : Int) : Prop := finite a = true ∧ units a = u

/-- A pattern with the magnitude bits of a finite `c`, and its sign unless `c` is a zero, has the value of `c`. -/
theorem HasValue.of_bits {a c : Word} {u : Int} (hc : HasValue c u) (hbits : a.toNat % 2 ^ 31 = c.toNat % 2 ^ 31)
    (hsign : u ≠ 0 → a.msb = decide (u < 0)) : HasValue a u := by
  obtain ⟨hfin, rfl⟩ := hc
  have habs : (units a).natAbs = (units c).natAbs := by
    have h := magnitude_eq_natAbs_units a
    rw [hbits, magnitude_eq_natAbs_units c] at h
    exact (Nat.eq_of_mul_eq_mul_right (by positivity) h).symm
  refine ⟨by rwa [finite_iff_lt, hbits, ← finite_iff_lt], ?_⟩
  rcases Decidable.eq_or_ne (units c) 0 with h0 | h0
  · omega
  · have hsame := (msb_of_units_ne_zero (a := a) (by omega)).symm.trans (hsign h0)
    rw [decide_eq_decide] at hsame
    omega

section
variable {a b c : Word} {u v : Int}

theorem HasValue.roundMagnitude_eq (h : HasValue c u) : roundMagnitude (u.natAbs * 2 ^ 149) = some (c.toNat % 2 ^ 31) := by
  obtain ⟨hfin, rfl⟩ := h
  rw [← magnitude_eq_natAbs_units, roundMagnitude_magnitude ((finite_iff_lt c).mp hfin)]

theorem HasValue.add_exact (ha : HasValue a u) (hb : HasValue b v) (hc : HasValue c (u + v)) : HasValue (add a b) (u + v) := by
  obtain ⟨⟨hfa, rfl⟩, hfb, rfl⟩ := And.intro ha hb
  obtain ⟨hbits, hsign⟩ := add_rounds hfa hfb hc.roundMagnitude_eq
  exact hc.of_bits hbits hsign

theorem HasValue.sub_exact (ha : HasValue a u) (hb : HasValue b v) (hc : HasValue c (u - v)) : HasValue (sub a b) (u - v) := by
  obtain ⟨⟨hfa, rfl⟩, hfb, rfl⟩ := And.intro ha hb
  obtain ⟨hbits, hsign⟩ := sub_rounds hfa hfb hc.roundMagnitude_eq
  exact hc.of_bits hbits hsign

theorem HasValue.add_zero (ha : HasValue a u) (hb : HasValue b 0) : HasValue (add a b) u := by
  simpa using ha.add_exact hb (by simpa using ha)

theorem HasValue.sub_zero (ha : HasValue a u) (hb : HasValue b 0) : HasValue (sub a b) u := by
  simpa using ha.sub_exact hb (by simpa using ha)

theorem hasValue_zero : HasValue 0 0 := by unfold HasValue; decide

/-- A product with a zero is a zero. -/
theorem hasValue_mul_zero (ha : finite a = true) (hb : finite b = true) (h : units a * units b = 0) : HasValue (mul a b) 0 := by
  have hround : roundMagnitude (units a * units b).natAbs = some ((0 : Word).toNat % 2 ^ 31) := by
    rw [h]; exact hasValue_zero.roundMagnitude_eq
  exact hasValue_zero.of_bits (mul_rounds ha hb hround).1 (absurd rfl)

theorem HasValue.zero_mul (ha : HasValue a 0) (hb : finite b = true) : HasValue (mul a b) 0 :=
  hasValue_mul_zero ha.1 hb (mul_eq_zero.mpr (.inl ha.2))

theorem HasValue.mul_zero (ha : finite a = true) (hb : HasValue b 0) : HasValue (mul a b) 0 :=
  hasValue_mul_zero ha hb.1 (mul_eq_zero.mpr (.inr hb.2))

theorem HasValue.trunc_eq (ha : HasValue a u) (hb : HasValue b u) : trunc a = trunc b := by
  rw [trunc_eq_tdiv ha.1, trunc_eq_tdiv hb.1, ha.2, hb.2]

end

/-- `FLT_1D` on a line whose AC terms are zero gives the DC value at every index: every term it adds to or takes from it is a zero. -/
theorem hasValue_flt1D {i : Line} {u : Int} (h0 : HasValue i[0] u) (h : ∀ k : Fin 8, k ≠ 0 → HasValue i[k] 0) (k : Fin 8) :
    HasValue (flt1D i)[k] u := by
  have h1 : HasValue i[1] 0 := h 1 (by decide)
  have h2 : HasValue i[2] 0 := h 2 (by decide)
  have h3 : HasValue i[3] 0 := h 3 (by decide)
  have h4 : HasValue i[4] 0 := h 4 (by decide)
  have h5 : HasValue i[5] 0 := h 5 (by decide)
  have h6 : HasValue i[6] 0 := h 6 (by decide)
  have h7 : HasValue i[7] 0 := h 7 (by decide)
  have hz5 := ((h5.sub_zero h3).add_zero (h1.sub_zero h7)).zero_mul (b := 0x3FEC835E) (by decide)
  have htmp13 := h2.add_zero h6
  have htmp12 := ((h2.sub_zero h6).zero_mul (b := 0x3FB504F3) (by decide)).sub_zero htmp13
  have htmp7 := (h1.add_zero h7).add_zero (h5.add_zero h3)
  have htmp6 := ((HasValue.mul_zero (a := 0xC0273D75) (by decide) (h5.sub_zero h3)).add_zero hz5).sub_zero htmp7
  have htmp5 := (((h1.add_zero h7).sub_zero (h5.add_zero h3)).zero_mul (b := 0x3FB504F3) (by decide)).sub_zero htmp6
  have htmp4 := ((HasValue.mul_zero (a := 0x3F8A8BD4) (by decide) (h1.sub_zero h7)).sub_zero hz5).add_zero htmp5
  have htmp0 := (h0.add_zero h4).add_zero htmp13
  have htmp3 := (h0.add_zero h4).sub_zero htmp13
  have htmp1 := (h0.sub_zero h4).add_zero htmp12
  have htmp2 := (h0.sub_zero h4).sub_zero htmp12
  fin_cases k
  exacts [htmp0.add_zero htmp7, htmp1.add_zero htmp6, htmp2.add_zero htmp5, htmp3.sub_zero htmp4,
    htmp3.add_zero htmp4, htmp2.sub_zero htmp5, htmp1.sub_zero htmp6, htmp0.sub_zero htmp7]

end Sys2Proof.Machine.F32
end

section
/-! The inverse transform commands (`46_idct.md`): XF.IDCT and XF.RUN. -/

namespace Sys2Proof.Machine

open Sys2Proof.Reference

/-! ### Where the samples stand in SAMP -/

theorem placeSamples_inside {N : Nat} (samp : Vector Byte 64) (block : Vector (Vector Byte N) N) (r c : Fin N) (h : N * r.val + c.val < 64) :
    (placeSamples samp block)[N * r.val + c.val] = block[r][c] := by
  have hN : 0 < N := r.pos
  have hrow : (N * r.val + c.val) / N = r.val := by
    rw [Nat.mul_add_div hN, Nat.div_eq_of_lt c.isLt, Nat.add_zero]
  have hcol : (N * r.val + c.val) % N = c.val := by rw [Nat.mul_add_mod, Nat.mod_eq_of_lt c.isLt]
  simp [placeSamples, hrow, hcol]

theorem placeSamples_outside {N : Nat} (samp : Vector Byte 64) (block : Vector (Vector Byte N) N) (i : Fin 64) (h : N * N ≤ i.val) :
    (placeSamples samp block)[i] = samp[i] := by
  have hrow : N ≤ i.val / N := by
    rcases Nat.eq_zero_or_pos N with rfl | hN
    · exact Nat.zero_le _
    · exact (Nat.le_div_iff_mul_le hN).mpr h
  simp [placeSamples, hrow]

/-- A block with one value at every sample. -/
theorem placeSamples_flat {N : Nat} (samp : Vector Byte 64) {block : Vector (Vector Byte N) N} {y : Byte} (h : ∀ r c : Fin N, block[r][c] = y)
    {i : Fin 64} (hi : i.val < N * N) : (placeSamples samp block)[i] = y := by
  have hN : 0 < N := Nat.pos_of_ne_zero (by rintro rfl; omega)
  have hpos := Nat.div_add_mod i.val N
  have hcell := placeSamples_inside samp block ⟨i.val / N, Nat.div_lt_of_lt_mul hi⟩ ⟨i.val % N, Nat.mod_lt i.val hN⟩ (hpos.trans_lt i.isLt)
  simp only [hpos] at hcell
  exact hcell.trans (h _ _)

/-! ### Columns -/

theorem column_getElem (b : Vector Word 64) (c r : Fin 8) : (column b c)[r] = b[8 * r.val + c.val] := Vector.getElem_ofFn r.isLt

/-- Every entry of DQB but the first is zero. -/
def DcOnly (b : Vector Word 64) : Prop := ∀ n : Fin 64, n ≠ 0 → b[n] = 0

theorem DcOnly.column_eq_zero {b : Vector Word 64} (h : DcOnly b) {r c : Fin 8} (hrc : r ≠ 0 ∨ c ≠ 0) : (column b c)[r] = 0 := by
  have hn : (⟨8 * r.val + c.val, by omega⟩ : Fin 64) ≠ 0 := by
    simp only [ne_eq, Fin.ext_iff, Fin.val_zero] at hrc ⊢
    omega
  exact (column_getElem b c r).trans (h _ hn)

/-! ### What an integer variant reads -/

namespace IntVariant

variable {N : Nat} {v : IntVariant N}

/-- The early exit and the kernel read only the indices R224 lists as used. -/
structure ReadsUsed (v : IntVariant N) : Prop where
  dc : 0 ∈ v.used
  tested : ∀ i ∈ v.tested, i ∈ v.used
  kernel : ∀ l l' : Line, (∀ i ∈ v.used, l[i] = l'[i]) → v.kernel l = v.kernel l'

section
variable {l l' : Line}

theorem earlyExit_iff {tested : List (Fin 8)} : earlyExit tested l = true ↔ ∀ i ∈ tested, l[i] = 0 := by
  simp only [earlyExit, List.all_eq_true, beq_iff_eq]

theorem pass1_of_zero (h : ∀ i ∈ v.tested, l[i] = 0) : v.pass1 l = Vector.ofFn fun _ => v.dc1 l[0] := by
  rw [pass1, if_pos (earlyExit_iff.mpr h)]

theorem pass2_of_zero (h : ∀ i ∈ v.tested, l[i] = 0) : v.pass2 l = Vector.ofFn fun _ => rangeLimit (v.dc2 l[0]) := by
  rw [pass2, if_pos (earlyExit_iff.mpr h)]

theorem ReadsUsed.earlyExit_congr (hv : v.ReadsUsed) (h : ∀ i ∈ v.used, l[i] = l'[i]) : earlyExit v.tested l = earlyExit v.tested l' := by
  rw [Bool.eq_iff_iff, earlyExit_iff, earlyExit_iff]
  exact forall₂_congr fun i hi => by rw [h i (hv.tested i hi)]

theorem ReadsUsed.pass1_congr (hv : v.ReadsUsed) (h : ∀ i ∈ v.used, l[i] = l'[i]) : v.pass1 l = v.pass1 l' := by
  have h0 : l[0] = l'[0] := h 0 hv.dc
  rw [pass1, pass1, hv.earlyExit_congr h, hv.kernel l l' h, h0]

theorem ReadsUsed.pass2_congr (hv : v.ReadsUsed) (h : ∀ i ∈ v.used, l[i] = l'[i]) : v.pass2 l = v.pass2 l' := by
  have h0 : l[0] = l'[0] := h 0 hv.dc
  rw [pass2, pass2, hv.earlyExit_congr h, hv.kernel l l' h, h0]

end

theorem workspaceRow_workspace (b : Vector Word 64) (r : Fin N) {c : Fin 8} (hc : c ∈ v.used) :
    (workspaceRow (v.workspace b) r)[c] = (v.pass1 (column b c))[r] := by
  simp [workspaceRow, workspace, hc]

theorem samples_getElem (b : Vector Word 64) (r : Fin N) : (v.samples b)[r] = v.pass2 (workspaceRow (v.workspace b) r) :=
  Vector.getElem_ofFn r.isLt

/-- Blocks that agree on the used rows and columns have the same samples. -/
theorem ReadsUsed.samples_congr (hv : v.ReadsUsed) {b b' : Vector Word 64}
    (h : ∀ r ∈ v.used, ∀ c ∈ v.used, b[8 * r.val + c.val] = b'[8 * r.val + c.val]) : v.samples b = v.samples b' := by
  have hws : v.workspace b = v.workspace b' := by
    unfold workspace
    congr 1; funext c
    split
    next hc => exact hv.pass1_congr fun r hr => by rw [column_getElem, column_getElem, h r hr c hc]
    next => rfl
  rw [samples, samples, hws]

/-- On a block whose AC terms are zero every column and every row takes the early exit. -/
theorem ReadsUsed.samples_of_dcOnly (hv : v.ReadsUsed) (htested : 0 ∉ v.tested) (hdc : v.dc1 0 = 0) {b : Vector Word 64}
    (h : DcOnly b) (r c : Fin N) : (v.samples b)[r][c] = rangeLimit (v.dc2 (v.dc1 b[0])) := by
  have hne : ∀ i ∈ v.tested, i ≠ 0 := fun i hi hi0 => htested (hi0 ▸ hi)
  have hrow : ∀ c ∈ v.used, (workspaceRow (v.workspace b) r)[c] = v.dc1 (column b c)[0] := fun c hc => by
    rw [workspaceRow_workspace b r hc, pass1_of_zero fun i hi => h.column_eq_zero (.inl (hne i hi))]
    exact Vector.getElem_ofFn r.isLt
  have hrow0 : (workspaceRow (v.workspace b) r)[0] = v.dc1 b[0] := (hrow 0 hv.dc).trans (congrArg v.dc1 (column_getElem b 0 0))
  have hrowAc : ∀ i ∈ v.tested, (workspaceRow (v.workspace b) r)[i] = 0 := fun i hi => by
    have hcol : (column b i)[0] = 0 := h.column_eq_zero (r := 0) (.inr (hne i hi))
    rw [hrow i (hv.tested i hi), hcol, hdc]
  rw [samples_getElem, pass2_of_zero hrowAc, hrow0]
  exact Vector.getElem_ofFn c.isLt

/-! ### The passes entry by entry -/

theorem pass1_getElem (l : Line) (r : Fin N) :
    (v.pass1 l)[r] = if ∀ i ∈ v.tested, l[i] = 0 then v.dc1 l[0] else v.p1 (v.kernel l)[r] := by
  simp only [pass1, earlyExit_iff]
  split <;> simp

theorem pass2_getElem (l : Line) (c : Fin N) :
    (v.pass2 l)[c] = if ∀ i ∈ v.tested, l[i] = 0 then rangeLimit (v.dc2 l[0]) else rangeLimit (v.p2 (v.kernel l)[c]) := by
  simp only [pass2, earlyExit_iff]
  split <;> simp

/-- WS[r][c] of the reference with the parameters of `v`. -/
def refWorkspace (v : IntVariant N) (b : Nat → Word) (r c : Nat) : Word :=
  workspaceAt (v.tested.map Fin.val) (fun i k => (v.kernel i)[k]?.getD 0) v.p1 v.dc1 b r c

/-- The sample of the reference with the parameters of `v`. -/
def refSample (v : IntVariant N) (b : Nat → Word) (r c : Nat) : Byte :=
  sampleAt (v.tested.map Fin.val) (fun i k => (v.kernel i)[k]?.getD 0) v.p1 v.dc1 v.p2 v.dc2 b r c

theorem refWorkspace_eq_pass1 (b : Nat → Word) (r : Fin N) (c : Nat) :
    v.refWorkspace b r.val c = (v.pass1 (Vector.ofFn fun i => b (8 * i.val + c)))[r] := by
  rw [pass1_getElem]
  simp [refWorkspace, workspaceAt]

theorem refSample_eq_pass2 (b : Nat → Word) (r : Nat) (c : Fin N) :
    v.refSample b r c.val = (v.pass2 (Vector.ofFn fun i => v.refWorkspace b r i.val))[c] := by
  rw [pass2_getElem]
  simp [refSample, sampleAt, refWorkspace]

/-- The samples are those of the reference: the columns of the workspace that the model leaves out are not read. -/
theorem ReadsUsed.samples_eq_refSample (hv : v.ReadsUsed) (b : Vector Word 64) (r c : Fin N) :
    (v.samples b)[r][c] = v.refSample (fun n => b[n]?.getD 0) r.val c.val := by
  rw [refSample_eq_pass2, samples_getElem, hv.pass2_congr fun i hi => ?_]
  have hcol : column b i = Vector.ofFn fun r => b[8 * r.val + i.val]?.getD 0 := by
    unfold column
    congr 1; funext r
    rw [Vector.getElem?_eq_getElem (by omega), Option.getD_some]
  rw [workspaceRow_workspace b r hi, hcol]
  simp [refWorkspace_eq_pass1]

end IntVariant

/-! ### The four integer variants -/

/-- ACC and FAST use all eight indices. -/
theorem line_ext {l l' : Line} (h : ∀ i ∈ ([0, 1, 2, 3, 4, 5, 6, 7] : List (Fin 8)), l[i] = l'[i]) : l = l' :=
  Vector.ext fun i hi => h ⟨i, hi⟩ (by decide +revert)

theorem accVariant_readsUsed : accVariant.ReadsUsed :=
  ⟨by decide, by decide, fun _ _ h => congrArg acc1D (line_ext h)⟩

theorem fastVariant_readsUsed : fastVariant.ReadsUsed :=
  ⟨by decide, by decide, fun _ _ h => congrArg fast1D (line_ext h)⟩

theorem red4OneD_ignores (l : Line) : red4OneD l = red4OneD #v[l[0], l[1], l[2], l[3], 0, l[5], l[6], l[7]] := rfl

theorem red4Variant_readsUsed : red4Variant.ReadsUsed := by
  refine ⟨by decide, by decide, fun l l' h => ?_⟩
  obtain ⟨h0, h1, h2, h3, h5, h6, h7⟩ :
      l[0] = l'[0] ∧ l[1] = l'[1] ∧ l[2] = l'[2] ∧ l[3] = l'[3] ∧ l[5] = l'[5] ∧ l[6] = l'[6] ∧ l[7] = l'[7] := by
    simpa [red4Variant] using h
  show red4OneD l = red4OneD l'
  rw [red4OneD_ignores l, red4OneD_ignores l', h0, h1, h2, h3, h5, h6, h7]

theorem red2OneD_ignores (l : Line) : red2OneD l = red2OneD #v[l[0], l[1], 0, l[3], 0, l[5], 0, l[7]] := rfl

theorem red2Variant_readsUsed : red2Variant.ReadsUsed := by
  refine ⟨by decide, by decide, fun l l' h => ?_⟩
  obtain ⟨h0, h1, h3, h5, h7⟩ : l[0] = l'[0] ∧ l[1] = l'[1] ∧ l[3] = l'[3] ∧ l[5] = l'[5] ∧ l[7] = l'[7] := by
    simpa [red2Variant] using h
  show red2OneD l = red2OneD l'
  rw [red2OneD_ignores l, red2OneD_ignores l', h0, h1, h3, h5, h7]

/-! ### FLT -/

theorem fltSamples_getElem (b : Vector Word 64) (r c : Fin 8) :
    (fltSamples b)[r][c] = fltSample (flt1D (Vector.ofFn fun x => (flt1D (column b x))[r]))[c] := by
  simp [fltSamples, workspaceRow]

/-- The full kernels of FLT carry a finite DC term through unchanged. -/
theorem fltSamples_of_dcOnly {b : Vector Word 64} (h : DcOnly b) (hfin : F32.finite b[0] = true) (r c : Fin 8) :
    (fltSamples b)[r][c] = fltSample b[0] := by
  have h0 : F32.HasValue b[0] (F32.units b[0]) := ⟨hfin, rfl⟩
  have hpass1 : ∀ (x : Fin 8) (u : Int), F32.HasValue (column b x)[0] u → F32.HasValue (flt1D (column b x))[r] u := fun x u hx =>
    F32.hasValue_flt1D hx (fun k hk => h.column_eq_zero (.inl hk) ▸ F32.hasValue_zero) r
  have hout := F32.hasValue_flt1D (i := Vector.ofFn fun x => (flt1D (column b x))[r]) (u := F32.units b[0])
    (by simpa using hpass1 0 _ (column_getElem b 0 0 ▸ h0))
    (fun x hx => by
      have hx0 : (column b x)[0] = 0 := h.column_eq_zero (r := 0) (.inr hx)
      simpa using hpass1 x 0 (hx0 ▸ F32.hasValue_zero)) c
  rw [fltSamples_getElem, fltSample, hout.trunc_eq h0]
  rfl

/-! ### The bodies -/

theorem xfIdct_of_mismatch {comp : Fin 4} {s : State} (h : s.dqtag.valid = false ∨ s.dqtag.kind ≠ s.xcfg[comp].kind) :
    xfIdct comp s = .error .sequenceError s := by
  rw [xfIdct, if_neg]
  rintro ⟨hv, hk⟩
  exact h.elim (by simp [hv]) (absurd hk)

theorem exec_xfIdct {comp : Fin 4} {s : State} (hf : s.status.fault = false) (hv : s.dqtag.valid = true)
    (hk : s.dqtag.kind = s.xcfg[comp].kind) :
    exec (.xfIdct comp) s = .next { s with samp := transformed s.xcfg[comp] s.dqb s.samp, result := 0, ccnt := s.ccnt + 1 } :=
  completes_of hf rfl (xfIdct_ok (congrArg₂ DqTag.mk hv hk))

theorem transformed_outside (v : Variant) (b : Vector Word 64) (samp : Vector Byte 64) {i : Fin 64} (h : v.side * v.side ≤ i.val) :
    (transformed v b samp)[i] = samp[i] := by
  cases v <;> exact placeSamples_outside samp _ i h

/-- XF.DQ fails before it has written anything, or it writes DQB and its tag. -/
theorem xfDq_cases (comp : Fin 4) (tq : Nat) (s : State) :
    (∃ f, xfDq comp tq s = .error f s) ∨ ∃ d, xfDq comp tq s = .ok 0 { s with dqb := d, dqtag := ⟨true, s.xcfg[comp].kind⟩ } := by
  unfold xfDq
  split
  next => exact .inl ⟨_, rfl⟩
  next =>
    split
    next => exact .inr ⟨_, rfl⟩
    next => exact .inl ⟨_, rfl⟩

/-! ### The claims -/

/-- Settles O53: XF.DQ either fails, and so does XF.RUN, or leaves a tag that fits, on which XF.IDCT completes. -/
theorem xfRunIsDqThenIdct : Obligations.XfRunIsDqThenIdct := by
  obtain ⟨-, -, -, -, -, -, -, -, -, -, -, -, -, -, -, -, -, -, -, -, -, -, -, -, -, hword⟩ := commandWordsFollowTheirFormats
  refine ⟨hword, fun s comp tq hf u hu => ?_⟩
  rcases xfDq_cases comp tq s with ⟨f, hd⟩ | ⟨d, hd⟩
  case inl =>
    have hdq : exec (.xfDq comp tq) s = _ := refuses_of hf rfl hd
    have hrun : exec (.xfRun comp tq) s = _ := refuses_of hf rfl (bind_error hd)
    cases hdq.symm.trans hu
    exact ⟨fun _ => hrun, nofun⟩
  case inr =>
    have hdq : exec (.xfDq comp tq) s = _ := completes_of hf rfl hd
    have hrun : exec (.xfRun comp tq) s = _ := completes_of hf rfl ((bind_ok hd).trans (xfIdct_ok rfl))
    cases hdq.symm.trans hu
    exact ⟨fun h => absurd (hf.symm.trans h) (by decide), fun _ => ⟨_, exec_xfIdct hf rfl rfl, hf, hrun⟩⟩

/-- Settles O52: inside the block the samples are those of the reference passes, outside it SAMP stays. -/
theorem xfIdctTransforms : Obligations.XfIdctTransforms := by
  obtain ⟨-, -, -, -, -, -, -, -, -, -, -, -, -, -, -, -, -, -, -, -, -, -, -, -, hword, -⟩ := commandWordsFollowTheirFormats
  refine ⟨hword, fun s comp hf => ⟨fun h => refuses_of hf rfl (xfIdct_of_mismatch h), fun hv hk =>
    ⟨_, exec_xfIdct hf hv hk, fun i hi => transformed_outside _ _ _ hi, ?_⟩⟩⟩
  clear hk
  generalize s.xcfg[comp] = v
  cases v with
  | acc => exact fun r c => (placeSamples_inside _ _ r c _).trans (accVariant_readsUsed.samples_eq_refSample s.dqb r c)
  | fast => exact fun r c => (placeSamples_inside _ _ r c _).trans (fastVariant_readsUsed.samples_eq_refSample s.dqb r c)
  | flt => exact fun r c => (placeSamples_inside _ _ r c _).trans (fltSamples_getElem s.dqb r c)
  | red4 => exact fun r c => (placeSamples_inside _ _ r c _).trans (red4Variant_readsUsed.samples_eq_refSample s.dqb r c)
  | red2 => exact fun r c => (placeSamples_inside _ _ r c _).trans (red2Variant_readsUsed.samples_eq_refSample s.dqb r c)
  | red1 => exact placeSamples_inside s.samp (red1Samples s.dqb) 0 0 (by decide)

/-- Settles O56: in the integer variants every line takes the early exit; in FLT the full kernels give what it would. -/
theorem dcOnlyBlocksAreFlat : Obligations.DcOnlyBlocksAreFlat := by
  intro s comp hf hv hk hac hfin
  refine ⟨_, exec_xfIdct hf hv hk, fun i hi => ?_⟩
  clear hk
  generalize s.xcfg[comp] = v at *
  cases v with
  | acc => exact placeSamples_flat _ (accVariant_readsUsed.samples_of_dcOnly (by decide) rfl hac) hi
  | fast => exact placeSamples_flat _ (fastVariant_readsUsed.samples_of_dcOnly (by decide) rfl hac) hi
  | flt => exact placeSamples_flat _ (fltSamples_of_dcOnly hac (hfin rfl)) hi
  | red4 => exact placeSamples_flat _ (red4Variant_readsUsed.samples_of_dcOnly (by decide) rfl hac) hi
  | red2 => exact placeSamples_flat _ (red2Variant_readsUsed.samples_of_dcOnly (by decide) rfl hac) hi
  | red1 => exact placeSamples_flat _ (block := red1Samples s.dqb) (fun | 0, 0 => rfl) hi

/-- Settles O58: the used indices are those outside 4, and those outside 2, 4 and 6. -/
theorem reducedVariantsIgnoreTheUnusedTerms : Obligations.ReducedVariantsIgnoreTheUnusedTerms := by
  intro b b' p
  refine ⟨fun h => ?red4, fun h => ?red2⟩
  case red4 =>
    have hused : ∀ i ∈ red4Variant.used, i ≠ 4 := by decide
    rw [transformed, transformed, red4Variant_readsUsed.samples_congr fun r hr c hc => h r c (hused r hr) (hused c hc)]
  case red2 =>
    have hused : ∀ i ∈ red2Variant.used, i ∉ [2, 4, 6] := by decide
    rw [transformed, transformed, red2Variant_readsUsed.samples_congr fun r hr c hc => h r c (hused r hr) (hused c hc)]

end Sys2Proof.Machine
end

section
/-! What a faulted block ignores (`60_exceptions.md` R266): commands, words written to CMD, host writes to COEF and PRAM. -/

namespace Sys2Proof.Machine

/-! ### The offsets of COEF and PRAM -/

theorem indexedReg_base_add (base : Nat) {n : Nat} (k : Fin n) : indexedReg base n (base + 4 * k.val) = some k := by
  simp [indexedReg]

/-- COEF[n] stands above the named registers, DCPRED and XCFG. -/
theorem accessed_coef (n : Fin 64) : accessed (0x100 + 4 * n.val) 4 = some (.coef n) := by
  have haligned : (0x100 + 4 * n.val) % 4 = 0 := by omega
  have hnamed : namedReg (0x100 + 4 * n.val) = none := (namedReg_eq_none_iff haligned).mpr (by omega)
  have hdcpred : indexedReg 0x030 4 (0x100 + 4 * n.val) = none := indexedReg_eq_none_iff.mpr (by omega)
  have hxcfg : indexedReg 0x040 4 (0x100 + 4 * n.val) = none := indexedReg_eq_none_iff.mpr (by omega)
  rw [accessed, if_pos ⟨rfl, haligned⟩, regAt, hnamed, hdcpred, hxcfg, indexedReg_base_add]
  rfl

/-- PRAM stands last, above the six other groups. -/
theorem accessed_pram (k : Fin 128) : accessed (0x400 + 4 * k.val) 4 = some (.pram k) := by
  have haligned : (0x400 + 4 * k.val) % 4 = 0 := by omega
  have hnamed : namedReg (0x400 + 4 * k.val) = none := (namedReg_eq_none_iff haligned).mpr (by omega)
  have hindexed : ∀ base n, base + 4 * n ≤ 0x400 → indexedReg base n (0x400 + 4 * k.val) = none := fun base n hend =>
    indexedReg_eq_none_iff.mpr (by omega)
  rw [accessed, if_pos ⟨rfl, haligned⟩, regAt, hnamed, hindexed 0x030 4 (by decide), hindexed 0x040 4 (by decide),
    hindexed 0x100 64 (by decide), hindexed 0x200 64 (by decide), hindexed 0x300 16 (by decide), indexedReg_base_add]
  rfl

/-! ### While FAULT = 1 -/

variable {s : State}

/-- Every command but SS.INIT is the run of a body, and no body runs while FAULT = 1. -/
theorem exec_of_fault (hf : s.status.fault = true) {i : Instr} (hi : i ≠ .ssInit) : exec i s = .next s := by
  obtain ⟨body, hbody, -⟩ := exec_touches hi
  rw [hbody, runCommand_faulted hf]

theorem issue_of_fault (hf : s.status.fault = true) (hb : s.status.busy = false) {w : Word} (hw : w ≠ ssInitWord) :
    issue w s = .next s := by
  simp [issue, hb, hf, hw]

/-- SS.INIT's word passes the check of FAULT and decodes to SS.INIT. -/
theorem issue_ssInitWord (hb : s.status.busy = false) : issue ssInitWord s = exec .ssInit { s with cmd := ssInitWord } := by
  have hdecode : decode ssInitWord = .ok .ssInit := by decide
  simp [issue, hb, hdecode]

theorem hostWrite_coef_of_fault (hf : s.status.fault = true) (n : Fin 64) (d : Word) :
    hostWrite (0x100 + 4 * n.val) 4 d s = .next s := by
  simp only [hostWrite, accessed_coef, hf, if_true]

theorem hostWrite_pram_of_fault (hf : s.status.fault = true) (k : Fin 128) (d : Word) :
    hostWrite (0x400 + 4 * k.val) 4 d s = .next s := by
  simp only [hostWrite, accessed_pram, hf, if_true]

/-- Settles O11: no body runs, the word is dropped before it is decoded unless it is SS.INIT's, and the stores test FAULT. -/
theorem nothingRunsWhileFaulted : Obligations.NothingRunsWhileFaulted := fun _ hf =>
  ⟨fun _ hi => exec_of_fault hf hi, fun hb _ hw => issue_of_fault hf hb hw, issue_ssInitWord, hostWrite_coef_of_fault hf,
    hostWrite_pram_of_fault hf⟩

end Sys2Proof.Machine
end

section
/-! What every command does or leaves alone, read off the bodies' frames (`exec_touches`): completion, faults, the items written. -/

namespace Sys2Proof.Machine

/-- With FAULT = 0 a command other than SS.INIT completes on what its body left, or raises a listed fault on it. -/
theorem exec_cases {i : Instr} {s : State} (hi : i ≠ .ssInit) (hf : s.status.fault = false) :
    (∃ r u, Framed (writes i) s u ∧ exec i s = .next (u.complete r)) ∨
      ∃ f ∈ listedFaults i, ∃ u, Framed (writes i) s u ∧ exec i s = .next (u.raise f) := by
  obtain ⟨body, he, ht⟩ := exec_touches hi
  cases hb : body s with
  | ok r u => exact .inl ⟨r, u, (ht s).1 r u hb, completes_of hf (he s) hb⟩
  | error f u =>
    obtain ⟨hlisted, hframe⟩ := (ht s).2 f u hb
    exact .inr ⟨f, hlisted, u, hframe, faults_of hf (he s) hb⟩

/-- Settles O12: the body completes or fails, and either way it has left STATUS, FINFO, RESULT, CCNT and CMD alone. -/
theorem everyCommandCompletesOrFaults : Obligations.EveryCommandCompletesOrFaults := by
  intro i s hi hf
  rcases exec_cases hi hf with ⟨r, u, hu, he⟩ | ⟨f, hlisted, u, hu, he⟩
  · exact ⟨_, he, .inl ⟨hu.status, hu.finfo, congrArg (· + 1) hu.ccnt⟩⟩
  · exact ⟨_, he, .inr ⟨f, hlisted, by rw [State.raise_status, hu.status]; rfl, hu.same.cmd, hu.result, hu.ccnt⟩⟩

theorem SameBut.complete {ws : List Item} {s u : State} (h : SameBut ws s u) (r : Word) : SameBut ws s (u.complete r) := { h with }

/-- Settles O15: a command that has completed is a body's frame and `complete`, which writes no item. -/
theorem commandsWriteOnlyTheirItems : Obligations.CommandsWriteOnlyTheirItems := by
  intro i s t hi hf ht htf
  rcases exec_cases hi hf with ⟨r, u, hu, he⟩ | ⟨f, -, u, -, he⟩
  · cases he.symm.trans ht
    exact hu.same.complete r
  · cases he.symm.trans ht
    nomatch htf

end Sys2Proof.Machine
end

section
/-! Pre- and postconditions of pseudocode, with one condition for every failing run, and what a block walk keeps: an invariant of the walk and
the coefficients outside the band. -/

namespace Sys2Proof.Machine

open Sys2Proof.Reference

/-! ### Rules -/

/-- From a state in `P` the pseudocode completes in `Q` or fails in `E`. -/
def Triple {σ α : Type} (P : σ → Prop) (p : EStateM FaultCode σ α) (Q : α → σ → Prop) (E : σ → Prop) : Prop :=
  ∀ s, P s → (∀ a t, p s = .ok a t → Q a t) ∧ ∀ f t, p s = .error f t → E t

section
variable {σ α β : Type} {P E : σ → Prop} {Q : α → σ → Prop} {R : β → σ → Prop} {p : EStateM FaultCode σ α}

/-- A run that completes. -/
theorem post_ok {a : α} {t : σ} (h : Q a t) :
    (∀ b u, (EStateM.Result.ok a t : EStateM.Result FaultCode σ α) = .ok b u → Q b u) ∧
      ∀ f u, (EStateM.Result.ok a t : EStateM.Result FaultCode σ α) = .error f u → E u :=
  ⟨fun _ _ e => by cases e; exact h, nofun⟩

/-- A run that fails. -/
theorem post_error {f : FaultCode} {t : σ} (h : E t) :
    (∀ b u, (EStateM.Result.error f t : EStateM.Result FaultCode σ α) = .ok b u → Q b u) ∧
      ∀ g u, (EStateM.Result.error f t : EStateM.Result FaultCode σ α) = .error g u → E u :=
  ⟨nofun, fun _ _ e => by cases e; exact h⟩

theorem Triple.pure {a : α} (h : ∀ s, P s → Q a s) : Triple P (Pure.pure a) Q E :=
  fun s hs => post_ok (h s hs)

theorem Triple.throw {f : FaultCode} (h : ∀ s, P s → E s) : Triple P (throwThe FaultCode f : EStateM FaultCode σ α) Q E :=
  fun s hs => post_error (h s hs)

theorem Triple.modify {u : σ → σ} {Q : PUnit → σ → Prop} (h : ∀ s, P s → Q ⟨⟩ (u s)) : Triple P (modify u) Q E :=
  fun s hs => post_ok (h s hs)

theorem Triple.bind {q : α → EStateM FaultCode σ β} (hp : Triple P p Q E) (hq : ∀ a, Triple (Q a) (q a) R E) : Triple P (p >>= q) R E := by
  refine fun s hs => ⟨fun b u h => ?_, fun f u h => ?_⟩
  · obtain ⟨a, t, hpa, hqb⟩ := bind_eq_ok.mp h
    exact (hq a t ((hp s hs).1 a t hpa)).1 b u hqb
  · rcases bind_eq_error.mp h with hpf | ⟨a, t, hpa, hqf⟩
    · exact (hp s hs).2 f u hpf
    · exact (hq a t ((hp s hs).1 a t hpa)).2 f u hqf

/-- A sequence that reads the state first. -/
theorem Triple.get_bind {q : σ → EStateM FaultCode σ β} (h : ∀ s₀, Triple (fun s => P s ∧ s = s₀) (q s₀) R E) :
    Triple P (MonadState.get >>= q) R E :=
  Triple.bind (Q := fun s₀ s => P s ∧ s = s₀) (fun _ hs => post_ok ⟨hs, rfl⟩) h

/-- A sequence that reads the state first and goes on from any state in `P`, as it does from the one it read. -/
theorem Triple.get_bind_of {q : σ → EStateM FaultCode σ β} (h : ∀ s₀, P s₀ → Triple P (q s₀) R E) : Triple P (MonadState.get >>= q) R E :=
  Triple.get_bind fun s₀ s hs => h s₀ (hs.2 ▸ hs.1) s hs.1

theorem Triple.ite {c : Prop} [Decidable c] {q : EStateM FaultCode σ α} (hp : c → Triple P p Q E) (hq : ¬c → Triple P q Q E) :
    Triple P (if c then p else q) Q E := by
  split
  · exact hp ‹_›
  · exact hq ‹_›

theorem Triple.mono {P' E' : σ → Prop} {Q' : α → σ → Prop} (h : Triple P p Q E) (hP : ∀ s, P' s → P s) (hQ : ∀ a s, Q a s → Q' a s)
    (hE : ∀ s, E s → E' s) : Triple P' p Q' E' :=
  fun s hs => ⟨fun a t e => hQ a t ((h s (hP s hs)).1 a t e), fun f t e => hE t ((h s (hP s hs)).2 f t e)⟩

end

/-! ### Stream pseudocode -/

/-- The pseudocode leaves `I` true, whether it completes or fails. -/
abbrev Keeps {σ α : Type} (I : σ → Prop) (p : EStateM FaultCode σ α) : Prop := Triple I p (fun _ => I) I

/-- What `Serves` says about the invariant alone. -/
theorem Serves.keeps {α : Type} {src : List Byte} {m : Bits α} {d : FaultCode → Dec α} (h : Serves src m d) : Keeps (Stream.Inv src.length) m := by
  intro t ht
  have hserved := h t ht
  split at hserved
  next =>
    obtain ⟨t', hm, ht', -⟩ := hserved
    exact hm ▸ post_ok ht'
  next =>
    obtain ⟨t', hm, ht'⟩ := hserved
    exact hm ▸ post_error ht'

theorem keeps_true {σ α : Type} (p : EStateM FaultCode σ α) : Keeps (fun _ => True) p :=
  fun _ _ => ⟨fun _ _ _ => trivial, fun _ _ _ => trivial⟩

/-- `I` is kept by the stream pseudocode of a walk that decodes with `T`. -/
structure StreamKept (src : List Byte) (T : HuffTable) (I : Stream → Prop) : Prop where
  huffDecode : Keeps I (huffDecode src T)
  readBits : ∀ n, n ≤ 16 → Keeps I (readBits src n)
  receiveExtend : ∀ n, n ≤ 16 → Keeps I (receiveExtend src n)

theorem streamKept_inv (src : List Byte) {T : HuffTable} (hT : T.nCodes = 0 ∨ T.built) : StreamKept src T (Stream.Inv src.length) :=
  ⟨(huffDecode_serves src hT).keeps, fun _ hn => (readBits_serves src hn).keeps, fun _ hn => (receiveExtend_serves src hn).keeps⟩

theorem streamKept_true (src : List Byte) (T : HuffTable) : StreamKept src T fun _ => True :=
  ⟨keeps_true _, fun _ _ => keeps_true _, fun _ _ => keeps_true _⟩

/-! ### Command bodies -/

section
variable {S : State → Prop}

theorem keeps_onStream {α : Type} {p : List Byte → Bits α}
    (h : ∀ s, S s → ∃ I, I s.stream ∧ Keeps I (p s.src) ∧ ∀ t, I t → S { s with stream := t }) : Keeps S (onStream p) := by
  intro s hs
  obtain ⟨I, hI, hp, hS⟩ := h s hs
  obtain ⟨hok, herror⟩ := hp s.stream hI
  cases hrun : p s.src s.stream with
  | ok a t =>
    rw [onStream_ok hrun]
    exact post_ok (hS t (hok a t hrun))
  | error f t =>
    rw [onStream_error hrun]
    exact post_error (hS t (herror f t hrun))

theorem keeps_onLoad {α : Type} {p : List Byte → Walk α}
    (h : ∀ s, S s → ∃ P, P s.load ∧ Keeps P (p s.src) ∧ ∀ l, P l → S (s.withLoad l)) : Keeps S (onLoad p) := by
  intro s hs
  obtain ⟨P, hP, hp, hS⟩ := h s hs
  obtain ⟨hok, herror⟩ := hp s.load hP
  cases hrun : p s.src s.load with
  | ok a l =>
    rw [onLoad_ok hrun]
    exact post_ok (hS l (hok a l hrun))
  | error f l =>
    rw [onLoad_error hrun]
    exact post_error (hS l (herror f l hrun))

/-- A command keeps what its body keeps and its end does not touch. -/
theorem runCommand_keeps {body : Cmd Word} (h : Keeps S body) (hcomplete : ∀ u r, S u → S (u.complete r))
    (hraise : ∀ u f, S u → S (u.raise f)) {s : State} (hs : S s) : S (s.runCommand body) := by
  obtain ⟨hok, herror⟩ := h s hs
  rcases runCommand_cases s body with ⟨-, he⟩ | ⟨-, r, u, hb, he⟩ | ⟨-, f, u, hb, he⟩
  · rwa [he]
  · rw [he]; exact hcomplete u r (hok r u hb)
  · rw [he]; exact hraise u f (herror f u hb)

end

/-! ### Block walks -/

/-- Stream pseudocode inside a walk: `P` survives a new stream in `I`, and what the pseudocode returns is in `V`. -/
theorem Triple.walkStream {α : Type} {I : Stream → Prop} {P : Load → Prop} {V : α → Prop} {p : Bits α} (h : Keeps I p)
    (hV : ∀ t a t', p t = .ok a t' → V a) (hs : ∀ l, P l → I l.stream) (hw : ∀ l t, P l → I t → P { l with stream := t }) :
    Triple P (walkStream p) (fun a l => P l ∧ V a) P := by
  intro l hl
  obtain ⟨hok, herror⟩ := h l.stream (hs l hl)
  cases hp : p l.stream with
  | ok a t =>
    rw [walkStream_ok hp]
    exact post_ok ⟨hw l t hl (hok a t hp), hV _ _ _ hp⟩
  | error f t =>
    rw [walkStream_error hp]
    exact post_error (hw l t hl (herror f t hp))

theorem twoPow_or_lt {r x : Nat} (hr : r ≤ 14) (hx : x < 2 ^ 15) : (BitVec.twoPow 16 r ||| BitVec.ofNat 16 x).toNat < 2 ^ 15 := by
  have hpow : 2 ^ r ≤ 2 ^ 14 := Nat.pow_le_pow_right (by decide) hr
  rw [BitVec.toNat_or, BitVec.toNat_twoPow, BitVec.toNat_ofNat, Nat.mod_eq_of_lt (a := 2 ^ r) (by omega), Nat.mod_eq_of_lt (by omega)]
  exact Nat.or_lt_two_pow (by omega) hx

theorem twoPow_or_ne_zero {r : Nat} (hr : r ≤ 14) (e : Half) : BitVec.twoPow 16 r ||| e ≠ 0 := by
  intro h
  have hbit := congrArg (·.getLsbD r) h
  simp [BitVec.getLsbD_twoPow] at hbit
  omega

/-- `P` survives what a walk over the positions `ss..se` writes, where its stream pseudocode keeps `I`. -/
structure WalkKept (I : Stream → Prop) (ss se : Nat) (P : Load → Prop) : Prop where
  stream : ∀ l, P l → I l.stream
  withStream : ∀ l t, P l → I t → P { l with stream := t }
  put : ∀ l k v, P l → ss ≤ k → k ≤ se → P (l.put k v)
  withEob : ∀ l e, P l → e.toNat < 2 ^ 15 → P { l with eobrun := e }
  countEob : ∀ l, P l → l.eobrun ≠ 0 → P l.countEob

section
variable {src : List Byte} {T : HuffTable} {I : Stream → Prop} {ss se : Nat} {P : Load → Prop}

theorem WalkKept.walkStream {α : Type} {p : Bits α} (hP : WalkKept I ss se P) (h : Keeps I p) : Keeps P (walkStream p) :=
  (Triple.walkStream (V := fun _ => True) h (fun _ _ _ _ => trivial) hP.stream hP.withStream).mono (fun _ => id) (fun _ _ => And.left)
    fun _ => id

variable (hI : StreamKept src T I)
include hI

/-- The AC loop of CL.BLK may write every position from `ss` on. -/
theorem blkLoop_keeps (hP : WalkKept I ss 63 P) (rounds : Nat) {k : Nat} (hk : ss ≤ k) : Keeps P (blkLoop src T rounds k) := by
  induction rounds generalizing k with
  | zero => exact Triple.pure fun _ => id
  | succ rounds ih =>
    unfold blkLoop
    refine Triple.ite (fun _ => Triple.pure fun _ => id) fun _ => (hP.walkStream hI.huffDecode).bind fun rs => ?_
    refine Triple.ite (fun _ => Triple.ite (fun _ => Triple.throw fun _ => id) fun hend => ?value) fun _ =>
      Triple.ite (fun _ => Triple.ite (fun _ => Triple.throw fun _ => id) fun _ => ih (by omega)) fun _ => Triple.pure fun _ => id
    case value =>
      have hsize : rs.toNat % 16 ≤ 16 := by omega
      exact (hP.walkStream (hI.receiveExtend _ hsize)).bind fun v =>
        (Triple.modify fun l hl => hP.put l _ _ hl (by omega) (by omega)).bind fun _ => ih (by omega)

variable (hP : WalkKept I ss se P)
include hP

/-- An end-of-band run read is at least 2^r, so it is not 0. -/
theorem readEobRun_keeps {r : Nat} (hr : r ≤ 14) : Triple P (readEobRun src r) (fun _ l => P l ∧ l.eobrun ≠ 0) P := by
  -- the bits read are OR-ed to the 2^r written first
  have hor : ∀ x, x < 2 ^ 15 → Triple (fun l => P l ∧ l.eobrun = BitVec.twoPow 16 r)
      (modify fun l : Load => { l with eobrun := l.eobrun ||| BitVec.ofNat 16 x }) (fun _ l => P l ∧ l.eobrun ≠ 0) P := fun x hx =>
    Triple.modify fun l ⟨hl, he⟩ => ⟨hP.withEob l _ hl (he ▸ twoPow_or_lt hr hx), he ▸ twoPow_or_ne_zero hr _⟩
  refine (Triple.modify (Q := fun _ l => P l ∧ l.eobrun = BitVec.twoPow 16 r) fun l hl => ⟨hP.withEob l _ hl ?_, rfl⟩).bind fun _ => ?_
  · simpa [Nat.shiftLeft_eq] using twoPow_or_lt (x := 0) hr (by decide)
  refine Triple.ite (fun h0 => ?_) fun _ => hor 0 (by decide)
  have hread : Triple (fun l => P l ∧ l.eobrun = BitVec.twoPow 16 r) (walkStream (readBits src r))
      (fun x l => (P l ∧ l.eobrun = BitVec.twoPow 16 r) ∧ x < 2 ^ r) fun l => P l ∧ l.eobrun = BitVec.twoPow 16 r :=
    Triple.walkStream (hI.readBits r (by omega)) (fun _ _ _ => readBits_lt (Nat.one_le_iff_ne_zero.mpr h0) (by omega))
      (fun l hl => hP.stream l hl.1) fun l t hl ht => ⟨hP.withStream l t hl.1 ht, hl.2⟩
  refine (hread.mono (fun _ => id) (fun _ _ => id) fun _ => And.left).bind fun x => ?_
  by_cases hx : x < 2 ^ r
  · exact (hor x (hx.trans_le (Nat.pow_le_pow_right (by decide) (by omega)))).mono (fun _ => And.left) (fun _ _ => id) fun _ => id
  · exact fun l hl => absurd hl.2 hx

theorem acfLoop_keeps (al rounds : Nat) {k : Nat} (hk : ss ≤ k) : Keeps P (acfLoop src T se al rounds k) := by
  induction rounds generalizing k with
  | zero => exact Triple.pure fun _ => id
  | succ rounds ih =>
    unfold acfLoop
    refine Triple.ite (fun _ => Triple.pure fun _ => id) fun _ => (hP.walkStream hI.huffDecode).bind fun rs => ?_
    refine Triple.ite (fun _ => Triple.ite (fun _ => Triple.throw fun _ => id) fun hend => ?value) fun _ =>
      Triple.ite (fun hr => ?run) fun _ => Triple.ite (fun _ => Triple.throw fun _ => id) fun _ => ih (by omega)
    case value =>
      have hsize : rs.toNat % 16 ≤ 16 := by omega
      exact (hP.walkStream (hI.receiveExtend _ hsize)).bind fun v =>
        (Triple.modify fun l hl => hP.put l _ _ hl (by omega) (by omega)).bind fun _ => ih (by omega)
    case run =>
      have hr14 : rs.toNat / 16 ≤ 14 := by
        have := rs.isLt
        change rs.toNat / 16 ≠ 15 at hr
        omega
      exact (readEobRun_keeps hI hP hr14).bind fun _ => Triple.modify fun l hl => hP.countEob l hl.1 hl.2

theorem acfWalk_keeps (al : Nat) : Keeps P (acfWalk src T ss se al) :=
  Triple.get_bind fun _ => Triple.ite (fun he => Triple.modify fun l hl => hP.countEob l hl.1 (hl.2 ▸ he)) fun _ =>
    (acfLoop_keeps hI hP al 64 le_rfl).mono (fun _ => And.left) (fun _ _ => id) fun _ => id

theorem refineNonZeroes_keeps (delta : Word) (rounds : Nat) {k : Nat} (hk : ss ≤ k) (nz : Option Nat) :
    Triple P (refineNonZeroes src se delta rounds k nz) (fun k' l => P l ∧ ss ≤ k') P := by
  induction rounds generalizing k nz with
  | zero => exact Triple.pure fun _ hl => ⟨hl, hk⟩
  | succ rounds ih =>
    unfold refineNonZeroes
    refine Triple.ite (fun _ => Triple.pure fun _ hl => ⟨hl, hk⟩) fun hle => ?_
    refine Triple.get_bind_of fun _ _ => Triple.ite (fun _ => ?skip) fun _ => ?bit
    case skip =>
      match nz with
      | some 0 => exact Triple.pure fun _ hl => ⟨hl, hk⟩
      | some (m + 1) => exact ih (by omega) _
      | none => exact ih (by omega) _
    case bit =>
      refine (hP.walkStream (hI.readBits 1 (by decide))).bind fun b => (Triple.modify (Q := fun _ => P) fun l hl => ?_).bind fun _ => ih (by omega) _
      split
      · exact hP.put l k _ hl hk (by omega)
      · exact hl

theorem acrLoop_keeps (delta : Word) (rounds : Nat) {k : Nat} (hk : ss ≤ k) :
    Triple P (acrLoop src T se delta rounds k) (fun k' l => P l ∧ ss ≤ k') P := by
  induction rounds generalizing k with
  | zero => exact Triple.pure fun _ hl => ⟨hl, hk⟩
  | succ rounds ih =>
    unfold acrLoop
    refine Triple.ite (fun _ => Triple.pure fun _ hl => ⟨hl, hk⟩) fun _ => (hP.walkStream hI.huffDecode).bind fun rs => ?_
    refine Triple.ite (fun hrun => ?run) fun _ => Triple.ite (fun _ => Triple.throw fun _ => id) fun _ => ?value
    case run =>
      have hr14 : rs.toNat / 16 ≤ 14 := by
        have := rs.isLt
        have : rs.toNat / 16 ≠ 15 := hrun.2
        omega
      exact (readEobRun_keeps hI hP hr14).bind fun _ => Triple.pure fun _ hl => ⟨hl.1, hk⟩
    case value =>
      have last : ∀ z : Word, Triple P (refineNonZeroes src se delta 64 k (some (rs.toNat / 16)) >>= fun k' =>
          if k' > se then throw FaultCode.coefficientOverrun
          else (modify (fun l => if z ≠ 0 then l.put k' z else l) >>= fun _ => acrLoop src T se delta rounds (k' + 1)))
          (fun k' l => P l ∧ ss ≤ k') P := by
        refine fun z => (refineNonZeroes_keeps hI hP delta 64 hk _).bind fun k' => ?_
        refine Triple.ite (fun _ => Triple.throw fun _ => And.left) fun hle l hl => ?_
        refine ((Triple.modify (P := P) (Q := fun _ => P) fun l hl' => ?_).bind fun _ => ih (Nat.le_succ_of_le hl.2)) l hl.1
        split
        · exact hP.put l k' z hl' hl.2 (by omega)
        · exact hl'
      refine Triple.ite (fun _ => (Triple.pure (Q := fun _ => P) fun _ => id).bind last) fun _ => ?_
      exact (hP.walkStream (hI.readBits 1 (by decide))).bind fun b => (Triple.pure (Q := fun _ => P) fun _ => id).bind last

theorem acrWalk_keeps (al : Nat) : Keeps P (acrWalk src T ss se al) := by
  have last : ∀ k, Triple (fun l => P l ∧ ss ≤ k) ((MonadState.get : Walk Load) >>= fun l =>
      if l.eobrun ≠ 0 then (modify Load.countEob >>= fun _ => refineNonZeroes src se (bitAt al) 64 k none >>= fun _ => pure ())
      else pure ()) (fun _ => P) P := fun k =>
    Triple.get_bind fun l₀ => Triple.ite (fun he l hl => ?_) fun _ => Triple.pure fun _ hl => hl.1.1
  · exact Triple.get_bind_of fun _ _ => Triple.ite (fun _ => (acrLoop_keeps hI hP (bitAt al) 64 le_rfl).bind last)
      fun _ => (Triple.pure (Q := fun k l => P l ∧ ss ≤ k) fun _ hl => ⟨hl, le_rfl⟩).bind last
  · exact ((Triple.modify (P := fun l => P l ∧ l = l₀) (Q := fun _ => P) fun l h => hP.countEob l h.1 (h.2 ▸ he)).bind fun _ =>
      (refineNonZeroes_keeps hI hP (bitAt al) 64 hl.1.2 none).bind fun _ => Triple.pure fun _ => And.left) l ⟨hl.1.1, hl.2⟩

end

/-! ### The coefficients outside the band (R299) -/

/-- The coefficients outside the zig-zag positions `ss..se` are those of `old`. -/
def OutsideBand (ss se : Nat) (old new : Vector Word 64) : Prop := ∀ z : Fin 64, z.val < ss ∨ se < z.val → new[unzig z] = old[unzig z]

theorem OutsideBand.set {ss se k : Nat} {old new : Vector Word 64} (h : OutsideBand ss se old new) (hss : ss ≤ k) (hse : k ≤ se) (hse' : se ≤ 63)
    (v : Word) : OutsideBand ss se old (new.set (unzig k) v) := by
  intro z hz
  have hne : unzig k ≠ unzig z := fun he => by
    have hk := zigPos_unzig ⟨k, by omega⟩
    rw [he, zigPos_unzig z] at hk
    have hval := congrArg Fin.val hk
    dsimp only at hval
    omega
  rw [← h z hz]
  exact Vector.getElem_set_ne _ _ fun he => hne (Fin.ext he)

/-- A walk over a band, whatever the stream and the run are, writes no other coefficient. -/
theorem walkKept_outsideBand {ss se : Nat} (hse : se ≤ 63) (old : Vector Word 64) :
    WalkKept (fun _ => True) ss se fun l => OutsideBand ss se old l.coef where
  stream _ _ := trivial
  withStream _ _ hl _ := hl
  put _ _ v hl hk hk' := hl.set hk hk' hse v
  withEob _ _ hl _ := hl
  countEob _ hl _ := hl

theorem keeps_onLoad_outsideBand {ss se : Nat} {old : Vector Word 64} {p : List Byte → Walk Unit}
    (h : ∀ src, Keeps (fun l => OutsideBand ss se old l.coef) (p src)) : Keeps (fun s => OutsideBand ss se old s.coef) (onLoad p) :=
  keeps_onLoad fun s hs => ⟨_, hs, h s.src, fun _ hl => hl⟩

/-- A legal band lies below 64. -/
theorem se_le_of_legal {ss se al : Nat} (h : (alLegal al && bandLegal ss se) = true) : se ≤ 63 := by
  simp only [bandLegal, Bool.and_eq_true, decide_eq_true_eq] at h
  exact h.2.2

theorem clAcf_keeps_outsideBand (slot ss se al : Nat) (old : Vector Word 64) :
    Keeps (fun s => OutsideBand ss se old s.coef) (clAcf slot ss se al) := by
  unfold clAcf
  split
  next hlegal _ =>
    refine Triple.get_bind_of fun s₀ _ => Triple.bind (Q := fun _ s => OutsideBand ss se old s.coef) ?_ fun _ => Triple.pure fun _ => id
    exact keeps_onLoad_outsideBand fun src =>
      acfWalk_keeps (streamKept_true src _) (walkKept_outsideBand (se_le_of_legal hlegal) old) al
  next => exact Triple.throw fun _ => id

theorem clAcr_keeps_outsideBand (slot ss se al : Nat) (old : Vector Word 64) :
    Keeps (fun s => OutsideBand ss se old s.coef) (clAcr slot ss se al) := by
  unfold clAcr
  split
  next hlegal _ =>
    refine Triple.get_bind_of fun s₀ _ => Triple.bind (Q := fun _ s => OutsideBand ss se old s.coef) ?_ fun _ => Triple.pure fun _ => id
    exact keeps_onLoad_outsideBand fun src =>
      acrWalk_keeps (streamKept_true src _) (walkKept_outsideBand (se_le_of_legal hlegal) old) al
  next => exact Triple.throw fun _ => id

/-- The coefficients but COEF[0] are those of `old`. -/
def AcOf (old : Vector Word 64) (s : State) : Prop := ∀ n : Fin 64, n ≠ 0 → s.coef[n] = old[n]

theorem AcOf.setDc {old : Vector Word 64} {s : State} (h : AcOf old s) (v : Word) : AcOf old (s.setDc v) := by
  intro n hn
  rw [← h n hn]
  exact Vector.getElem_set_ne (i := 0) (by decide) n.isLt fun he => hn (Fin.ext he.symm)

theorem keeps_onStream_acOf {α : Type} (p : List Byte → Bits α) (old : Vector Word 64) : Keeps (AcOf old) (onStream p) :=
  keeps_onStream fun _ hs => ⟨fun _ => True, trivial, keeps_true _, fun _ _ => hs⟩

theorem clDcf_keeps_acOf (comp : Fin 4) (slot al : Nat) (old : Vector Word 64) : Keeps (AcOf old) (clDcf comp slot al) := by
  unfold clDcf
  split
  next =>
    refine Triple.get_bind_of fun s₀ _ => (keeps_onStream_acOf _ old).bind fun diff => ?_
    refine Triple.bind (Q := fun _ => AcOf old) (Triple.modify fun _ hs => hs) fun _ => ?_
    exact Triple.bind (Q := fun _ => AcOf old) (Triple.modify fun _ hs => hs.setDc _) fun _ => Triple.pure fun _ => id
  next => exact Triple.throw fun _ => id

theorem clDcr_keeps_acOf (al : Nat) (old : Vector Word 64) : Keeps (AcOf old) (clDcr al) := by
  refine Triple.ite (fun _ => ?_) fun _ => Triple.throw fun _ => id
  refine (keeps_onStream_acOf _ old).bind fun b => (Triple.modify (Q := fun _ => AcOf old) fun s hs => ?_).bind fun _ => Triple.pure fun _ => id
  split
  · exact hs.setDc _
  · exact hs

/-- Settles O46: the DC commands write through `setDc`, the walks write between the ends of their band; how the command ends writes no
coefficient. -/
theorem progressiveCommandsStayInTheirBand : Obligations.ProgressiveCommandsStayInTheirBand := by
  refine fun s t _ _ => ⟨fun comp slot al h => ?dc, fun slot ss se al h => ?band⟩
  case dc =>
    have hstart : AcOf s.coef s := fun _ _ => rfl
    rcases h with h | h
    · cases h
      exact runCommand_keeps (S := AcOf s.coef) (clDcf_keeps_acOf comp slot al s.coef) (fun _ _ => id) (fun _ _ => id) hstart
    · cases h
      exact runCommand_keeps (S := AcOf s.coef) (clDcr_keeps_acOf al s.coef) (fun _ _ => id) (fun _ _ => id) hstart
  case band =>
    have hstart : OutsideBand ss se s.coef s.coef := fun _ _ => rfl
    rcases h with h | h
    · cases h
      exact runCommand_keeps (S := fun u => OutsideBand ss se s.coef u.coef) (clAcf_keeps_outsideBand slot ss se al s.coef) (fun _ _ => id) (fun _ _ => id) hstart
    · cases h
      exact runCommand_keeps (S := fun u => OutsideBand ss se s.coef u.coef) (clAcr_keeps_outsideBand slot ss se al s.coef) (fun _ _ => id) (fun _ _ => id) hstart

end Sys2Proof.Machine
end

section
/-! The invariant of the block (`10_state.md` R43) through every command. -/

namespace Sys2Proof.Machine

/-- The part of the invariant that command bodies can touch. -/
structure State.BlockInv (s : State) : Prop where
  stream : s.stream.Inv s.src.length
  eobrun_lt : s.eobrun.toNat < 2 ^ 15
  tables : ∀ (tc : Fin 2) (th : Fin 4), s.ht[tc][th].nCodes = 0 ∨ s.ht[tc][th].built
  pram : s.pram.wf

theorem State.Inv.blockInv {s : State} (h : s.Inv) : s.BlockInv := ⟨h.stream, Nat.lt_succ_of_le h.eobrun_le, h.tables, h.pram⟩

/-! ### Streams and walks -/

theorem readByte_keeps (src : List Byte) : Keeps (Stream.Inv src.length) (readByte src) := by
  intro t ht
  cases hb : src[t.pos]? with
  | none => exact readByte_of_end (List.getElem?_eq_none_iff.mp hb) ▸ post_error ht
  | some b =>
    obtain ⟨hpos, -⟩ := List.getElem?_eq_some_iff.mp hb
    exact readByte_of_some hb ▸ post_ok ⟨hpos, Nat.zero_le _, ht.cnt_le, ht.acc_lt⟩

theorem returnOvershoot_keeps (len : Nat) : Keeps (Stream.Inv len) returnOvershoot := by
  intro t ht
  by_cases h : t.nunrd = 0 ∨ t.cnt < 8
  · exact returnOvershoot_of_not_held h ▸ post_ok ⟨ht.pos_le, Nat.zero_le _, ht.cnt_le, ht.acc_lt⟩
  · rw [not_or, Nat.not_lt] at h
    refine returnOvershoot_of_held h.1 h.2 ▸ post_ok ⟨?_, Nat.zero_le _, ?_, ?_⟩
    · exact (Nat.sub_le _ _).trans ht.pos_le
    · exact (Nat.sub_le _ _).trans ht.cnt_le
    · rw [BitVec.toNat_ushiftRight, Nat.shiftRight_eq_div_pow, Nat.div_lt_iff_lt_mul (by decide), ← pow_add, Nat.sub_add_cancel h.2]
      exact ht.acc_lt

theorem ensureBits_keeps (src : List Byte) {n : Nat} (hn : n ≤ 16) : Keeps (Stream.Inv src.length) (ensureBits src n) := by
  intro t ht
  obtain ⟨hok, herror⟩ := ensureLoop_spec src n hn n t ht (by omega)
  rcases Nat.lt_or_ge (Reference.pending src t).length n with h | h
  · obtain ⟨t', he, ht', -⟩ := herror h
    rw [ensureBits, he]
    exact post_error ht'
  · obtain ⟨t', he, ht', -⟩ := hok h
    rw [ensureBits, he]
    exact post_ok ht'

/-- A walk over any band keeps the stream's invariant and the range of EOBRUN. -/
theorem walkKept_inv (len ss se : Nat) :
    WalkKept (Stream.Inv len) ss se fun l => l.stream.Inv len ∧ l.eobrun.toNat < 2 ^ 15 where
  stream _ hl := hl.1
  withStream _ _ hl ht := ⟨ht, hl.2⟩
  put _ _ _ hl _ _ := hl
  withEob _ _ hl he := ⟨hl.1, he⟩
  countEob l hl hne := by
    have hpos : l.eobrun.toNat ≠ 0 := fun h => hne (BitVec.eq_of_toNat_eq h)
    refine ⟨hl.1, ?_⟩
    rw [Load.countEob_eobrun, BitVec.toNat_sub]
    have := hl.2
    simp only [BitVec.reduceToNat]
    omega

theorem keeps_onStream_block {α : Type} {p : List Byte → Bits α} (h : ∀ src : List Byte, Keeps (Stream.Inv src.length) (p src)) :
    Keeps State.BlockInv (onStream p) :=
  keeps_onStream fun s hs => ⟨_, hs.stream, h s.src, fun _ ht => { hs with stream := ht }⟩

theorem keeps_onLoad_block {α : Type} {p : List Byte → Walk α}
    (h : ∀ src : List Byte, Keeps (fun l => l.stream.Inv src.length ∧ l.eobrun.toNat < 2 ^ 15) (p src)) : Keeps State.BlockInv (onLoad p) :=
  keeps_onLoad fun s hs => ⟨_, ⟨hs.stream, hs.eobrun_lt⟩, h s.src, fun _ hl => { hs with stream := hl.1, eobrun_lt := hl.2 }⟩

/-! ### Bodies -/

theorem Stream.Inv.bitReset {len : Nat} {t : Stream} (h : t.Inv len) : t.bitReset.Inv len :=
  ⟨h.pos_le, h.nunrd_le, Nat.zero_le _, Nat.one_pos⟩

theorem State.BlockInv.advance {s : State} (h : s.BlockInv) {n : Nat} (hn : s.stream.pos + n ≤ s.src.length) : (s.advance n).BlockInv :=
  { h with stream := ⟨hn, Nat.zero_le _, h.stream.cnt_le, h.stream.acc_lt⟩ }

theorem bsRdx_keeps (n : Nat) : Keeps State.BlockInv (bsRdx n) := by
  intro s hs
  unfold bsRdx
  split
  · exact post_error hs
  · split
    · exact post_error hs
    · have hstore : State.BlockInv { s with pram := s.pram.store 0 ((s.src.drop s.stream.pos).take n) } :=
        { hs with pram := Memory.wf_store hs.pram _ _ }
      exact post_ok (hstore.advance (Nat.not_lt.mp ‹_›))

theorem bsSkip_keeps (n : Nat) : Keeps State.BlockInv (bsSkip n) := by
  intro s hs
  unfold bsSkip
  split
  · exact post_error hs
  · exact post_ok (hs.advance (Nat.not_lt.mp ‹_›))

theorem htBuild_keeps (tc th : Nat) : Keeps State.BlockInv (htBuild tc th) := by
  intro s hs
  unfold htBuild
  split
  next c h _ _ =>
    split
    next hlegal =>
      refine post_ok { hs with tables := fun tc th => ?_ }
      rw [State.setTable_ht]
      by_cases hc : c = tc
      · subst hc
        by_cases hh : h = th
        · subst hh
          right
          simpa using ⟨_, _, hlegal, rfl⟩
        · have hne : h.val ≠ th.val := fun e => hh (Fin.ext e)
          simpa [Vector.getElem_set, hne] using hs.tables c th
      · have hne : c.val ≠ tc.val := fun e => hc (Fin.ext e)
        simpa [Vector.getElem_set, hne] using hs.tables tc th
    next => exact post_error hs
  next => exact post_error hs

theorem htDec_keeps (tc th : Nat) : Keeps State.BlockInv (htDec tc th) := by
  unfold htDec
  split
  · exact Triple.get_bind_of fun s₀ hs₀ =>
      (keeps_onStream_block fun src => (huffDecode_serves src (hs₀.tables _ _)).keeps).bind fun _ => Triple.pure fun _ => id
  · exact Triple.throw fun _ => id

theorem clBlk_keeps (comp : Fin 4) (td ta : Nat) : Keeps State.BlockInv (clBlk comp td ta) := by
  unfold clBlk
  split
  · refine Triple.get_bind_of fun s₀ hs₀ => ?_
    refine Triple.bind (Q := fun _ => State.BlockInv) (Triple.modify fun _ hs => { hs with }) fun _ => ?_
    refine (keeps_onStream_block fun src => (decodeDcDiff_serves src (hs₀.tables 0 _)).keeps).bind fun diff => ?_
    refine Triple.bind (Q := fun _ => State.BlockInv) (Triple.modify fun _ hs => { hs with }) fun _ => ?_
    refine Triple.bind (Q := fun _ => State.BlockInv) (Triple.modify fun _ hs => { hs with }) fun _ => ?_
    exact (keeps_onLoad_block fun src => blkLoop_keeps (streamKept_inv src (hs₀.tables 1 _)) (walkKept_inv src.length 1 63) 64 le_rfl).bind
      fun _ => Triple.pure fun _ => id
  · exact Triple.throw fun _ => id

theorem clDcf_keeps (comp : Fin 4) (slot al : Nat) : Keeps State.BlockInv (clDcf comp slot al) := by
  unfold clDcf
  split
  · refine Triple.get_bind_of fun s₀ hs₀ => ?_
    refine (keeps_onStream_block fun src => (decodeDcDiff_serves src (hs₀.tables 0 _)).keeps).bind fun diff => ?_
    refine Triple.bind (Q := fun _ => State.BlockInv) (Triple.modify fun _ hs => { hs with }) fun _ => ?_
    exact Triple.bind (Q := fun _ => State.BlockInv) (Triple.modify fun _ hs => { hs with }) fun _ => Triple.pure fun _ => id
  · exact Triple.throw fun _ => id

theorem clDcr_keeps (al : Nat) : Keeps State.BlockInv (clDcr al) := by
  refine Triple.ite (fun _ => ?_) fun _ => Triple.throw fun _ => id
  refine (keeps_onStream_block fun src => (readBits_serves src (n := 1) (by decide)).keeps).bind fun b => ?_
  refine Triple.bind (Q := fun _ => State.BlockInv) (Triple.modify fun s hs => ?_) fun _ => Triple.pure fun _ => id
  split
  · exact { hs with }
  · exact hs

theorem clAcf_keeps (slot ss se al : Nat) : Keeps State.BlockInv (clAcf slot ss se al) := by
  unfold clAcf
  split
  · exact Triple.get_bind_of fun s₀ hs₀ => (keeps_onLoad_block fun src =>
      acfWalk_keeps (streamKept_inv src (hs₀.tables 1 _)) (walkKept_inv src.length ss se) al).bind fun _ => Triple.pure fun _ => id
  · exact Triple.throw fun _ => id

theorem clAcr_keeps (slot ss se al : Nat) : Keeps State.BlockInv (clAcr slot ss se al) := by
  unfold clAcr
  split
  · exact Triple.get_bind_of fun s₀ hs₀ => (keeps_onLoad_block fun src =>
      acrWalk_keeps (streamKept_inv src (hs₀.tables 1 _)) (walkKept_inv src.length ss se) al).bind fun _ => Triple.pure fun _ => id
  · exact Triple.throw fun _ => id

theorem clRstm_keeps : Keeps State.BlockInv clRstm := by
  unfold clRstm
  refine (keeps_onStream_block fun src => returnOvershoot_keeps src.length).bind fun _ => ?_
  refine (keeps_onStream_block readByte_keeps).bind fun b0 => (keeps_onStream_block readByte_keeps).bind fun b1 => ?_
  refine Triple.get_bind_of fun s₀ _ => Triple.ite (fun _ => Triple.throw fun _ => id) fun _ => ?_
  refine Triple.bind (Q := fun _ => State.BlockInv) (Triple.modify fun s hs => ?_) fun _ => Triple.pure fun _ => id
  exact { hs with stream := hs.stream.bitReset, eobrun_lt := (by decide : (0 : Half).toNat < 2 ^ 15) }

theorem clScan_keeps : Keeps State.BlockInv clScan := fun s hs =>
  post_ok { hs with
    stream := ⟨hs.stream.pos_le, Nat.zero_le _, Nat.zero_le _, Nat.one_pos⟩, eobrun_lt := (by decide : (0 : Half).toNat < 2 ^ 15) }

theorem qtLoad_keeps (pq tq : Nat) : Keeps State.BlockInv (qtLoad pq tq) := by
  intro s hs
  unfold qtLoad
  split
  · exact post_ok { hs with }
  · exact post_error hs

theorem xfCfg_keeps (comp : Fin 4) (v : Nat) : Keeps State.BlockInv (xfCfg comp v) := by
  intro s hs
  unfold xfCfg
  split
  · exact post_ok { hs with }
  · exact post_error hs

theorem xfDq_keeps (comp : Fin 4) (tq : Nat) : Keeps State.BlockInv (xfDq comp tq) := by
  intro s hs
  rcases xfDq_cases comp tq s with ⟨f, he⟩ | ⟨d, he⟩
  · exact he ▸ post_error hs
  · exact he ▸ post_ok { hs with }

theorem xfIdct_keeps (comp : Fin 4) : Keeps State.BlockInv (xfIdct comp) := by
  intro s hs
  unfold xfIdct
  dsimp only
  split
  · exact post_ok { hs with }
  · exact post_error hs

/-- Every command but SS.INIT is a body that keeps the block's part of the invariant. -/
theorem exec_keeps {i : Instr} (hi : i ≠ .ssInit) :
    ∃ body, (∀ s, exec i s = .next (s.runCommand body)) ∧ Keeps State.BlockInv body := by
  cases i with
  | nop => exact ⟨_, fun _ => rfl, Triple.pure fun _ => id⟩
  | ssInit => exact absurd rfl hi
  | bsRdb => exact ⟨_, fun _ => rfl, (keeps_onStream_block readByte_keeps).bind fun _ => Triple.pure fun _ => id⟩
  | bsUnrd =>
    exact ⟨_, fun _ => rfl, (keeps_onStream_block fun src => returnOvershoot_keeps src.length).bind fun _ => Triple.pure fun _ => id⟩
  | bsRdx n => exact ⟨_, fun _ => rfl, bsRdx_keeps n⟩
  | bsSkip n => exact ⟨_, fun _ => rfl, bsSkip_keeps n⟩
  | baEns n =>
    refine ⟨_, fun _ => rfl, Triple.ite (fun _ => Triple.throw fun _ => id) fun h => ?_⟩
    exact (keeps_onStream_block fun src => ensureBits_keeps src (by omega)).bind fun _ => Triple.pure fun _ => id
  | baRdbit =>
    exact ⟨_, fun _ => rfl, (keeps_onStream_block fun src => (readBits_serves src (n := 1) (by decide)).keeps).bind fun _ =>
      Triple.pure fun _ => id⟩
  | baRdbits n =>
    refine ⟨_, fun _ => rfl, Triple.ite (fun _ => Triple.throw fun _ => id) fun h => ?_⟩
    exact (keeps_onStream_block fun src => (readBits_serves src (by omega)).keeps).bind fun _ => Triple.pure fun _ => id
  | baRcvx t =>
    refine ⟨_, fun _ => rfl, Triple.ite (fun _ => Triple.throw fun _ => id) fun h => ?_⟩
    exact (keeps_onStream_block fun src => (receiveExtend_serves src (by omega)).keeps).bind fun _ => Triple.pure fun _ => id
  | baRst => exact ⟨_, fun _ => rfl, fun s hs => post_ok { hs with stream := hs.stream.bitReset }⟩
  | htBuild tc th => exact ⟨_, fun _ => rfl, htBuild_keeps tc th⟩
  | htDec tc th => exact ⟨_, fun _ => rfl, htDec_keeps tc th⟩
  | clClr => exact ⟨_, fun _ => rfl, fun s hs => post_ok { hs with }⟩
  | clBlk comp td ta => exact ⟨_, fun _ => rfl, clBlk_keeps comp td ta⟩
  | clDcf comp slot al => exact ⟨_, fun _ => rfl, clDcf_keeps comp slot al⟩
  | clDcr al => exact ⟨_, fun _ => rfl, clDcr_keeps al⟩
  | clAcf slot ss se al => exact ⟨_, fun _ => rfl, clAcf_keeps slot ss se al⟩
  | clAcr slot ss se al => exact ⟨_, fun _ => rfl, clAcr_keeps slot ss se al⟩
  | clRstm => exact ⟨_, fun _ => rfl, clRstm_keeps⟩
  | clScan => exact ⟨_, fun _ => rfl, clScan_keeps⟩
  | qtLoad pq tq => exact ⟨_, fun _ => rfl, qtLoad_keeps pq tq⟩
  | xfCfg comp v => exact ⟨_, fun _ => rfl, xfCfg_keeps comp v⟩
  | xfDq comp tq => exact ⟨_, fun _ => rfl, xfDq_keeps comp tq⟩
  | xfIdct comp => exact ⟨_, fun _ => rfl, xfIdct_keeps comp⟩
  | xfRun comp tq => exact ⟨_, fun _ => rfl, (xfDq_keeps comp tq).bind fun _ => xfIdct_keeps comp⟩

/-! ### The whole invariant -/

theorem State.Inv.complete {s u : State} {ws : List Item} (h : s.Inv) (hu : Framed ws s u) (hb : u.BlockInv) (r : Word) :
    (u.complete r).Inv where
  idle := by simpa [hu.status] using h.idle
  clean := by simpa [hu.status, hu.finfo] using h.clean
  coded := by simpa [hu.status] using h.coded
  stream := hb.stream
  src_lt := by simpa [hu.same.src] using h.src_lt
  nextSrc_lt := by simpa [hu.same.nextSrc] using h.nextSrc_lt
  eobrun_le := Nat.le_of_lt_succ hb.eobrun_lt
  tables := hb.tables
  pram := hb.pram

theorem State.Inv.raise {s u : State} {ws : List Item} (h : s.Inv) (hu : Framed ws s u) (hb : u.BlockInv) (f : FaultCode) :
    (u.raise f).Inv where
  idle := by simpa [hu.status, Status.raised] using h.idle
  clean := nofun
  coded _ := ⟨f, rfl⟩
  stream := hb.stream
  src_lt := by simpa [hu.same.src] using h.src_lt
  nextSrc_lt := by simpa [hu.same.nextSrc] using h.nextSrc_lt
  eobrun_le := Nat.le_of_lt_succ hb.eobrun_lt
  tables := hb.tables
  pram := hb.pram

/-- A command keeps the invariant, whether it completes or faults. -/
theorem exec_inv {i : Instr} {s t : State} (hi : i ≠ .ssInit) (h : s.Inv) (ht : exec i s = .next t) : t.Inv := by
  obtain ⟨body, he, hkeeps⟩ := exec_keeps hi
  have hb : (s.runCommand body).BlockInv := runCommand_keeps hkeeps (fun _ _ hu => { hu with }) (fun _ _ hu => { hu with }) h.blockInv
  obtain rfl : s.runCommand body = t := by simpa [he] using ht
  cases hf : s.status.fault with
  | true => rwa [runCommand_faulted hf]
  | false =>
    rcases exec_cases hi hf with ⟨r, u, hu, hc⟩ | ⟨f, -, u, hu, hc⟩
    · obtain hrun : s.runCommand body = u.complete r := by simpa [he] using hc
      rw [hrun] at hb ⊢
      exact h.complete hu { hb with } r
    · obtain hrun : s.runCommand body = u.raise f := by simpa [he] using hc
      rw [hrun] at hb ⊢
      exact h.raise hu { hb with } f

end Sys2Proof.Machine
end

section
/-! The opcode table beside the decoder (`30_encoding.md` R83, R85): a row's mask is a choice of fields, its pattern an opcode. -/

namespace Sys2Proof.Machine

/-! ### Masks -/

/-- The bits `hi..lo` of a word. -/
def fieldMask (hi lo : Nat) : Word := BitVec.ofNat 32 ((2 ^ (hi - lo + 1) - 1) * 2 ^ lo)

theorem nat_and_mask (x k lo : Nat) : x &&& (2 ^ k - 1) * 2 ^ lo = x / 2 ^ lo % 2 ^ k * 2 ^ lo := by
  apply Nat.eq_of_testBit_eq
  intro i
  simp only [Nat.testBit_and, Nat.testBit_mul_two_pow, Nat.testBit_two_pow_sub_one, Nat.testBit_mod_two_pow, Nat.testBit_div_two_pow]
  by_cases h : lo ≤ i
  · rw [Nat.sub_add_cancel h]
    simp [h, Bool.and_comm]
  · simp [h]

theorem fieldOf_mul_lt (w : Word) (hi lo : Nat) : fieldOf w hi lo * 2 ^ lo < 2 ^ 32 := by
  rw [fieldOf, ← nat_and_mask]
  exact Nat.and_le_left.trans_lt w.isLt

/-- Masking a word leaves the field in its place. -/
theorem and_fieldMask (w : Word) {hi lo : Nat} (h : hi < 32) (h' : lo ≤ hi) :
    w &&& fieldMask hi lo = BitVec.ofNat 32 (fieldOf w hi lo * 2 ^ lo) := by
  have hmask : (2 ^ (hi - lo + 1) - 1) * 2 ^ lo < 2 ^ 32 := by
    have hle : 2 ^ (hi - lo + 1) * 2 ^ lo ≤ 2 ^ 32 := by
      rw [← pow_add]
      exact Nat.pow_le_pow_right (by decide) (by omega)
    exact (Nat.mul_lt_mul_of_pos_right (Nat.sub_one_lt (Nat.two_pow_pos _).ne') (Nat.two_pow_pos _)).trans_le hle
  apply BitVec.eq_of_toNat_eq
  rw [BitVec.toNat_and, fieldMask, BitVec.toNat_ofNat, BitVec.toNat_ofNat, Nat.mod_eq_of_lt hmask, nat_and_mask, ← fieldOf,
    Nat.mod_eq_of_lt (fieldOf_mul_lt w hi lo)]

theorem and_fieldMask_eq_iff (w : Word) {hi lo v : Nat} (h : hi < 32) (h' : lo ≤ hi) (hv : v * 2 ^ lo < 2 ^ 32) :
    w &&& fieldMask hi lo = BitVec.ofNat 32 (v * 2 ^ lo) ↔ fieldOf w hi lo = v := by
  rw [and_fieldMask w h h', ← BitVec.toNat_inj, BitVec.toNat_ofNat, BitVec.toNat_ofNat, Nat.mod_eq_of_lt (fieldOf_mul_lt w hi lo),
    Nat.mod_eq_of_lt hv]
  exact Nat.mul_right_cancel_iff (Nat.two_pow_pos lo)

/-- Masking with a field the pattern has no bit of asks for zeros there. -/
theorem and_or_eq_iff {w m f p : Word} (hp : p &&& f = 0) : w &&& (m ||| f) = p ↔ w &&& m = p ∧ w &&& f = 0 := by
  have hor : ∀ x : Word, x ||| 0 = x := fun _ => BitVec.or_zero
  refine ⟨fun h => ?_, fun ⟨hm, hf⟩ => by rw [BitVec.and_or_distrib_left, hm, hf, hor]⟩
  have hf : w &&& f = 0 := by
    have hsub : (m ||| f) &&& f = f := by
      ext i
      simp +contextual
    rw [← hp, ← h, BitVec.and_assoc, hsub]
  rw [BitVec.and_or_distrib_left, hf, hor] at h
  exact ⟨h, hf⟩

/-- The mask of a format: the opcode and the must-be-zero fields (R81). -/
def formatMask (zero : List (Nat × Nat)) : Word := zero.foldr (fun p m => m ||| fieldMask p.1 p.2) (fieldMask 31 24)

/-- A word matches a format's mask and an opcode's pattern exactly when it has the opcode and zeros where they must be. -/
theorem and_formatMask_eq_iff (w : Word) {op : Nat} (hop : op < 2 ^ 8) {zero : List (Nat × Nat)}
    (hzero : ∀ p ∈ zero, p.1 < 24 ∧ p.2 ≤ p.1 ∧ commandWord op 0 &&& fieldMask p.1 p.2 = 0) :
    w &&& formatMask zero = commandWord op 0 ↔ fieldOf w 31 24 = op ∧ ∀ p ∈ zero, fieldOf w p.1 p.2 = 0 := by
  induction zero with
  | nil => simpa [formatMask, commandWord] using and_fieldMask_eq_iff w (hi := 31) (lo := 24) (v := op) (by decide) (by decide) (by omega)
  | cons p zero ih =>
    obtain ⟨⟨hlt, hle, hand⟩, hrest⟩ := List.forall_mem_cons.mp hzero
    have hfield := and_fieldMask_eq_iff w (hi := p.1) (lo := p.2) (v := 0) (by omega) hle (by simp)
    rw [Nat.zero_mul] at hfield
    rw [formatMask, List.foldr_cons, and_or_eq_iff hand, ← formatMask, ih hrest, List.forall_mem_cons, and_assoc,
      and_comm (a := ∀ q ∈ zero, _), ← hfield]
    rfl

/-! ### Opcodes -/

theorem whenZero_eq_ok {zero : Bool} {i j : Instr} (h : whenZero zero i = .ok j) : i = j := by
  cases zero with
  | false => nomatch h
  | true => cases h; rfl

/-- The opcode in the pattern of the row of that name. -/
def rowOpcode (name : String) : Option Nat := (opcodeTable.find? (·.mnemonic == name)).map fun row => fieldOf row.pattern 31 24

/-- A word that decodes carries the opcode of its command's row: every format makes that command or none. -/
theorem rowOpcode_of_decode {w : Word} {i : Instr} (h : decode w = .ok i) : rowOpcode i.mnemonic = some (fieldOf w 31 24) := by
  rw [← bitField_eq_fieldOf w (by decide)]
  unfold decode at h
  split at h
  case h_27 => nomatch h
  all_goals
    obtain rfl := whenZero_eq_ok h
    rw [‹bitField w 31 24 = _›]
    rfl

/-- The row of a command. -/
theorem exists_row_of_decode {w : Word} {i : Instr} (h : decode w = .ok i) :
    ∃ row ∈ opcodeTable, row.mnemonic = i.mnemonic ∧ fieldOf row.pattern 31 24 = fieldOf w 31 24 := by
  obtain ⟨row, hfind, hop⟩ := Option.map_eq_some_iff.mp (rowOpcode_of_decode h)
  exact ⟨row, List.mem_of_find?_eq_some hfind, by simpa using List.find?_some hfind, hop⟩

/-! ### Rows -/

/-- A word matches the row exactly when it decodes to a command of the row's name. -/
def RowAgrees (row : OpcodeRow) : Prop := ∀ w : Word, w &&& row.mask = row.pattern ↔ ∃ i, decode w = .ok i ∧ i.mnemonic = row.mnemonic

/-- A row whose mask and pattern are those of the format of its command (R81) agrees with the decoder. -/
theorem rowAgrees {op : Nat} {zero : List (Nat × Nat)} {mk : (Nat → Nat → Nat) → Instr} {row : OpcodeRow} (hword : wordMeans op zero mk)
    (hname : ∀ f, (mk f).mnemonic = row.mnemonic)
    (hrow : row.pattern = commandWord op 0 ∧ row.mask = formatMask zero ∧ rowOpcode row.mnemonic = some op ∧ op < 2 ^ 8 ∧
      ∀ p ∈ zero, p.1 < 24 ∧ p.2 ≤ p.1 ∧ commandWord op 0 &&& fieldMask p.1 p.2 = 0) : RowAgrees row := by
  intro w
  obtain ⟨hpattern, hmask, hrowOpcode, hop, hzero⟩ := hrow
  rw [hpattern, hmask, and_formatMask_eq_iff w hop hzero]
  refine ⟨fun ⟨hw, hz⟩ => ⟨mk (fieldOf w), by rw [hword w hw, if_pos hz], hname _⟩, fun ⟨i, hi, hmnemonic⟩ => ?_⟩
  have hopcode := rowOpcode_of_decode hi
  rw [hmnemonic, hrowOpcode] at hopcode
  have hw : fieldOf w 31 24 = op := (Option.some.inj hopcode).symm
  refine ⟨hw, ?_⟩
  by_contra hz
  rw [hword w hw, if_neg hz] at hi
  nomatch hi

/-- Settles O4: each of the 26 rows has the mask and the pattern of its command's format. -/
theorem opcodeTableAgreesWithDecode : Obligations.OpcodeTableAgreesWithDecode := by
  have hall : ∀ row ∈ opcodeTable, RowAgrees row := by
    obtain ⟨hnop, hssInit, hbsRdb, hbsUnrd, hbsRdx, hbsSkip, hbaEns, hbaRdbit, hbaRdbits, hbaRcvx, hbaRst, hhtBuild, hhtDec, hclClr, hclBlk,
      hclDcf, hclDcr, hclAcf, hclAcr, hclRstm, hclScan, hqtLoad, hxfCfg, hxfDq, hxfIdct, hxfRun⟩ := commandWordsFollowTheirFormats
    simp only [opcodeTable, List.cons_append, List.nil_append, List.forall_mem_cons]
    exact ⟨rowAgrees hnop (fun _ => rfl) (by decide), rowAgrees hssInit (fun _ => rfl) (by decide),
      rowAgrees hbsRdb (fun _ => rfl) (by decide), rowAgrees hbsUnrd (fun _ => rfl) (by decide),
      rowAgrees hbsRdx (fun _ => rfl) (by decide), rowAgrees hbsSkip (fun _ => rfl) (by decide),
      rowAgrees hbaEns (fun _ => rfl) (by decide), rowAgrees hbaRdbit (fun _ => rfl) (by decide),
      rowAgrees hbaRdbits (fun _ => rfl) (by decide), rowAgrees hbaRcvx (fun _ => rfl) (by decide),
      rowAgrees hbaRst (fun _ => rfl) (by decide), rowAgrees hhtBuild (fun _ => rfl) (by decide),
      rowAgrees hhtDec (fun _ => rfl) (by decide), rowAgrees hclClr (fun _ => rfl) (by decide),
      rowAgrees hclBlk (fun _ => rfl) (by decide), rowAgrees hclDcf (fun _ => rfl) (by decide),
      rowAgrees hclDcr (fun _ => rfl) (by decide), rowAgrees hclAcf (fun _ => rfl) (by decide),
      rowAgrees hclAcr (fun _ => rfl) (by decide), rowAgrees hclRstm (fun _ => rfl) (by decide),
      rowAgrees hclScan (fun _ => rfl) (by decide), rowAgrees hqtLoad (fun _ => rfl) (by decide),
      rowAgrees hxfCfg (fun _ => rfl) (by decide), rowAgrees hxfDq (fun _ => rfl) (by decide),
      rowAgrees hxfIdct (fun _ => rfl) (by decide), rowAgrees hxfRun (fun _ => rfl) (by decide), nofun⟩
  exact fun w row hrow => hall row hrow w

/-! ### Words that are no command -/

section
variable {s : State} {w : Word} (hb : s.status.busy = false) (hf : s.status.fault = false)
include hb hf

/-- A word the decoder rejects raises IllegalCommand. -/
theorem issue_of_error {e : DecodeError} (h : decode w = .error e) : issue w s = .next ({ s with cmd := w }.raise .illegalCommand) := by
  simp [issue, hb, hf, h]

/-- What that writes (R85). -/
theorem issue_of_error_record {e : DecodeError} (h : decode w = .error e) :
    issue w s = .next { s with cmd := w, status := ⟨false, true, 0x40⟩, finfo := w } := by
  rw [issue_of_error hb hf h, State.raise, Status.raised, hb]
  rfl

theorem issue_of_ok {i : Instr} (h : decode w = .ok i) : issue w s = exec i { s with cmd := w } := by
  simp [issue, hb, hf, h]

end

/-- Settles O5: a word that decodes matches its command's row, and no row's opcode is among the unassigned ones. -/
theorem illegalWordsRaiseIllegalCommand : Obligations.IllegalWordsRaiseIllegalCommand := by
  intro s w hb hf hillegal
  cases hd : decode w with
  | error e => exact issue_of_error_record hb hf hd
  | ok i =>
    exfalso
    obtain ⟨row, hrow, hname, hop⟩ := exists_row_of_decode hd
    rcases hillegal with hnone | hunassigned
    · exact hnone row hrow ((opcodeTableAgreesWithDecode w row hrow).mpr ⟨i, hd, hname.symm⟩)
    · rw [← hop] at hunassigned
      clear hname hop
      revert row
      decide

/-- Settles O6: each word is decoded. -/
theorem exampleWordsDecode : Obligations.ExampleWordsDecode := by
  unfold Obligations.ExampleWordsDecode
  decide

end Sys2Proof.Machine
end

section
/-! The register window (`10_state.md` R40): where each register stands, and what a host load or store of it does. -/

namespace Sys2Proof.Machine

/-! ### Offsets -/

/-- Where a register stands in the window (R40). -/
def Reg.offset : Reg → Nat
  | .cmd => 0x000
  | .status => 0x004
  | .result => 0x008
  | .ccnt => 0x00C
  | .finfo => 0x010
  | .srcPos => 0x014
  | .nunrd => 0x018
  | .baAcc => 0x01C
  | .baCnt => 0x020
  | .eobrun => 0x024
  | .rstexp => 0x028
  | .dqtag => 0x02C
  | .dcpred c => 0x030 + 4 * c.val
  | .xcfg c => 0x040 + 4 * c.val
  | .coef n => 0x100 + 4 * n.val
  | .dqb n => 0x200 + 4 * n.val
  | .samp k => 0x300 + 4 * k.val
  | .pram k => 0x400 + 4 * k.val

theorem accessed_dcpred : ∀ c : Fin 4, accessed (0x030 + 4 * c.val) 4 = some (.dcpred c) := by decide

theorem accessed_xcfg : ∀ c : Fin 4, accessed (0x040 + 4 * c.val) 4 = some (.xcfg c) := by decide

theorem accessed_dqb : ∀ n : Fin 64, accessed (0x200 + 4 * n.val) 4 = some (.dqb n) := by decide

theorem accessed_samp : ∀ k : Fin 16, accessed (0x300 + 4 * k.val) 4 = some (.samp k) := by decide

theorem accessed_offset (r : Reg) : accessed r.offset 4 = some r := by
  cases r with
  | dcpred c => exact accessed_dcpred c
  | xcfg c => exact accessed_xcfg c
  | coef n => exact accessed_coef n
  | dqb n => exact accessed_dqb n
  | samp k => exact accessed_samp k
  | pram k => exact accessed_pram k
  | _ => rfl

theorem indexedReg_eq_some {base n off : Nat} {k : Fin n} (h : indexedReg base n off = some k) (hoff : off % 4 = 0) (hbase : base % 4 = 0) :
    off = base + 4 * k.val := by
  unfold indexedReg at h
  split at h
  next hk =>
    cases h
    dsimp only
    omega
  next => nomatch h

theorem namedReg_eq_some {off : Nat} {r : Reg} (h : namedReg off = some r) : off = r.offset := by
  unfold namedReg at h
  split at h
  case h_13 => nomatch h
  all_goals
    cases h
    rfl

/-- No register is reached from another offset. -/
theorem offset_of_accessed {off size : Nat} {r : Reg} (h : accessed off size = some r) : size = 4 ∧ off = r.offset := by
  unfold accessed at h
  split at h
  next hsize =>
    obtain ⟨hsize, hoff⟩ := hsize
    refine ⟨hsize, ?_⟩
    simp only [regAt, Option.orElse_eq_orElse, Option.orElse_eq_or, Option.or_eq_some_iff, Option.map_eq_some_iff] at h
    obtain h | ⟨-, ⟨k, hk, rfl⟩ | ⟨-, ⟨k, hk, rfl⟩ | ⟨-, ⟨k, hk, rfl⟩ | ⟨-, ⟨k, hk, rfl⟩ | ⟨-, ⟨k, hk, rfl⟩ | ⟨-, k, hk, rfl⟩⟩⟩⟩⟩⟩ := h
    · exact namedReg_eq_some h
    all_goals exact indexedReg_eq_some hk hoff (by decide)
  next => nomatch h

/-- Every listed offset is that of a register. -/
theorem exists_reg_of_listedOffset {off : Nat} (h : listedOffset off) : ∃ r : Reg, off = r.offset := by
  obtain ⟨r, hr⟩ : ∃ r, accessed off 4 = some r :=
    Option.ne_none_iff_exists'.mp fun hnone => (accessed_eq_none_iff.mp hnone).elim (· rfl) (· h)
  exact ⟨r, (offset_of_accessed hr).2⟩

/-! ### Loads -/

section
variable {s : State}

/-- A load that R69 does not make unspecified. -/
theorem hostRead_of_defined (r : Reg) (h : s.status.fault = false ∨ r.definedInFault = true) :
    hostRead r.offset 4 s = .next { s with rdata := s.regValue r } := by
  simp only [hostRead, accessed_offset]
  rcases h with h | h <;> simp [h]

theorem hostRead_of_hidden (r : Reg) (hf : s.status.fault = true) (h : r.definedInFault = false) :
    hostRead r.offset 4 s = .next { s with rdata := Config.freeRead s.free r.offset, free := s.free + 1 } := by
  simp [hostRead, accessed_offset, hf, h]

theorem Status.word_of_no_fault {st : Status} (h : st.fault = false) :
    st.word = BitVec.ofNat 32 (st.fcode.toNat * 2 ^ 8 + if st.busy then 1 else 0) := by
  simp [Status.word, h]

/-- Settles O20: every listed offset is that of the register named there, and a load gives its value. -/
theorem windowReadsTheRegisters : Obligations.WindowReadsTheRegisters := by
  intro s hf
  have hread : ∀ r : Reg, hostRead r.offset 4 s = .next { s with rdata := s.regValue r } := fun r => hostRead_of_defined r (.inl hf)
  refine ⟨hread .cmd, ?status, hread .result, hread .ccnt, hread .finfo, hread .srcPos, hread .nunrd, hread .baAcc, hread .baCnt,
    hread .eobrun, hread .rstexp, hread .dqtag, fun c => hread (.dcpred c), fun c => hread (.xcfg c), fun n => hread (.coef n),
    fun n => hread (.dqb n), fun k => hread (.samp k), fun k => hread (.pram k)⟩
  rw [← Status.word_of_no_fault hf]
  exact hread .status

/-- Settles O23: of the listed registers R69 names three; the others give the next free value. -/
theorem faultedReads : Obligations.FaultedReads := by
  intro s hf
  refine ⟨hostRead_of_defined .status (.inr rfl), hostRead_of_defined .ccnt (.inr rfl), hostRead_of_defined .finfo (.inr rfl),
    fun off hlisted hstatus hccnt hfinfo => ?_⟩
  obtain ⟨r, rfl⟩ := exists_reg_of_listedOffset hlisted
  refine hostRead_of_hidden r hf ?_
  cases r with
  | status => exact absurd rfl hstatus
  | ccnt => exact absurd rfl hccnt
  | finfo => exact absurd rfl hfinfo
  | _ => rfl

/-! ### Stores -/

theorem hostWrite_coef (hf : s.status.fault = false) (n : Fin 64) (d : Word) :
    hostWrite (0x100 + 4 * n.val) 4 d s = .next { s with coef := s.coef.set n d } := by
  simp [hostWrite, accessed_coef, hf]

/-- PRAM word `k` after a store of `d`. -/
def Memory.storeWord (m : Memory) (k : Nat) (d : Word) : Memory :=
  m.store (4 * k) [wordByte d 0, wordByte d 1, wordByte d 2, wordByte d 3]

theorem hostWrite_pram (hf : s.status.fault = false) (k : Fin 128) (d : Word) :
    hostWrite (0x400 + 4 * k.val) 4 d s = .next { s with pram := s.pram.storeWord k.val d } := by
  simp [hostWrite, accessed_pram, hf, Memory.storeWord]

theorem wordByte_eq_ofNat (w : Word) (i : Nat) : wordByte w i = BitVec.ofNat 8 (w.toNat / 2 ^ (8 * i)) := by
  apply BitVec.eq_of_toNat_eq
  rw [wordByte, BitVec.extractLsb'_toNat, BitVec.toNat_ofNat, Nat.shiftRight_eq_div_pow]

/-- R63 (f): byte `i` of the word goes to address 4k + i. -/
theorem Memory.byte_storeWord {m : Memory} (hm : m.wf) {k : Nat} (hk : k < 128) (d : Word) (a : Nat) :
    (m.storeWord k d).byte a = if a / 4 = k then BitVec.ofNat 8 (d.toNat / 2 ^ (8 * (a % 4))) else m.byte a := by
  have hfits : 4 * k + 4 ≤ Config.pramSize := by rw [Config.pramSize]; omega
  rw [Memory.storeWord, Memory.byte_store hm _ _ hfits, List.length_cons, List.length_cons, List.length_cons, List.length_cons,
    List.length_nil]
  by_cases ha : a / 4 = k
  · rw [if_pos (by omega), if_pos ha, ← wordByte_eq_ofNat, show a - 4 * k = a % 4 by omega]
    obtain h | h | h | h : a % 4 = 0 ∨ a % 4 = 1 ∨ a % 4 = 2 ∨ a % 4 = 3 := by omega
    all_goals rw [h]; rfl
  · rw [if_neg (by omega), if_neg ha]

/-- A store to a register that is neither CMD nor writable is ignored. -/
theorem hostWrite_readOnly (r : Reg) (hcmd : r ≠ .cmd) (hcoef : ∀ n, r ≠ .coef n) (hpram : ∀ k, r ≠ .pram k) (d : Word) :
    hostWrite r.offset 4 d s = .next s := by
  cases r with
  | cmd => exact absurd rfl hcmd
  | coef n => exact absurd rfl (hcoef n)
  | pram k => exact absurd rfl (hpram k)
  | _ => simp only [hostWrite, accessed_offset]

end

/-- Settles O22: COEF and PRAM take the word, every other listed offset but that of CMD belongs to a read-only register. -/
theorem hostWritesStoreTheirValue : Obligations.HostWritesStoreTheirValue := by
  refine fun s d hm => ⟨fun hf n => hostWrite_coef hf n d, fun hf k => ⟨_, hostWrite_pram hf k d, Memory.wf_store hm _ _,
    Memory.byte_storeWord hm k.isLt d⟩, fun off hlisted hcmd hcoef hpram => ?_⟩
  obtain ⟨r, rfl⟩ := exists_reg_of_listedOffset hlisted
  refine hostWrite_readOnly r (fun h => hcmd (h ▸ rfl)) (fun n h => hcoef ?_) (fun k h => hpram ?_) d
  · subst h
    dsimp only [Reg.offset]
    omega
  · subst h
    dsimp only [Reg.offset]
    omega

end Sys2Proof.Machine
end

section
/-! Reset and steps (`10_state.md` R41, R43; `60_exceptions.md` section 4; `70_reset_and_hazards.md` section 1): what a session start leaves, and
everything one step can do. -/

namespace Sys2Proof.Machine

/-! ### What a session start leaves -/

section
variable (k : Nat) (src nextSrc : List Byte) (inputs : List HostOp) (rdata : Word)

theorem afterReset_nCodes (tc : Fin 2) (th : Fin 4) : (State.afterReset k src nextSrc inputs rdata).ht[tc][th].nCodes = 0 := by
  simp [State.afterReset, HuffTable.undefinedTable]

theorem afterReset_atResetValues : (State.afterReset k src nextSrc inputs rdata).AtResetValues where
  status := (rfl : Status.word ⟨false, false, 0⟩ = 0)
  result := rfl
  ccnt := rfl
  finfo := rfl
  pos := rfl
  nunrd := rfl
  acc := rfl
  cnt := rfl
  nCodes := afterReset_nCodes k src nextSrc inputs rdata
  qtdef := (by decide : ∀ tq : Fin 4, #v[false, false, false, false][tq] = false)
  dcpred := (by decide : ∀ c : Fin 4, (#v[0, 0, 0, 0] : Vector Word 4)[c] = 0)
  eobrun := rfl
  rstexp := rfl
  xcfg := (by decide : ∀ c : Fin 4, #v[Variant.acc, .acc, .acc, .acc][c] = .acc)
  dqtag := (rfl : DqTag.word ⟨false, .plain⟩ = 0)

theorem afterReset_inv (hsrc : src.length < Config.srcLimit) (hnext : nextSrc.length < Config.srcLimit) :
    (State.afterReset k src nextSrc inputs rdata).Inv where
  idle := rfl
  clean _ := ⟨rfl, rfl⟩
  coded := nofun
  stream := ⟨Nat.zero_le _, Nat.zero_le _, Nat.zero_le _, Nat.one_pos⟩
  src_lt := hsrc
  nextSrc_lt := hnext
  eobrun_le := Nat.zero_le _
  tables tc th := .inl (afterReset_nCodes k src nextSrc inputs rdata tc th)
  pram := State.afterReset_pram k src nextSrc inputs rdata ▸ Memory.wf_reset k

end

theorem restart_inv {s : State} (h : s.Inv) : s.restart.Inv := afterReset_inv _ _ _ _ _ h.nextSrc_lt h.nextSrc_lt

/-- A session start looks at nothing of the block. -/
theorem restart_congr {s t : State} (hnext : s.nextSrc = t.nextSrc) (hinputs : s.inputs = t.inputs) (hrdata : s.rdata = t.rdata)
    (hfree : s.free = t.free) : s.restart = t.restart := by
  rw [State.restart, State.restart, hnext, hinputs, hrdata, hfree]

/-- Settles O18: the reset state is what a session start leaves, with empty sources. -/
theorem resetMeetsTheInvariant : Obligations.ResetMeetsTheInvariant := afterReset_inv 0 [] [] [] 0 (by decide) (by decide)

/-- Settles O10: reset, hardware reset and SS.INIT are one operation. -/
theorem resetGivesTheResetValues : Obligations.ResetGivesTheResetValues :=
  ⟨afterReset_atResetValues .., fun s => ⟨s.restart, rfl, afterReset_atResetValues .., rfl, rfl⟩⟩

/-- Settles O9: SS.INIT is a session start, and its word is the one that passes the check of FAULT. -/
theorem ssInitStartsANewSession : Obligations.SsInitStartsANewSession := by
  obtain ⟨-, hword, -⟩ := commandWordsFollowTheirFormats
  refine ⟨hword, fun s => ⟨s.restart, rfl, afterReset_atResetValues .., rfl, rfl, rfl, rfl⟩,
    fun s t hnext hinputs hrdata hfree => congrArg Host.Outcome.next (restart_congr hnext hinputs hrdata hfree), fun s w hb hf => ?_⟩
  split
  next hw => exact hw ▸ issue_ssInitWord hb
  next hw => exact issue_of_fault hf hb hw

/-! ### Everything one host operation can do -/

/-- The states a host operation can lead to. -/
inductive OpResult (s : State) : HostOp → State → Prop where
  | bind {src : List Byte} (hsrc : src.length < Config.srcLimit) : OpResult s (.bind src) { s with nextSrc := src }
  | reset : OpResult s .reset s.restart
  | read (off size : Nat) (v : Word) (n : Nat) : OpResult s (.read off size) { s with rdata := v, free := n }
  | ignored (off size : Nat) (w : Word) : OpResult s (.write off size w) s
  | ssInit (off size : Nat) : OpResult s (.write off size ssInitWord) s.restart
  | command {off size : Nat} {w : Word} {i : Instr} {t : State} (hf : s.status.fault = false) (hi : i ≠ .ssInit)
      (ht : exec i { s with cmd := w } = .next t) : OpResult s (.write off size w) t
  | illegal {off size : Nat} {w : Word} (hf : s.status.fault = false) :
      OpResult s (.write off size w) ({ s with cmd := w }.raise .illegalCommand)
  | coef {off size : Nat} {w : Word} (hf : s.status.fault = false) (n : Fin 64) :
      OpResult s (.write off size w) { s with coef := s.coef.set n w }
  | pram {off size : Nat} {w : Word} (hf : s.status.fault = false) (k : Nat) :
      OpResult s (.write off size w) { s with pram := s.pram.storeWord k w }

theorem ssInitWord_of_decode {w : Word} (h : decode w = .ok .ssInit) : w = ssInitWord := by
  obtain ⟨-, henc⟩ := encodeDecodeRoundTrip w .ssInit h
  rw [← henc]
  decide

section
variable {s t : State}

theorem opResult_of_issue {off size : Nat} {w : Word} (h : issue w s = .next t) : OpResult s (.write off size w) t := by
  rcases issue_refused_or_next w s with ⟨-, hr⟩ | ⟨hb, -⟩
  · nomatch hr.symm.trans h
  cases hf : s.status.fault with
  | true =>
    by_cases hw : w = ssInitWord
    · subst hw
      cases (issue_ssInitWord hb).symm.trans h
      exact .ssInit off size
    · cases (issue_of_fault hf hb hw).symm.trans h
      exact .ignored off size w
  | false =>
    cases hd : decode w with
    | error e =>
      cases (issue_of_error hb hf hd).symm.trans h
      exact .illegal hf
    | ok i =>
      have hexec : exec i { s with cmd := w } = .next t := (issue_of_ok hb hf hd).symm.trans h
      by_cases hi : i = .ssInit
      · subst hi
        obtain rfl := ssInitWord_of_decode hd
        cases hexec
        exact .ssInit off size
      · exact .command hf hi hexec

theorem opResult_of_hostRead {off size : Nat} (h : hostRead off size s = .next t) : OpResult s (.read off size) t := by
  unfold hostRead at h
  split at h
  next => nomatch h
  next =>
    split at h
    next => cases h; exact .read off size _ _
    next => cases h; exact .read off size _ s.free

theorem opResult_of_hostWrite {off size : Nat} {d : Word} (h : hostWrite off size d s = .next t) : OpResult s (.write off size d) t := by
  unfold hostWrite at h
  split at h
  case h_1 => nomatch h
  case h_2 => exact opResult_of_issue h
  case h_3 n _ =>
    split at h
    next => cases h; exact .ignored off size d
    next hf => cases h; exact .coef (by simpa using hf) n
  case h_4 k _ =>
    split at h
    next => cases h; exact .ignored off size d
    next hf => cases h; exact .pram (by simpa using hf) k.val
  case h_5 => cases h; exact .ignored off size d

theorem opResult_of_hostOp {op : HostOp} (h : hostOp op s = .next t) : OpResult s op t := by
  cases op with
  | bind src =>
    simp only [hostOp] at h
    split at h
    next hsrc => cases h; exact .bind hsrc
    next => nomatch h
  | reset => cases h; exact .reset
  | read off size => exact opResult_of_hostRead h
  | write off size d => exact opResult_of_hostWrite h

/-- A step does nothing, or performs the oldest pending operation on the state without it. -/
theorem step_cases (h : step s = .next t) :
    t = s ∨ ∃ op rest, s.inputs = op :: rest ∧ OpResult { s with inputs := rest } op t := by
  unfold step at h
  split at h
  next => cases h; exact .inl rfl
  next op rest hinputs => exact .inr ⟨op, rest, hinputs, opResult_of_hostOp h⟩

end

end Sys2Proof.Machine
end

section
/-! Claims about steps: the invariant, the source of a session, faulted blocks, the command written to CMD. -/

namespace Sys2Proof.Machine

/-! ### What every step keeps -/

section
variable {s t : State} {op : HostOp}

theorem OpResult.inv (hr : OpResult s op t) (h : s.Inv) : t.Inv := by
  cases hr with
  | bind hsrc => exact { h with nextSrc_lt := hsrc }
  | reset => exact restart_inv h
  | read => exact { h with }
  | ignored => exact h
  | ssInit => exact restart_inv h
  | @command _ _ w _ _ _ hi ht =>
    have hcmd : State.Inv { s with cmd := w } := { h with }
    exact exec_inv hi hcmd ht
  | @illegal _ _ w _ =>
    have hcmd : State.Inv { s with cmd := w } := { h with }
    exact hcmd.raise (Framed.refl [] _) hcmd.blockInv _
  | coef _ n => exact { h with }
  | pram _ k => exact { h with pram := Memory.wf_store h.pram _ _ }

theorem OpResult.src (hr : OpResult s op t) : t.src = s.src ∨ t = s.restart := by
  cases hr with
  | reset => exact .inr rfl
  | ssInit => exact .inr rfl
  | @command _ _ w _ _ hf hi ht =>
    rcases exec_cases hi (s := { s with cmd := w }) hf with ⟨r, u, hu, he⟩ | ⟨f, -, u, hu, he⟩
    · cases he.symm.trans ht
      exact .inl hu.same.src
    · cases he.symm.trans ht
      exact .inl hu.same.src
  | _ => exact .inl rfl

/-- Settles O17: the step does nothing or is one host operation, and a command is a body that keeps the block's part of the invariant. -/
theorem stepKeepsTheInvariant : Obligations.StepKeepsTheInvariant := by
  intro s t h ht
  rcases step_cases ht with rfl | ⟨op, rest, -, hr⟩
  · exact h
  · exact hr.inv { h with }

/-- Settles O19: a step that does not start a session leaves the source. -/
theorem sourceIsFixedForTheSession : Obligations.SourceIsFixedForTheSession := by
  intro s t ht
  rcases step_cases ht with rfl | ⟨op, rest, -, hr⟩
  · exact .inl rfl
  · rcases hr.src with hsrc | rfl
    · exact .inl hsrc
    · exact .inr ⟨rfl, afterReset_atResetValues ..⟩

/-! ### Faulted blocks -/

/-- The host operations that end the faulted state. -/
def HostOp.startsSession (op : HostOp) : Prop := op = .reset ∨ ∃ off size, op = .write off size ssInitWord

theorem OpResult.of_fault (hr : OpResult s op t) (hf : s.status.fault = true) (hop : ¬ op.startsSession) :
    t.status = s.status ∧ t.finfo = s.finfo ∧ t.ccnt = s.ccnt ∧ t.inputs = s.inputs := by
  cases hr with
  | bind => exact ⟨rfl, rfl, rfl, rfl⟩
  | read => exact ⟨rfl, rfl, rfl, rfl⟩
  | ignored => exact ⟨rfl, rfl, rfl, rfl⟩
  | reset => exact absurd (.inl rfl) hop
  | ssInit off size => exact absurd (.inr ⟨off, size, rfl⟩) hop
  | command hf' | illegal hf' | coef hf' | pram hf' => nomatch hf.symm.trans hf'

theorem step_of_fault (ht : step s = .next t) (hf : s.status.fault = true) (hops : ∀ op ∈ s.inputs, ¬ op.startsSession) :
    t.status = s.status ∧ t.finfo = s.finfo ∧ t.ccnt = s.ccnt ∧ ∀ op ∈ t.inputs, ¬ op.startsSession := by
  rcases step_cases ht with rfl | ⟨op, rest, hinputs, hr⟩
  · exact ⟨rfl, rfl, rfl, hops⟩
  · rw [hinputs, List.forall_mem_cons] at hops
    obtain ⟨hstatus, hfinfo, hccnt, hrest⟩ := hr.of_fault hf hops.1
    exact ⟨hstatus, hfinfo, hccnt, hrest ▸ hops.2⟩

theorem exists_step_of_run_succ {M : Host.Core} {k : Nat} {s t : M.State} (h : M.run (k + 1) s = .next t) :
    ∃ u, M.step s = .next u ∧ M.run k u = .next t := by
  rw [Host.Core.run] at h
  split at h
  next u hu => exact ⟨u, hu, h⟩
  next => nomatch h
  next => nomatch h

/-- Settles O13: by induction on the number of steps; each leaves the record and no operation pending that was not. -/
theorem faultIsSticky : Obligations.FaultIsSticky := by
  intro k s t hf hops hrun
  replace hops : ∀ op ∈ s.inputs, ¬ op.startsSession := fun op hop hstarts =>
    hstarts.elim (hops op hop).1 fun ⟨off, size, he⟩ => (hops op hop).2 off size he
  induction k generalizing s with
  | zero => cases hrun; exact ⟨rfl, rfl, rfl⟩
  | succ k ih =>
    obtain ⟨u, hu, hrun⟩ := exists_step_of_run_succ hrun
    obtain ⟨hstatus, hfinfo, hccnt, hrest⟩ := step_of_fault hu hf hops
    obtain ⟨hstatus', hfinfo', hccnt'⟩ := ih u (hstatus ▸ hf) hrun hrest
    exact ⟨hstatus'.trans hstatus, hfinfo'.trans hfinfo, hccnt'.trans hccnt⟩

theorem hostWrite_of_fault {u : State} (hf : u.status.fault = true) {r : Reg} (hr : r ≠ .cmd) (d : Word) :
    hostWrite r.offset 4 d u = .next u := by
  by_cases hcoef : ∃ n, r = .coef n
  · obtain ⟨n, rfl⟩ := hcoef
    exact hostWrite_coef_of_fault hf n d
  by_cases hpram : ∃ k, r = .pram k
  · obtain ⟨k, rfl⟩ := hpram
    exact hostWrite_pram_of_fault hf k d
  exact hostWrite_readOnly r hr (fun n he => hcoef ⟨n, he⟩) (fun k he => hpram ⟨k, he⟩) d

/-- Two faulted blocks answer alike: both refuse, or both go on, to one state or to states that are alike again. -/
def AnswerAlike (o o' : Host.Outcome State Fault Refusal) : Prop :=
  (∃ r, o = .refused r ∧ o' = .refused r) ∨ ∃ s' t', o = .next s' ∧ o' = .next t' ∧ (s' = t' ∨ FaultedAlike s' t')

section
variable (h : FaultedAlike s t)
include h

theorem FaultedAlike.faulted_right : t.status.fault = true := h.status ▸ h.faulted

theorem FaultedAlike.restart : s.restart = t.restart := restart_congr h.nextSrc h.inputs h.rdata h.free

theorem FaultedAlike.regValue {r : Reg} (hr : r.definedInFault = true) : s.regValue r = t.regValue r := by
  cases r with
  | status => exact congrArg Status.word h.status
  | ccnt => exact h.ccnt
  | finfo => exact h.finfo
  | _ => nomatch hr

theorem FaultedAlike.hostRead (off size : Nat) : AnswerAlike (hostRead off size s) (hostRead off size t) := by
  cases ha : accessed off size with
  | none => exact .inl ⟨_, hostRead_of_accessed_none ha s, hostRead_of_accessed_none ha t⟩
  | some r =>
    obtain ⟨rfl, rfl⟩ := offset_of_accessed ha
    cases hr : r.definedInFault with
    | true =>
      refine .inr ⟨_, _, hostRead_of_defined r (.inr hr), hostRead_of_defined r (.inr hr), .inr ?_⟩
      exact { h with rdata := h.regValue hr }
    | false =>
      refine .inr ⟨_, _, hostRead_of_hidden r h.faulted hr, hostRead_of_hidden r h.faulted_right hr, .inr ?_⟩
      exact { h with rdata := congrArg (Config.freeRead · r.offset) h.free, free := congrArg (· + 1) h.free }

theorem FaultedAlike.issue (w : Word) : AnswerAlike (issue w s) (issue w t) := by
  cases hb : s.status.busy with
  | true => exact .inl ⟨.cmdWhileBusy, by simp [Machine.issue, hb], by simp [Machine.issue, ← h.status, hb]⟩
  | false =>
    have hb' : t.status.busy = false := h.status ▸ hb
    by_cases hw : w = ssInitWord
    · subst hw
      exact .inr ⟨_, _, issue_ssInitWord hb, issue_ssInitWord hb', .inl h.restart⟩
    · exact .inr ⟨s, t, issue_of_fault h.faulted hb hw, issue_of_fault h.faulted_right hb' hw, .inr h⟩

theorem FaultedAlike.hostWrite (off size : Nat) (d : Word) : AnswerAlike (hostWrite off size d s) (hostWrite off size d t) := by
  cases ha : accessed off size with
  | none => exact .inl ⟨_, hostWrite_of_accessed_none ha d s, hostWrite_of_accessed_none ha d t⟩
  | some r =>
    obtain ⟨rfl, rfl⟩ := offset_of_accessed ha
    by_cases hr : r = .cmd
    · subst hr
      exact h.issue d
    · exact .inr ⟨s, t, hostWrite_of_fault h.faulted hr d, hostWrite_of_fault h.faulted_right hr d, .inr h⟩

theorem FaultedAlike.hostOp (op : HostOp) : AnswerAlike (hostOp op s) (hostOp op t) := by
  cases op with
  | bind src =>
    simp only [Machine.hostOp]
    split
    · exact .inr ⟨_, _, rfl, rfl, .inr { h with nextSrc := rfl }⟩
    · exact .inl ⟨_, rfl, rfl⟩
  | reset => exact .inr ⟨_, _, rfl, rfl, .inl h.restart⟩
  | read off size => exact h.hostRead off size
  | write off size d => exact h.hostWrite off size d

end

/-- Settles O14: the pending operation is the same, and what it answers is decided by what the two states share. -/
theorem faultedBlockShowsOnlyItsRecord : Obligations.FaultedBlockShowsOnlyItsRecord := by
  intro s t h
  have hinputs := h.inputs
  cases hs : s.inputs with
  | nil =>
    have ht : t.inputs = [] := hinputs ▸ hs
    exact .inr ⟨s, t, by simp only [step, hs], by simp only [step, ht], .inr h⟩
  | cons op rest =>
    have ht : t.inputs = op :: rest := hinputs ▸ hs
    have hrest : FaultedAlike { s with inputs := rest } { t with inputs := rest } := { h with inputs := rfl }
    simp only [step, hs, ht]
    exact hrest.hostOp op

/-! ### The command written -/

theorem step_of_cmdWrite {w : Word} {rest : List HostOp} (h : s.inputs = cmdWrite w :: rest) : step s = issue w { s with inputs := rest } := by
  simp only [step, h]
  rfl

/-- Settles O7: the step issues the word on the state without the operation, and BUSY, FAULT and the decoder decide what issuing does. -/
theorem stepRunsTheCommandWritten : Obligations.StepRunsTheCommandWritten := by
  refine fun s => ⟨fun hs => by simp only [step, hs], fun w rest hinputs hb => ?_⟩
  rw [step_of_cmdWrite hinputs]
  exact ⟨fun hf i hd => issue_of_ok (s := { s with inputs := rest }) hb hf hd,
    fun hf e hd => issue_of_error_record (s := { s with inputs := rest }) hb hf hd,
    fun hf hw => issue_of_fault (s := { s with inputs := rest }) hf hb hw,
    fun _ hw => hw ▸ issue_ssInitWord (s := { s with inputs := rest }) hb⟩

end

end Sys2Proof.Machine
end

section
/-! The bit commands and HT.DEC over the de-stuffed stream (`42_bitaccum.md`, `43_huffman.md`), and the codes of a built table. -/

namespace Sys2Proof.Machine

open Sys2Proof.Reference

/-! ### Bit reads -/

/-- EXTEND as the claim writes it; a field of no bits is 0. -/
theorem ite_eq_extend {n v : Nat} (hv : v < 2 ^ n) : (if n = 0 ∨ 2 ^ (n - 1) ≤ v then (v : Int) else v - 2 ^ n + 1) = extend n v := by
  rcases Nat.eq_zero_or_pos n with rfl | hn
  · obtain rfl : v = 0 := by omega
    rfl
  · rw [extend]
    by_cases h : 2 ^ (n - 1) ≤ v
    · rw [if_pos (.inr h), if_neg (Nat.not_lt.mpr h)]
    · rw [if_neg (by omega), if_pos (Nat.not_le.mp h)]

theorem bitsValue_take_lt (bits : List Bool) (n : Nat) : bitsValue (bits.take n) < 2 ^ n :=
  (bitsValue_lt _).trans_le (Nat.pow_le_pow_right Nat.two_pos (List.length_take_le n bits))

/-- BA.RCVX is ReadBits and then EXTEND, also for a field of no bits. -/
theorem baRcvx_of_bits {s : State} {n v : Nat} {t : Stream} (hn : n ≤ 16) (h : readBits s.src n s.stream = .ok v t) :
    baRcvx n s = .ok (w32 (extend n v)) { s with stream := t } := by
  rcases Nat.eq_zero_or_pos n with rfl | hpos
  · cases h
    exact baRcvx_zero s
  · exact baRcvx_of_read hpos hn h

/-- Settles O30: EnsureBits leaves the pending bits, ReadBits serves their front, and the bodies return what ReadBits served. -/
theorem bitReadsServeTheDestuffedStream : Obligations.BitReadsServeTheDestuffedStream := by
  intro s n hf hi hn bits
  obtain ⟨hread, hreadShort⟩ := readBits_spec hi.stream hn
  obtain ⟨hensure, hensureShort⟩ := ensureLoop_spec s.src n hn n s.stream hi.stream (by omega)
  refine ⟨fun hle => ?_, fun hlt => ?_⟩
  · obtain ⟨t, ht, htInv, htPending, -⟩ := hread hle
    refine ⟨fun hpos => ?ens, fun hpos => ⟨t, completes_of hf rfl (baRdbits_of_read hpos hn ht), htPending, htInv⟩, ?bit, ?rcvx⟩
    case ens =>
      obtain ⟨u, hu, huInv, huPending, -, hcnt, hmax⟩ := hensure hle
      exact ⟨u, completes_of hf rfl (baEns_of_ensured hpos hn hu), huPending, hcnt, hmax, huInv⟩
    case bit =>
      rintro rfl
      exact ⟨t, completes_of hf rfl (baRdbit_of_bit ht), htPending, htInv⟩
    case rcvx =>
      rw [ite_eq_extend (bitsValue_take_lt bits n)]
      exact ⟨t, completes_of hf rfl (baRcvx_of_bits hn ht), htPending, htInv⟩
  · have hpos : 1 ≤ n := Nat.one_le_of_lt hlt
    obtain ⟨t, ht, -⟩ := hreadShort hlt
    obtain ⟨u, hu, -⟩ := hensureShort hlt
    refine ⟨raises_of_touches hf rfl (baEns_touches n) (baEns_of_error hpos hn hu),
      raises_of_touches hf rfl (baRdbits_touches n) (baRdbits_of_error hpos hn ht),
      raises_of_touches hf rfl (baRcvx_touches n) (baRcvx_of_error hpos hn ht), ?_⟩
    rintro rfl
    exact raises_of_touches hf rfl baRdbit_touches (baRdbit_of_error ht)

/-! ### The codes of a built table -/

section
variable {counts : Vector Byte 16} {L M v w : Nat}

/-- A longer code begins past every string a shorter code begins. -/
theorem isCode_lt_longer (hLM : L < M) (hv : isCode counts L v = true) (hw : isCode counts M w = true) : (v + 1) * 2 ^ (M - L) ≤ w := by
  obtain ⟨d, rfl⟩ : ∃ d, M = L + (d + 1) := ⟨M - L - 1, by omega⟩
  obtain ⟨-, hv⟩ := (isCode_iff _ _ _).mp hv
  obtain ⟨hw, -⟩ := (isCode_iff _ _ _).mp hw
  rw [Nat.add_sub_cancel_left]
  calc (v + 1) * 2 ^ (d + 1) ≤ (codeAt counts L + countOf counts L) * 2 ^ (d + 1) := Nat.mul_le_mul_right _ hv
    _ ≤ codeAt counts (L + (d + 1)) := codes_shiftLeft_le_codeAt counts L d
    _ ≤ w := hw

theorem isCode_lt (hl : countsLegal counts = true) (hL : L ≤ 16) (hv : isCode counts L v = true) : v < 2 ^ L :=
  ((isCode_iff _ _ _).mp hv).2.trans_le (codeAt_add_le hl hL)

/-- A bit string begins with a code of at most one length. -/
theorem isCode_take_unique {bits : List Bool} (hL : L ≤ bits.length) (hM : M ≤ bits.length) (hv : isCode counts L (bitsValue (bits.take L)) = true)
    (hw : isCode counts M (bitsValue (bits.take M)) = true) : L = M := by
  wlog hLM : L ≤ M generalizing L M
  · exact (this hM hL hw hv (Nat.le_of_not_le hLM)).symm
  refine hLM.eq_or_lt.resolve_right fun hlt => ?_
  have hlonger := isCode_lt_longer hlt hv hw
  have hsplit : bits.take M = bits.take L ++ (bits.drop L).take (M - L) := by rw [← List.take_add, Nat.add_sub_cancel' hLM]
  have hlength : ((bits.drop L).take (M - L)).length = M - L := by rw [List.length_take, List.length_drop]; omega
  have hrest := bitsValue_take_lt (bits.drop L) (M - L)
  rw [hsplit, bitsValue_append, hlength, Nat.add_mul] at hlonger
  omega

variable (symbol : Nat → Byte) {L : Fin 16}

theorem countOf_ne_zero (h : counts[L] ≠ 0) : countOf counts (L.val + 1) ≠ 0 := by
  rw [countOf_succ]
  exact fun hc => h (BitVec.eq_of_toNat_eq hc)

theorem minCode_of_codes (h : counts[L] ≠ 0) : (buildTable counts symbol).minCode[L] = codeAt counts (L.val + 1) := by
  rw [buildTable_minCode, orAbsent, if_neg (countOf_ne_zero h)]

theorem maxCode_of_codes (h : counts[L] ≠ 0) :
    (buildTable counts symbol).maxCode[L] = (codeAt counts (L.val + 1) + countOf counts (L.val + 1) : Nat) - 1 := by
  have := countOf_ne_zero h
  rw [buildTable_maxCode, orAbsent, if_neg this]
  omega

/-- The values from minCode to maxCode are the codes. -/
theorem exists_isCode_of_mem {v : Int} (h : counts[L] ≠ 0) (hmin : (buildTable counts symbol).minCode[L] ≤ v)
    (hmax : v ≤ (buildTable counts symbol).maxCode[L]) : ∃ n : Nat, v = n ∧ isCode counts (L.val + 1) n = true := by
  rw [minCode_of_codes symbol h] at hmin
  rw [maxCode_of_codes symbol h] at hmax
  obtain ⟨n, rfl⟩ := Int.eq_ofNat_of_zero_le (a := v) (by omega)
  exact ⟨n, rfl, (isCode_iff _ _ _).mpr ⟨by omega, by omega⟩⟩

end

/-- Settles O33: the fields are those of the numbering, and the codes of a length fit it. -/
theorem builtTablesAreConsistent : Obligations.BuiltTablesAreConsistent := by
  rintro T ⟨counts, sym, hl, rfl⟩
  refine .inr ⟨rfl, fun L hL => ?_⟩
  have hfits : ((codeAt counts (L.val + 1) + countOf counts (L.val + 1) : Nat) : Int) ≤ (2 ^ (L.val + 1) : Nat) :=
    Int.ofNat_le.mpr (codeAt_add_le hl L.isLt)
  rw [buildTable_counts] at hL ⊢
  rw [minCode_of_codes sym hL, maxCode_of_codes sym hL, ← countOf_succ]
  push_cast at hfits ⊢
  exact ⟨rfl, by omega⟩

/-- Settles O34: a longer code lies past the strings a shorter one begins. -/
theorem builtCodesArePrefixFree : Obligations.BuiltCodesArePrefixFree := by
  rintro T L M v w ⟨counts, sym, hl, rfl⟩ hLM hL hv hv' hM hw hw' hprefix
  obtain ⟨m, rfl, hm⟩ := exists_isCode_of_mem sym hL hv hv'
  obtain ⟨n, rfl, hn⟩ := exists_isCode_of_mem sym hM hw hw'
  have hprefix : n / 2 ^ (M.val - L.val) = m := by exact_mod_cast hprefix
  obtain rfl | hlt := hLM.eq_or_lt
  · rw [Nat.sub_self, pow_zero, Nat.div_one] at hprefix
    exact ⟨rfl, congrArg Nat.cast hprefix.symm⟩
  · have hlonger := isCode_lt_longer (Nat.succ_lt_succ hlt) hm hn
    rw [Nat.succ_sub_succ] at hlonger
    have := (Nat.le_div_iff_mul_le (Nat.two_pow_pos _)).mpr hlonger
    omega

/-! ### HT.DEC -/

theorem htDec_of_illegal {tc th : Nat} (s : State) (h : 1 < tc ∨ 3 < th) : htDec tc th s = .error .illegalOperand s := by
  refine congrFun (?_ : htDec tc th = throw .illegalOperand) s
  rw [htDec]
  split
  next hc hh =>
    rcases h with h | h
    · simp [classOf_eq_none h] at hc
    · simp [slotOf_eq_none h] at hh
  next => rfl

theorem huffDecode_of_undefined {src : List Byte} {T : HuffTable} (h : T.nCodes = 0) (t : Stream) :
    huffDecode src T t = .error .uninitializedTable t := by
  rw [huffDecode, if_pos h]

/-- Settles O35: the body returns what HuffDecode serves, which is the symbol of the code the pending bits begin with. -/
theorem htDecServesOneCode : Obligations.HtDecServesOneCode := by
  refine ⟨fun s tc th hf h => refuses_of hf rfl (htDec_of_illegal s h), fun s tc th hf =>
    ⟨fun h => refuses_of hf rfl (htDec_of_fault (huffDecode_of_undefined h s.stream)), fun hi hT => ?_⟩⟩
  have hserved := huffDecode_spec hi.stream ((hi.tables tc th).resolve_left hT)
  split
  next b rest hs =>
    rw [hs] at hserved
    obtain ⟨t, ht, htInv, htPending, -⟩ := hserved
    exact ⟨t, completes_of hf rfl (htDec_of_symbol ht), htPending, htInv⟩
  next f hs =>
    rw [hs] at hserved
    obtain ⟨t, ht, -⟩ := hserved
    exact raises_of_touches hf rfl (htDec_touches tc.val th.val) (htDec_of_fault ht)

theorem exec_htDec_of_symbol {s : State} {tc : Fin 2} {th : Fin 4} {b : Byte} {rest : List Bool} (hf : s.status.fault = false) (hi : s.Inv)
    (hT : s.ht[tc][th].nCodes ≠ 0) (hs : symbol (shortage s.src s.stream) s.ht[tc][th] (pending s.src s.stream) = .ok (b, rest)) :
    ∃ t, exec (.htDec tc.val th.val) s = .next { s with stream := t, result := b.setWidth 32, ccnt := s.ccnt + 1 } ∧
      pending s.src t = rest := by
  obtain ⟨-, hserves⟩ := htDecServesOneCode
  have hexec := (hserves s tc th hf).2 hi hT
  rw [hs] at hexec
  obtain ⟨t, ht, htPending, -⟩ := hexec
  exact ⟨t, ht, htPending⟩

section
variable {counts : Vector Byte 16} (hl : countsLegal counts = true) (sym : Nat → Byte)
include hl

/-- The symbol of the one code a bit string begins with. -/
theorem symbol_of_isCode {bits : List Bool} (L : Fin 16) (hlength : L.val + 1 ≤ bits.length)
    (hcode : isCode counts (L.val + 1) (bitsValue (bits.take (L.val + 1))) = true) (short : FaultCode) :
    symbol short (buildTable counts sym) bits =
      .ok (builtSymbol counts sym L.val (bitsValue (bits.take (L.val + 1))), bits.drop (L.val + 1)) := by
  have hfront := codeAtFront_built hl sym bits L
  rw [if_pos ⟨hlength, hcode⟩] at hfront
  obtain ⟨p, hp⟩ : ∃ p, (List.finRange 16).findSome? (codeAtFront (buildTable counts sym) bits) = some p :=
    Option.ne_none_iff_exists'.mp fun hnone => by
      rw [List.findSome?_eq_none_iff] at hnone
      exact Option.some_ne_none _ (hfront.symm.trans (hnone L (List.mem_finRange L)))
  obtain ⟨M, -, hM⟩ := List.exists_of_findSome?_eq_some hp
  obtain rfl : M = L := by
    rw [codeAtFront_built hl sym bits M] at hM
    split at hM
    next h => exact Fin.ext (Nat.succ.inj (isCode_take_unique h.1 hlength h.2 hcode))
    next => nomatch hM
  cases hfront.symm.trans hM
  rw [symbol, if_neg (show (buildTable counts sym).nCodes ≠ 0 from ((countsLegal_iff counts).mp hl).1)]
  simp only [hp]

/-- A bit string that begins with the bits of code `j` of a length begins with that code. -/
theorem front_of_prefix {bits : List Bool} {L : Fin 16} {j : Nat} (hj : j < counts[L].toNat)
    (hprefix : natBits (L.val + 1) ((buildTable counts sym).minCode[L].toNat + j) <+: bits) :
    L.val + 1 ≤ bits.length ∧ isCode counts (L.val + 1) (bitsValue (bits.take (L.val + 1))) = true ∧
      bitsValue (bits.take (L.val + 1)) = codeAt counts (L.val + 1) + j := by
  rw [← countOf_succ] at hj
  rw [buildTable_minCode, orAbsent, if_neg (Nat.ne_zero_of_lt hj), Int.toNat_natCast] at hprefix
  have hcode : isCode counts (L.val + 1) (codeAt counts (L.val + 1) + j) = true := (isCode_iff _ _ _).mpr ⟨by omega, by omega⟩
  have htake := List.prefix_iff_eq_take.mp hprefix
  have hlength := hprefix.length_le
  rw [natBits_length] at htake hlength
  have hvalue : bitsValue (bits.take (L.val + 1)) = codeAt counts (L.val + 1) + j := by
    rw [← htake, bitsValue_natBits, Nat.mod_eq_of_lt (isCode_lt hl L.isLt hcode)]
  exact ⟨hlength, hvalue ▸ hcode, hvalue⟩

/-- The symbol of code `j` of a length, where the table keeps it. -/
theorem vals_of_code {L : Fin 16} {j : Nat} (hj : j < counts[L].toNat) :
    (buildTable counts sym).vals[(buildTable counts sym).valsIndex[L].toNat + j]? =
      some (builtSymbol counts sym L.val (codeAt counts (L.val + 1) + j)) := by
  rw [← countOf_succ] at hj
  have hindex := index_lt_total L.isLt hj
  have htotal := ((countsLegal_iff counts).mp hl).2.1
  have hval := buildTable_vals counts sym ⟨countUpTo counts L.val + j, hindex.trans_le htotal⟩
  rw [if_pos hindex] at hval
  rw [buildTable_valsIndex, orAbsent, if_neg (Nat.ne_zero_of_lt hj), Int.toNat_natCast, builtSymbol, Nat.add_sub_cancel_left,
    Vector.getElem?_eq_getElem (hindex.trans_le htotal)]
  exact congrArg some hval

end

/-- Settles O36: the emitted code is the one code the pending bits begin with, so O35 gives its symbol. -/
theorem htDecReturnsTheEmittedSymbol : Obligations.HtDecReturnsTheEmittedSymbol := by
  intro s tc th L j hf hi T hT hj hprefix
  have hexec := fun b rest => exec_htDec_of_symbol (tc := tc) (th := th) (b := b) (rest := rest) hf hi hT
  obtain ⟨counts, sym, hl, hbuild⟩ := (hi.tables tc th).resolve_left hT
  rw [hbuild] at hexec
  change T = _ at hbuild
  clear_value T
  subst hbuild
  obtain ⟨hlength, hcode, hvalue⟩ := front_of_prefix hl sym hj hprefix
  have hs := symbol_of_isCode hl sym L hlength hcode (shortage s.src s.stream)
  rw [hvalue] at hs
  obtain ⟨t, ht, htPending⟩ := hexec _ _ hs
  exact ⟨_, t, vals_of_code hl sym hj, ht, htPending⟩

end Sys2Proof.Machine
end

section
/-! Commands that may be repeated (`20_memory.md` R68), the bound of the scaled multiplier (`45_dequant.md` R203), and XF.RUN on a loaded slot. -/

namespace Sys2Proof.Machine

/-! ### Repeating a body -/

/-- Where the body completes, it does nothing more on the state its command leaves. -/
def Repeats (body : Cmd Word) : Prop := ∀ s r u, body s = .ok r u → body (u.complete r) = .ok r (u.complete r)

theorem exec_twice {i : Instr} {body : Cmd Word} (he : ∀ s, exec i s = .next (s.runCommand body)) (hrepeats : Repeats body) {s t : State}
    (hf : s.status.fault = false) (ht : exec i s = .next t) (htf : t.status.fault = false) : exec i t = .next { t with ccnt := t.ccnt + 1 } := by
  rcases runCommand_cases s body with ⟨hfault, -⟩ | ⟨-, r, u, hb, hrun⟩ | ⟨-, f, u, -, hrun⟩
  · nomatch hf.symm.trans hfault
  · cases (he s).symm.trans ht
    rw [hrun] at htf ⊢
    exact completes_of htf (he _) (hrepeats s r u hb)
  · cases (he s).symm.trans ht
    rw [hrun] at htf
    nomatch htf

/-! ### The bodies -/

/-- A body repeats when each of its runs fails, or completes in a state on which it completes alike. -/
theorem Repeats.of_runs {body : Cmd Word} (h : ∀ s, (∃ f, body s = .error f s) ∨
    ∃ r u, body s = .ok r u ∧ body (u.complete r) = .ok r (u.complete r)) : Repeats body := by
  intro s r u hu
  rcases h s with ⟨f, he⟩ | ⟨r', u', ho, hrepeat⟩
  · nomatch he.symm.trans hu
  · obtain ⟨rfl, rfl⟩ := EStateM.Result.ok.inj (ho.symm.trans hu)
    exact hrepeat

theorem slot_cases (v : Nat) : 3 < v ∨ ∃ t : Fin 4, v = t.val :=
  (Nat.lt_or_ge 3 v).imp_right fun h => ⟨⟨v, Nat.lt_succ_of_le h⟩, rfl⟩

theorem class_cases (v : Nat) : 1 < v ∨ ∃ t : Fin 2, v = t.val :=
  (Nat.lt_or_ge 1 v).imp_right fun h => ⟨⟨v, Nat.lt_succ_of_le h⟩, rfl⟩

theorem htBuild_repeats (tc th : Nat) : Repeats (htBuild tc th) := by
  refine Repeats.of_runs fun s => ?_
  rcases class_cases tc with htc | ⟨c, rfl⟩
  · exact .inl ⟨_, htBuild_of_illegal (.inl htc)⟩
  rcases slot_cases th with hth | ⟨h, rfl⟩
  · exact .inl ⟨_, htBuild_of_illegal (.inr (.inl hth))⟩
  cases hl : countsLegal (buildCounts s.pram) with
  | false => exact .inl ⟨_, htBuild_of_illegal (.inr (.inr hl))⟩
  | true =>
    refine .inr ⟨_, _, htBuild_of_legal c h hl, ?_⟩
    rw [htBuild_of_legal c h ?_]
    · simp [State.setTable, State.complete]
    · simpa [State.setTable, State.complete] using hl

theorem qtLoad_repeats (pq tq : Nat) : Repeats (qtLoad pq tq) := by
  refine Repeats.of_runs fun s => ?_
  rcases Nat.lt_or_ge 1 pq with hpq | hpq
  · exact .inl ⟨_, qtLoad_of_illegal s (.inl hpq)⟩
  rcases slot_cases tq with htq | ⟨t, rfl⟩
  · exact .inl ⟨_, qtLoad_of_illegal s (.inr htq)⟩
  · refine .inr ⟨_, _, qtLoad_of_legal t s hpq, (qtLoad_of_legal t _ hpq).trans ?_⟩
    simp [State.complete]

theorem xfCfg_repeats (comp : Fin 4) (v : Nat) : Repeats (xfCfg comp v) := by
  refine Repeats.of_runs fun s => ?_
  unfold xfCfg
  cases variantOf v with
  | none => exact .inl ⟨_, rfl⟩
  | some v => exact .inr ⟨_, _, rfl, by simp [State.complete]⟩

theorem xfDq_repeats (comp : Fin 4) (tq : Nat) : Repeats (xfDq comp tq) := by
  refine Repeats.of_runs fun s => ?_
  rcases slot_cases tq with htq | ⟨t, rfl⟩
  · exact .inl ⟨_, xfDq_of_slot_gt comp s htq⟩
  cases hq : s.qtdef[t] with
  | false => exact .inl ⟨_, xfDq_of_undefined comp hq⟩
  | true =>
    refine .inr ⟨_, _, xfDq_of_defined hq rfl, xfDq_of_defined ?_ rfl⟩
    exact hq

/-- Samples placed twice are placed once. -/
theorem placeSamples_placeSamples {N : Nat} (samp : Vector Byte 64) (block : Vector (Vector Byte N) N) :
    placeSamples (placeSamples samp block) block = placeSamples samp block := by
  refine Vector.ext fun i hi => ?_
  simp only [placeSamples, Vector.getElem_ofFn, Fin.getElem_fin]
  cases (block[i / N]?).bind fun row => row[i % N]? with
  | none => rfl
  | some y => rfl

theorem transformed_transformed (v : Variant) (b : Vector Word 64) (samp : Vector Byte 64) :
    transformed v b (transformed v b samp) = transformed v b samp := by
  cases v <;> exact placeSamples_placeSamples samp _

theorem xfIdct_repeats (comp : Fin 4) : Repeats (xfIdct comp) := by
  refine Repeats.of_runs fun s => ?_
  by_cases h : s.dqtag = ⟨true, s.xcfg[comp].kind⟩
  · refine .inr ⟨_, _, xfIdct_ok h, (xfIdct_ok ?_).trans ?_⟩
    · exact h
    · dsimp only [State.complete]
      rw [transformed_transformed]
  · refine .inl ⟨_, xfIdct_of_mismatch ?_⟩
    cases hv : s.dqtag.valid with
    | false => exact .inl rfl
    | true => exact .inr fun hk => h (congrArg₂ DqTag.mk hv hk)

theorem xfRun_of_defined {comp t : Fin 4} {s : State} (h : s.qtdef[t] = true) {v : Variant} (hv : s.xcfg[comp] = v) :
    xfRun comp t.val s = .ok 0 { s with
      dqb := dequantBlock v.kind s.coef s.qt[t], dqtag := ⟨true, v.kind⟩
      samp := transformed v (dequantBlock v.kind s.coef s.qt[t]) s.samp } := by
  subst hv
  exact (bind_ok (xfDq_of_defined h rfl)).trans (xfIdct_ok rfl)

theorem xfRun_repeats (comp : Fin 4) (tq : Nat) : Repeats (xfRun comp tq) := by
  refine Repeats.of_runs fun s => ?_
  rcases slot_cases tq with htq | ⟨t, rfl⟩
  · exact .inl ⟨_, bind_error (xfDq_of_slot_gt comp s htq)⟩
  cases hq : s.qtdef[t] with
  | false => exact .inl ⟨_, bind_error (xfDq_of_undefined comp hq)⟩
  | true =>
    refine .inr ⟨_, _, xfRun_of_defined hq rfl, (xfRun_of_defined ?_ rfl).trans ?_⟩
    · exact hq
    · dsimp only [State.complete]
      rw [transformed_transformed]

/-! ### The claims -/

/-- Settles O16: each of the bodies repeats, so its command does, but for CCNT. -/
theorem idempotentCommands : Obligations.IdempotentCommands := by
  intro i s t hi hf ht htf
  obtain ⟨body, he, hrepeats⟩ : ∃ body, (∀ s, exec i s = .next (s.runCommand body)) ∧ Repeats body := by
    cases i with
    | nop => exact ⟨pure 0, fun _ => rfl, .of_runs fun _ => .inr ⟨_, _, rfl, rfl⟩⟩
    | baRst => exact ⟨baRst, fun _ => rfl, .of_runs fun _ => .inr ⟨_, _, rfl, rfl⟩⟩
    | clClr => exact ⟨clClr, fun _ => rfl, .of_runs fun _ => .inr ⟨_, _, rfl, rfl⟩⟩
    | clScan => exact ⟨clScan, fun _ => rfl, .of_runs fun _ => .inr ⟨_, _, rfl, rfl⟩⟩
    | htBuild tc th => exact ⟨_, fun _ => rfl, htBuild_repeats tc th⟩
    | qtLoad pq tq => exact ⟨_, fun _ => rfl, qtLoad_repeats pq tq⟩
    | xfCfg comp v => exact ⟨_, fun _ => rfl, xfCfg_repeats comp v⟩
    | xfDq comp tq => exact ⟨_, fun _ => rfl, xfDq_repeats comp tq⟩
    | xfIdct comp => exact ⟨_, fun _ => rfl, xfIdct_repeats comp⟩
    | xfRun comp tq => exact ⟨_, fun _ => rfl, xfRun_repeats comp tq⟩
    | _ => simp [Instr.mnemonic] at hi
  exact exec_twice he hrepeats hf ht htf

theorem aan14_le (n : Fin 64) : aan14[n] ≤ 31521 := by
  revert n
  decide

/-- Settles O50: the greatest entry and the greatest AAN14 value give the bound. -/
theorem scaledMultiplierBound : Obligations.ScaledMultiplierBound := by
  refine ⟨fun q n => ?_, 65535, 9, by decide⟩
  have hproduct : q.toNat * aan14[n] ≤ 65535 * 31521 := Nat.mul_le_mul (by have := q.isLt; omega) (aan14_le n)
  rw [scaledMultiplier]
  omega

/-- Settles O54: XF.DQ completes on a loaded slot and leaves a tag that fits. -/
theorem xfRunCompletes : Obligations.XfRunCompletes := by
  intro s comp tq hf hq
  exact ⟨_, _, _, completes_of (i := .xfRun comp tq.val) hf rfl (xfRun_of_defined hq rfl)⟩

end Sys2Proof.Machine
end
